-- ==== Sys2Proof/Word.lean ====
section
/-! DEFINITION. The word types of the engine (spec R9, R13). -/

namespace Sys2Proof

/-- A byte: "8 bits; Bytes are interpreted modulo 256" (R9). -/
abbrev Byte := BitVec 8

/-- A 32-bit register: `h`, `bpp`, `bpl` are `u32`, scalar intermediates are 32 bits (R9). -/
abbrev Word := BitVec 32

/-- A 16-bit lane of a vector (R13). -/
abbrev Half := BitVec 16

/-- A value of the 128-bit vector datapath (R9, R140). -/
abbrev V128 := BitVec 128

end Sys2Proof
end

