-- ==== Sys2Proof/Machine/Flags.lean ====
section
/-! DEFINITION. Flags. The engine has none (R36): "No filter operation produces a carry, overflow, zero or sign flag".
The comparison results that exist are the sign masks of the branch-free predictor (R105), consumed inside the same
operation. -/

namespace Sys2Proof.Machine

/-- `~(v >> 31)` on 32 bits, the shift arithmetic (R105 steps 3 and 4): all ones when `v ≥ 0`, zero when `v < 0`. -/
def nonNegMask32 (v : Int) : Word := ~~~((BitVec.ofInt 32 v).sshiftRight 31)

end Sys2Proof.Machine
end

