-- ==== Sys2Proof/Syntax.lean ====
section
/-! DEFINITION. The row instructions, the modes that select them, and rows. Every row of the opcode table is a
constructor of `Instr`. No constructor has an argument: a row instruction has no register operand and no immediate
(R82), its payload is data in memory. -/

namespace Sys2Proof

/-- The kernels KSEL names (R32). The code 3 is reserved and names none. -/
inductive Kernel where
  | ref | opt | simd
deriving DecidableEq, Repr

/-- The supported bytes per pixel: "exactly {1, 2, 3, 4, 6, 8}" (R9). -/
inductive Bpp where
  | b1 | b2 | b3 | b4 | b6 | b8
deriving DecidableEq, Repr

/-- The filter types, the five defined opcodes (R81). -/
inductive Filter where
  | none | sub | up | avg | paeth
deriving DecidableEq, Repr

/-- What selects the specialization of an opcode: the kernel and the bytes per pixel (R89). -/
structure Mode where
  kernel : Kernel
  bpp : Bpp
deriving DecidableEq, Repr

/-- The row instructions: the five base rows (R121 to R125) and the thirty specializations of the SIMD kernel (R89). -/
inductive Instr where
  | none | sub | up | avg | paeth
  | noneV1 | noneV2 | noneV3 | noneV4 | noneV6 | noneV8
  | subV1 | subV2 | subV3 | subV4 | subV6 | subV8
  | upV1 | upV2 | upV3 | upV4 | upV6 | upV8
  | avgV1 | avgV2 | avgV3 | avgV4 | avgV6 | avgV8
  | paethV1 | paethV2 | paethV3 | paethV4 | paethV6 | paethV8
deriving DecidableEq, Repr

/-- One scanline seen as an instruction (R80): the opcode and the payload bytes that stand after it. -/
structure Row where
  op : Instr
  payload : List Byte
deriving DecidableEq, Repr

/-- The invocation record: "an invocation is fully described by `(KSEL, BUF, H, BPP, BPL)`" and the buffer (R92). -/
structure Invocation where
  ksel : BitVec 2
  buf : Nat
  h : Word
  bpp : Word
  bpl : Word
deriving DecidableEq, Repr

/-- The number of bytes per pixel. -/
def Bpp.toNat : Bpp → Nat
  | .b1 => 1
  | .b2 => 2
  | .b3 => 3
  | .b4 => 4
  | .b6 => 6
  | .b8 => 8

/-- The supported bytes per pixel a number names, if any (P1 of R252). -/
def Bpp.ofNat? : Nat → Option Bpp
  | 1 => some .b1
  | 2 => some .b2
  | 3 => some .b3
  | 4 => some .b4
  | 6 => some .b6
  | 8 => some .b8
  | _ => Option.none

/-- The kernel a KSEL code names, if any (R32). -/
def Kernel.ofBits? (k : BitVec 2) : Option Kernel :=
  if k = 0#2 then some .ref else if k = 1#2 then some .opt else if k = 2#2 then some .simd else Option.none

/-- The KSEL code of a kernel (R32). -/
def Kernel.toBits : Kernel → BitVec 2
  | .ref => 0#2
  | .opt => 1#2
  | .simd => 2#2

/-- The filter an instruction computes: a specialization computes the function of its base row. -/
def Instr.filter : Instr → Filter
  | .none | .noneV1 | .noneV2 | .noneV3 | .noneV4 | .noneV6 | .noneV8 => .none
  | .sub | .subV1 | .subV2 | .subV3 | .subV4 | .subV6 | .subV8 => .sub
  | .up | .upV1 | .upV2 | .upV3 | .upV4 | .upV6 | .upV8 => .up
  | .avg | .avgV1 | .avgV2 | .avgV3 | .avgV4 | .avgV6 | .avgV8 => .avg
  | .paeth | .paethV1 | .paethV2 | .paethV3 | .paethV4 | .paethV6 | .paethV8 => .paeth

/-- The bytes per pixel an instruction is specialized to; a base row takes it from BPP at run time (R89). -/
def Instr.bpp? : Instr → Option Bpp
  | .none | .sub | .up | .avg | .paeth => Option.none
  | .noneV1 | .subV1 | .upV1 | .avgV1 | .paethV1 => some .b1
  | .noneV2 | .subV2 | .upV2 | .avgV2 | .paethV2 => some .b2
  | .noneV3 | .subV3 | .upV3 | .avgV3 | .paethV3 => some .b3
  | .noneV4 | .subV4 | .upV4 | .avgV4 | .paethV4 => some .b4
  | .noneV6 | .subV6 | .upV6 | .avgV6 | .paethV6 => some .b6
  | .noneV8 | .subV8 | .upV8 | .avgV8 | .paethV8 => some .b8

/-- The base row of a filter. -/
def Instr.base : Filter → Instr
  | .none => .none
  | .sub => .sub
  | .up => .up
  | .avg => .avg
  | .paeth => .paeth

/-- The SIMD specialization of a filter and a bytes-per-pixel value: the table of R89. -/
def Instr.special : Filter → Bpp → Instr
  | .none, .b1 => .noneV1
  | .none, .b2 => .noneV2
  | .none, .b3 => .noneV3
  | .none, .b4 => .noneV4
  | .none, .b6 => .noneV6
  | .none, .b8 => .noneV8
  | .sub, .b1 => .subV1
  | .sub, .b2 => .subV2
  | .sub, .b3 => .subV3
  | .sub, .b4 => .subV4
  | .sub, .b6 => .subV6
  | .sub, .b8 => .subV8
  | .up, .b1 => .upV1
  | .up, .b2 => .upV2
  | .up, .b3 => .upV3
  | .up, .b4 => .upV4
  | .up, .b6 => .upV6
  | .up, .b8 => .upV8
  | .avg, .b1 => .avgV1
  | .avg, .b2 => .avgV2
  | .avg, .b3 => .avgV3
  | .avg, .b4 => .avgV4
  | .avg, .b6 => .avgV6
  | .avg, .b8 => .avgV8
  | .paeth, .b1 => .paethV1
  | .paeth, .b2 => .paethV2
  | .paeth, .b3 => .paethV3
  | .paeth, .b4 => .paethV4
  | .paeth, .b6 => .paethV6
  | .paeth, .b8 => .paethV8

end Sys2Proof
end

