-- ==== Sys2Proof/Machine/Primitives.lean ====
section
/-! DEFINITION. The byte arithmetic primitives and the Paeth predictor (R100 to R108), on mathematical integers: bytes
enter zero-extended (R85) and every narrowing is written out (R12). -/

namespace Sys2Proof.Machine

/-- `sum_mod256(a, b) = (a + b) & 0xFF` (R100). -/
def sumMod256 (a b : Nat) : Nat := (a + b) &&& 0xFF

/-- `avg(a, b) = (a + b) >> 1`, the floor of the mean (R101). -/
def avg (a b : Nat) : Nat := (a + b) >>> 1

/-- `udiv3(x) = (x * 0xAB) >> 9` (R102), a total formula; the engine applies it to values up to 255 (U12, log 23). -/
def udiv3 (x : Nat) : Nat := (x * 0xAB) >>> 9

/-- `paeth_ref(a, b, c)`, the canonical predictor: left, above, above-left (R104; conflicts C3, C4). -/
def paethRef (a b c : Nat) : Nat :=
  let pa := ((b : Int) - c).natAbs
  let pb := ((a : Int) - c).natAbs
  let pc := (((b : Int) - c) + ((a : Int) - c)).natAbs
  if pa ≤ pb ∧ pa ≤ pc then a else if pb ≤ pc then b else c

/-- `paeth_opt(a, b, c)`, the branch-free form (R105), steps 1 to 5. -/
def paethOpt (a b c : Nat) : Nat :=
  let lo := min a b
  let hi := max a b
  let d := udiv3 (hi - lo)
  let lo' : Int := (lo : Int) - c
  let hi' : Int := (hi : Int) - c
  let maskHi := nonNegMask32 (d + lo')
  let maskLo := nonNegMask32 (d - hi')
  (BitVec.ofNat 32 c + (BitVec.ofInt 32 hi' &&& maskHi) + (BitVec.ofInt 32 lo' &&& maskLo)).toNat % 256

/-- `RECON(ft, x, a, b, c)`, the reconstructed value of one payload byte (R108). -/
def recon (f : Filter) (x a b c : Nat) : Nat :=
  match f with
  | .none => x
  | .sub => sumMod256 x a
  | .up => sumMod256 x b
  | .avg => sumMod256 x (avg a b)
  | .paeth => sumMod256 x (paethRef a b c)

end Sys2Proof.Machine
end

