-- ==== Sys2Proof/WellFormed.lean ====
section
/-! DEFINITION. Which instructions a mode runs, which rows are well formed, and the preconditions of START (R252). -/

namespace Sys2Proof

/-- The bytes-per-line rule of R25 and P2: `bpl = w·bpp + 1` for some `w ≥ 1`. -/
def bplOk (bpp bpl : Nat) : Bool :=
  bpp + 1 ≤ bpl && (bpl - 1) % bpp == 0

/-- The mode runs the instruction (R89): base rows are the whole definition with KSEL = REF and OPT, the
specializations of the mode's own bytes per pixel with KSEL = SIMD. -/
def Instr.wf (m : Mode) (i : Instr) : Bool :=
  match m.kernel with
  | .simd => i.bpp? == some m.bpp
  | .ref | .opt => i.bpp? == Option.none

/-- A row is well formed in a mode for a row length (R80, R83): its opcode is one the mode runs, the length is one the
mode's bytes per pixel allows, and opcode and payload together have that length. -/
def Row.wf (m : Mode) (bpl : Nat) (r : Row) : Bool :=
  r.op.wf m && bplOk m.bpp.toNat bpl && r.payload.length + 1 == bpl

/-- A stretch of addresses. -/
structure Region where
  base : Nat
  size : Nat
deriving DecidableEq, Repr

/-- None of the `n` bytes at `a` lies in one of the regions. -/
def clearOf (regions : List Region) (a n : Nat) : Bool :=
  regions.all fun r => n == 0 || r.size == 0 || decide (a + n ≤ r.base) || decide (r.base + r.size ≤ a)

/-- The preconditions of START (R252) but for P8, which is about the host's later moves: those are refused (R60, log 14). -/
inductive Precondition where
  /-- P1: `BPP ∈ {1, 2, 3, 4, 6, 8}` -/
  | p1
  /-- P2: `BPL = w·BPP + 1`, `w ≥ 1` -/
  | p2
  /-- P3: `H ≥ 1` -/
  | p3
  /-- P4: the `H·BPL` bytes at `BUF` exist, are readable and writable ordinary memory (log 5) -/
  | p4
  /-- P5: `BUF + H·BPL ≤ 2^ADDR_W` -/
  | p5
  /-- P6: `KSEL ∈ {0, 1, 2}` -/
  | p6
  /-- P7: each of BUF, H, BPP, BPL, KSEL has been written since reset -/
  | p7
deriving DecidableEq, Repr

/-- One of the preconditions P1 to P6 an invocation violates, or none: the first in the table's order. `holes` are the
addresses of the space that are no ordinary memory. -/
def Invocation.violation (addrW : Nat) (holes : List Region) (v : Invocation) : Option Precondition :=
  if (Bpp.ofNat? v.bpp.toNat).isNone then some .p1
  else if !bplOk v.bpp.toNat v.bpl.toNat then some .p2
  else if v.h.toNat = 0 then some .p3
  else if !clearOf holes v.buf (v.h.toNat * v.bpl.toNat) then some .p4
  else if 2 ^ addrW < v.buf + v.h.toNat * v.bpl.toNat then some .p5
  else if (Kernel.ofBits? v.ksel).isNone then some .p6
  else Option.none

/-- The invocation meets the preconditions P1 to P6 of R252. -/
abbrev Invocation.wf (addrW : Nat) (holes : List Region) (v : Invocation) : Prop := v.violation addrW holes = Option.none

end Sys2Proof
end

