-- ==== Sys2Proof/Decode.lean ====
section
/-! DEFINITION. The decoder and the encoder of row instructions (R80 to R89). -/

namespace Sys2Proof

/-- Why bytes are no row instruction. -/
inductive DecodeError where
  /-- no byte where the opcode stands -/
  | empty
  /-- fewer bytes than the row length -/
  | truncated
  /-- a row length the mode's bytes per pixel does not allow (R25) -/
  | badRowLength
  /-- a reserved opcode, 5 to 255: "a format error" (R87) -/
  | reservedOpcode (ft : Byte)
deriving DecidableEq, Repr

/-- The opcode values of R81; "The match is on all eight bits". -/
def Filter.ofByte? (b : Byte) : Option Filter :=
  match b.toNat with
  | 0 => some .none
  | 1 => some .sub
  | 2 => some .up
  | 3 => some .avg
  | 4 => some .paeth
  | _ => Option.none

/-- The instruction a mode runs for a filter (R89): the base row with KSEL = REF and OPT, with KSEL = SIMD the
specialization chosen by the filter and the bytes per pixel. -/
def Instr.select (m : Mode) (f : Filter) : Instr :=
  match m.kernel with
  | .ref | .opt => Instr.base f
  | .simd => Instr.special f m.bpp

/-- The instruction of an opcode byte in a mode. -/
def decodeOpcode (m : Mode) (ft : Byte) : Except DecodeError Instr :=
  match Filter.ofByte? ft with
  | some f => .ok (Instr.select m f)
  | Option.none => .error (.reservedOpcode ft)

/-- One row of `bpl` bytes from the front of a list of bytes, and the bytes after it (R83: the length is the parameter
BPL, not a property of the opcode). -/
def decode (m : Mode) (bpl : Nat) : List Byte → Except DecodeError (Row × List Byte)
  | [] => .error .empty
  | ft :: bytes =>
    match decodeOpcode m ft with
    | .error e => .error e
    | .ok i =>
      if !bplOk m.bpp.toNat bpl then .error .badRowLength
      else if bytes.length + 1 < bpl then .error .truncated
      else .ok (⟨i, bytes.take (bpl - 1)⟩, bytes.drop (bpl - 1))

/-- The opcode byte of a filter (R81). -/
def Filter.toByte : Filter → Byte
  | .none => 0x00#8
  | .sub => 0x01#8
  | .up => 0x02#8
  | .avg => 0x03#8
  | .paeth => 0x04#8

/-- The opcode byte of an instruction: a specialization has the byte of its base row (R86). -/
def Instr.opcode (i : Instr) : Byte := i.filter.toByte

/-- The bytes of a row, lowest address first (R80). -/
def encode (r : Row) : List Byte := r.op.opcode :: r.payload

/-- `count` bytes of the number `w`, the least significant first. -/
def bytesOf (w : Nat) : Nat → List Byte
  | 0 => []
  | k + 1 => BitVec.ofNat 8 w :: bytesOf (w / 256) k

/-- The bytes an opcode-table word stands for: its `nbits` bits, and zeros up to the shortest row (an opcode and one
payload byte). -/
def tableBytes (nbits w : Nat) : List Byte :=
  bytesOf (w % 2 ^ nbits) (max 2 ((nbits + 7) / 8))

/-- The mode in which opcode-table words are read. DESIGN CHOICE (log 17): a word does not say its mode, and the seven
table rows of one opcode have the same word; KSEL = REF reads it as the base row. -/
def tableMode : Mode := ⟨.ref, .b1⟩

/-- The instruction the decoder reads from an opcode-table word (numbered as the table numbers bits). -/
def decodeTableWord (nbits w : Nat) : Option Instr :=
  match decode tableMode (tableBytes nbits w).length (tableBytes nbits w) with
  | .ok (r, _) => some r.op
  | .error _ => Option.none

end Sys2Proof
end

