-- ==== Sys2Proof/Config.lean ====
section
/-! DEFINITION. What the model fixes for the machine, and the free values: what the spec leaves without a value. -/

namespace Sys2Proof

/-- Where a value is used that the spec says nothing about: one site for each, so that no two are known to be equal. -/
inductive FreeSite where
  | buf | h | bpp | bpl | ksel
  | fcause | frow | fbyte
  | y | p | u | ft | i
  | v (k : Nat)
  | c | cw | pz | uz | t0
  /-- what a host read returns when the register read holds no value (U9) -/
  | hostRead
  /-- the payload byte at an address after a reset during BUSY (R292, U10) -/
  | payload (addr : Nat)
deriving DecidableEq, Repr

/-- FREE VALUE. A value the spec does not give, of width `w`, used at `site` for the `k`-th time. It has no body:
nothing can be proved about it, so a claim holds whatever it is. -/
opaque Config.freeValue (w : Nat) (site : FreeSite) (k : Nat) : BitVec w

/-- `ADDR_W` of the machine after `State.reset`. DESIGN CHOICE (log 2): the spec leaves `ADDR_W` open (R10); the model
holds it in State, so every statement about all states holds for every `ADDR_W`. -/
def Config.addrW : Nat := 64

/-- What a byte of memory that nothing has written reads as. DESIGN CHOICE (log 4): the spec gives no reset contents. -/
def Config.unlistedByte : Byte := 0#8

end Sys2Proof
end

