-- ==== Sys2Proof/Machine/State.lean ====
section
/-! DEFINITION. The state of the engine as plain data, the reasons a step can stop, and the state after reset. -/

namespace Sys2Proof.Machine

/-- Memory: the bytes that differ from what an unlisted address reads as, addresses strictly rising (R50, log 4). -/
abbrev Memory := List Host.Cell

/-- STATUS (R34). -/
inductive Status where
  | idle | busy | done | fault
deriving DecidableEq, Repr

/-- The host-visible registers (R21). -/
inductive HostReg where
  | buf | h | bpp | bpl | ksel | ctrl | status | fcause | frow | fbyte
deriving DecidableEq, Repr

/-- One move of the host (R258, R290). -/
inductive HostMove where
  /-- write a register -/
  | writeReg (r : HostReg) (value : Nat)
  /-- read a register -/
  | readReg (r : HostReg)
  /-- write one byte of memory -/
  | writeMem (addr : Nat) (value : Byte)
  /-- read one byte of memory -/
  | readMem (addr : Nat)
  /-- apply reset -/
  | reset
deriving DecidableEq, Repr

/-- A move of the host and the number of engine steps that pass before it (log 8). -/
structure HostInput where
  after : Nat
  move : HostMove
deriving DecidableEq, Repr

/-- Which parameter registers have been written since reset (P7 of R252, log 7). -/
structure Written where
  buf : Bool
  h : Bool
  bpp : Bool
  bpl : Bool
  ksel : Bool
deriving DecidableEq, Repr

/-- The state of the machine. -/
structure State where
  /-- `ADDR_W`, the OPEN parameter (R10): fixed, no step changes it (log 2) -/
  addrW : Nat
  /-- the addresses of the space at which there is no existing, readable and writable ordinary memory (P4 of R252):
  fixed by the system, no step changes it (log 5) -/
  holes : List Region
  /-- BUF, `ADDR_W` bits (R22) -/
  buf : Nat
  /-- H (R23) -/
  h : Word
  /-- BPP (R24) -/
  bpp : Word
  /-- BPL (R25) -/
  bpl : Word
  /-- KSEL (R32) -/
  ksel : BitVec 2
  /-- which of the five have been written since reset (R43, P7 of R252) -/
  written : Written
  /-- STATUS (R34) -/
  status : Status
  /-- FCAUSE (R35) -/
  fcause : Byte
  /-- FROW (R35) -/
  frow : Word
  /-- FBYTE (R35) -/
  fbyte : Byte
  /-- Y, the row index (R26) -/
  y : Word
  /-- P, payload start of the current row, `ADDR_W` bits (R27) -/
  p : Nat
  /-- U, payload start of the previous row, `ADDR_W` bits (R28) -/
  u : Nat
  /-- FT, the filter-type latch (R29) -/
  ft : Byte
  /-- I, the payload index inside the row (R30) -/
  i : Word
  /-- V0..V15 (R37) -/
  v : Vector V128 16
  /-- C, the byte-lane carry (R38) -/
  c : V128
  /-- CW, the 16-bit-lane carry (R38) -/
  cw : V128
  /-- PZ, the last reconstructed byte (R39) -/
  pz : Word
  /-- UZ, the previous-row byte above it (R39) -/
  uz : Word
  /-- T0, the running value of Avg at one byte per pixel (R39) -/
  t0 : Word
  /-- the memory the engine reaches, the image buffer in it (R41, R50) -/
  mem : Memory
  /-- MODEL: the host's moves to come, the next one first (log 8) -/
  inputs : List HostInput
  /-- MODEL: what the host's last read returned (log 9) -/
  readData : Nat
  /-- MODEL: the index of the next free values (log 10) -/
  fresh : Nat
deriving DecidableEq, Repr

/-- Why the machine stops with a fault. FORMAT is none of these: it is fault entry of the engine, a next state (R274). -/
inductive Fault where
  /-- An access outside `0 .. 2^ADDR_W` (raised by the opcode fetch, by a row instruction whose row or previous row does
  not lie in the address space, and by a host access to memory). Safe: no address there exists (R50), and no START that
  meets P5 leads to one (R31). -/
  | outsideAddressSpace
  /-- An access, at an address of the space, to a byte that is no existing, readable and writable ordinary memory (raised
  where `outsideAddressSpace` is). Safe: the spec gives no effect of such an access, and no START that meets P4 leads to
  one by the engine (R252). -/
  | noOrdinaryMemory
deriving DecidableEq, Repr

/-- Why a step has no meaning. -/
inductive Refusal where
  /-- An instruction without a meaning in this model, by its mnemonic; raised by `exec` alone. Safe. -/
  | notModelled (mnemonic : String)
  /-- START, or a row run, under parameters that violate a precondition of R252: "a model treats it as `refuse`".
  Raised by a host write of CTRL.START and by the row instructions. Safe. -/
  | precondition (p : Precondition)
  /-- A specialization of the SIMD kernel executed when KSEL and BPP do not select it (R89); no step does that.
  Raised by the specializations. Safe. -/
  | wrongMode
  /-- A move the host does not have while STATUS is BUSY (R258; U3, U4): raised by the host's moves. Safe. -/
  | hostMoveWhileBusy
  /-- A write of a read-only register (R21); raised by the host's moves. Safe. -/
  | readOnlyRegister
  /-- CTRL written with a reserved bit set (U8); raised by the host's moves. Safe. -/
  | reservedCtrlBits
  /-- A write of a number wider than the register (R21 gives the width); raised by the host's moves. Safe. -/
  | valueTooWide
deriving DecidableEq, Repr

/-- The state right after a reset (R43, R290, R291): STATUS is IDLE, no parameter register counts as written, every
other register holds "no value", here a free value of the index `k` (log 6). Memory is untouched by reset. -/
def State.resetAt (addrW : Nat) (holes : List Region) (k : Nat) (mem : Memory) (inputs : List HostInput)
    (readData : Nat) : State where
  addrW := addrW
  holes := holes
  buf := (Config.freeValue addrW .buf k).toNat
  h := Config.freeValue 32 .h k
  bpp := Config.freeValue 32 .bpp k
  bpl := Config.freeValue 32 .bpl k
  ksel := Config.freeValue 2 .ksel k
  written := ⟨false, false, false, false, false⟩
  status := .idle
  fcause := Config.freeValue 8 .fcause k
  frow := Config.freeValue 32 .frow k
  fbyte := Config.freeValue 8 .fbyte k
  y := Config.freeValue 32 .y k
  p := (Config.freeValue addrW .p k).toNat
  u := (Config.freeValue addrW .u k).toNat
  ft := Config.freeValue 8 .ft k
  i := Config.freeValue 32 .i k
  v := Vector.ofFn fun j => Config.freeValue 128 (.v j.val) k
  c := Config.freeValue 128 .c k
  cw := Config.freeValue 128 .cw k
  pz := Config.freeValue 32 .pz k
  uz := Config.freeValue 32 .uz k
  t0 := Config.freeValue 32 .t0 k
  mem := mem
  inputs := inputs
  readData := readData
  fresh := k + 1

/-- The machine right after reset: memory lists nothing, the whole address space is ordinary memory (log 5), the host
has no move to come. -/
def State.reset : State := State.resetAt Config.addrW [] 0 [] [] 0

end Sys2Proof.Machine
end

