-- ==== Sys2Proof/Machine/Ops.lean ====
section
/-! DEFINITION. The named operations over memory and registers: memory read and write, the row geometry, fault entry,
the cursor advance, START, reset, and the outcome of a row instruction. -/

namespace Sys2Proof.Machine

/-! ### Memory (R50, R61) -/

/-- One byte of memory. -/
def Memory.read : Memory → Nat → Byte
  | [], _ => Config.unlistedByte
  | (k, x) :: m, a => if k = a then x else Memory.read m a

/-- Put one byte in memory, keeping the canonical form. -/
def Memory.write : Memory → Nat → Byte → Memory
  | [], a, b => if b = Config.unlistedByte then [] else [(a, b)]
  | (k, x) :: m, a, b =>
    if k < a then (k, x) :: Memory.write m a b
    else if k = a then (if b = Config.unlistedByte then m else (a, b) :: m)
    else if b = Config.unlistedByte then (k, x) :: m
    else (a, b) :: (k, x) :: m

/-- `MemWrite(a, count, f 0, f 1, ...)`: `count` bytes, lowest address first (R14). -/
def Memory.writeBytes (m : Memory) (a : Nat) (f : Nat → Byte) : Nat → Memory
  | 0 => m
  | k + 1 => (Memory.writeBytes m a f k).write (a + k) (f k)

/-- The canonical form: addresses strictly rising, no entry equal to what an unlisted address reads as. -/
abbrev Memory.wf (m : Memory) : Prop :=
  m.Pairwise (fun x y => x.1 < y.1) ∧ ∀ x ∈ m, x.2 ≠ Config.unlistedByte

/-! ### Geometry, mode, the row cursor -/

/-- `n = bpl − 1`, the payload length of every row of the invocation (R25). -/
def State.n (s : State) : Nat := s.bpl.toNat - 1

/-- The invocation record in the parameter registers (R92). -/
def State.invocation (s : State) : Invocation := ⟨s.ksel, s.buf, s.h, s.bpp, s.bpl⟩

/-- All five parameter registers have been written since reset (P7 of R252). -/
def Written.all (w : Written) : Bool := w.buf && w.h && w.bpp && w.bpl && w.ksel

/-- The mode KSEL and BPP select (R89, R253), if they select one. -/
def State.mode (s : State) : Option Mode :=
  match Kernel.ofBits? s.ksel, Bpp.ofNat? s.bpp.toNat with
  | some k, some b => some ⟨k, b⟩
  | _, _ => Option.none

/-- An address register value: the address where it fits in `ADDR_W` bits. The cursor after the last row of a buffer
that ends at the top of the address space does not fit and no rule says what it holds: a free value (log 3). -/
def fitAddr (s : State) (site : FreeSite) (a : Nat) : Nat :=
  if a < 2 ^ s.addrW then a else (Config.freeValue s.addrW site s.fresh).toNat

/-- Advancing the row cursor (R131) and the end of the invocation (R132, R255). -/
def State.advance (s : State) : State :=
  { s with
    u := s.p
    p := fitAddr s .p (s.p + s.bpl.toNat)
    y := s.y + 1#32
    status := if s.y + 1#32 = s.h then .done else s.status
    fresh := s.fresh + 1 }

/-! ### Working registers that hold no value between rows (R30, R37, R38, R39): free values (log 11) -/

/-- I "has no value between rows" (R30). -/
def State.dropIndex (s : State) : State := { s with i := Config.freeValue 32 .i s.fresh }

/-- "No vector register holds a value across rows" (R37). -/
def State.dropVectors (s : State) : State :=
  { s with v := Vector.ofFn fun j => Config.freeValue 128 (.v j.val) s.fresh }

/-- C and CW "hold no value between rows" (R38). -/
def State.dropCarry (s : State) : State :=
  { s with c := Config.freeValue 128 .c s.fresh, cw := Config.freeValue 128 .cw s.fresh }

/-- PZ and UZ are "live only inside one row" (R39). -/
def State.dropRolling (s : State) : State :=
  { s with pz := Config.freeValue 32 .pz s.fresh, uz := Config.freeValue 32 .uz s.fresh }

/-- T0 is "live only inside one row" (R39). -/
def State.dropRunning (s : State) : State := { s with t0 := Config.freeValue 32 .t0 s.fresh }

/-- The fault record has no value any more (R251). -/
def State.dropFaultRecord (s : State) : State :=
  { s with
    fcause := Config.freeValue 8 .fcause s.fresh
    frow := Config.freeValue 32 .frow s.fresh
    fbyte := Config.freeValue 8 .fbyte s.fresh }

/-! ### Taking the FORMAT fault (R271, R274). There is no return from it (R277): START or reset leaves FAULT. -/

/-- Fault entry: FCAUSE, FROW and FBYTE record the cause, the row index and the filter byte in FT, STATUS is FAULT.
Nothing else changes; "no further memory access is made". -/
def State.raiseFormat (s : State) : State :=
  { s with fcause := 1#8, frow := s.y, fbyte := s.ft, status := .fault }

/-! ### The outcome of a row instruction -/

/-- The row parameters have a meaning (P1 and P2 of R252). -/
def State.geometry? (s : State) : Option Precondition :=
  if (Bpp.ofNat? s.bpp.toNat).isNone then some .p1
  else if !bplOk s.bpp.toNat s.bpl.toNat then some .p2
  else Option.none

/-- The filter reads the previous row (R67, R84). -/
def readsAbove : Filter → Bool
  | .none | .sub => false
  | .up | .avg | .paeth => true

/-- The filter reads and writes payload bytes (R67). -/
def touchesPayload : Filter → Bool
  | .none => false
  | .sub | .up | .avg | .paeth => true

/-- Why the `n` bytes at `a` cannot be accessed, if so: they leave the address space (R50), or one of them is no
existing, readable and writable ordinary memory (P4 of R252). -/
def State.accessFault (s : State) (a n : Nat) : Option Fault :=
  if 2 ^ s.addrW < a + n then some .outsideAddressSpace
  else if clearOf s.holes a n then Option.none
  else some .noOrdinaryMemory

/-- Why a row instruction cannot access a byte that it reads or writes (R67), if so: the payload, then the row above. -/
def State.footprintFault (s : State) (f : Filter) : Option Fault :=
  match (if touchesPayload f then s.accessFault s.p s.n else Option.none) with
  | some e => some e
  | Option.none => if readsAbove f && decide (s.y ≠ 0#32) then s.accessFault s.u s.n else Option.none

/-- A base row of filter `f` with the given body (R120): refused where R252 gives the parameters no meaning, a fault
where the row cannot be accessed, else the body and the cursor advance. -/
def runRow (f : Filter) (body : State → State) (s : State) : Host.Outcome State Fault Refusal :=
  match s.geometry? with
  | some q => .refused (.precondition q)
  | Option.none =>
    match s.footprintFault f with
    | some e => .fault e
    | Option.none => .next (body s).advance

/-- A specialization of the SIMD kernel (R89): it runs in its own mode alone. -/
def runSpecial (f : Filter) (b : Bpp) (body : State → State) (s : State) : Host.Outcome State Fault Refusal :=
  if s.mode = some ⟨.simd, b⟩ then runRow f body s else .refused .wrongMode

/-! ### START and reset -/

/-- The precondition START violates, if any (R252). -/
def State.startViolation (s : State) : Option Precondition :=
  if s.written.all then s.invocation.violation s.addrW s.holes else some .p7

/-- The effect of START (R251): BUSY, the cursor at row 0, and no value in U, in the fault record and in the working
registers. -/
def State.started (s : State) : State :=
  { s.dropFaultRecord.dropIndex.dropVectors.dropCarry.dropRolling.dropRunning with
    status := .busy
    y := 0#32
    p := fitAddr s .p (s.buf + 1)
    u := (Config.freeValue s.addrW .u s.fresh).toNat
    ft := Config.freeValue 8 .ft s.fresh
    fresh := s.fresh + 1 }

/-- CTRL.START written with 1 while not BUSY (R251, R252). -/
def State.start (s : State) : Host.Outcome State Fault Refusal :=
  match s.startViolation with
  | some q => .refused (.precondition q)
  | Option.none => .next s.started

/-- The payload bytes among the first `count` bytes of the buffer get free values; filter bytes stay (R292, U10). -/
def scramblePayload (buf bpl k : Nat) (m : Memory) : Nat → Memory
  | 0 => m
  | o + 1 =>
    let m' := scramblePayload buf bpl k m o
    if o % bpl = 0 then m' else m'.write (buf + o) (Config.freeValue 8 (.payload (buf + o)) k)

/-- Memory after a reset: untouched (R43), but for the payload of a buffer whose invocation is abandoned (R292). -/
def State.memAfterReset (s : State) : Memory :=
  if s.status = .busy then scramblePayload s.buf s.bpl.toNat s.fresh s.mem (s.h.toNat * s.bpl.toNat) else s.mem

/-- Reset (R290): STATUS is IDLE and every other register holds no value. -/
def State.resetMove (s : State) : State :=
  State.resetAt s.addrW s.holes s.fresh s.memAfterReset s.inputs s.readData

end Sys2Proof.Machine
end

