-- ==== Sys2Proof/Machine/Vector.lean ====
section
/-! DEFINITION. The 128-bit vector datapath: lane views and the V-ops (R140 to R170). V-ops are operations of the
datapath, not instructions. None sets a flag or raises a fault. -/

namespace Sys2Proof.Machine

/-! ### Lane views (R13, R140) -/

/-- `v.b[k]`, byte lane `k`: lane 0 is the least significant byte. -/
def lane8 (v : V128) (k : Nat) : Byte := v.extractLsb' (8 * k) 8

/-- `v.w[k]`, 16-bit lane `k`. -/
def lane16 (v : V128) (k : Nat) : Half := v.extractLsb' (16 * k) 16

/-- `v.d[k]`, 32-bit lane `k`. -/
def lane32 (v : V128) (k : Nat) : Word := v.extractLsb' (32 * k) 32

/-- The vector whose first `count` lanes of `w` bits are `f 0`, `f 1`, ..., the others 0. -/
def packLanes (w : Nat) (f : Nat → BitVec w) : Nat → V128
  | 0 => 0#128
  | k + 1 => packLanes w f k ||| ((f k).setWidth 128 <<< (w * k))

/-- The vector of sixteen byte lanes. -/
def ofLanes8 (f : Nat → Byte) : V128 := packLanes 8 f 16

/-- The vector of eight 16-bit lanes. -/
def ofLanes16 (f : Nat → Half) : V128 := packLanes 16 f 8

/-- The vector of four 32-bit lanes. -/
def ofLanes32 (f : Nat → Word) : V128 := packLanes 32 f 4

/-! ### The hardwired constants (R40) -/

def zeroV : V128 := 0#128

def k5580 : V128 := ofLanes16 fun _ => 0x5580#16

def m00FF : V128 := ofLanes16 fun _ => 0x00FF#16

/-! ### Loads and stores (R142 to R147, R168) -/

/-- `VLD16A` (R142). The engine issues it at multiples of 16 alone (R59, R183); the model does not check (log 21). -/
def vld16a (m : Memory) (a : Nat) : V128 := ofLanes8 fun k => m.read (a + k)

/-- `VLD16U` (R143). -/
def vld16u (m : Memory) (a : Nat) : V128 := ofLanes8 fun k => m.read (a + k)

/-- `VST16A` (R144); see `vld16a` on the alignment. -/
def vst16a (m : Memory) (a : Nat) (v : V128) : Memory := m.writeBytes a (lane8 v) 16

/-- `VST16U` (R145). -/
def vst16u (m : Memory) (a : Nat) (v : V128) : Memory := m.writeBytes a (lane8 v) 16

/-- `VLD8` (R146): the upper half is zero. -/
def vld8 (m : Memory) (a : Nat) : V128 := ofLanes8 fun k => if k < 8 then m.read (a + k) else 0#8

/-- `VST8` (R147): byte lanes 8..16 are not stored. -/
def vst8 (m : Memory) (a : Nat) (v : V128) : Memory := m.writeBytes a (lane8 v) 8

/-- `LD32LE` (R168): the little-endian 32-bit scalar load. -/
def ld32le (m : Memory) (a : Nat) : Word :=
  (m.read a).setWidth 32 ||| (m.read (a + 1)).setWidth 32 <<< 8 ||| (m.read (a + 2)).setWidth 32 <<< 16
    ||| (m.read (a + 3)).setWidth 32 <<< 24

/-! ### Lane arithmetic (R148 to R156, R166, R167) -/

/-- `VADDB` (R148). -/
def vaddb (a b : V128) : V128 := ofLanes8 fun k => lane8 a k + lane8 b k

/-- `VADDW` (R149). -/
def vaddw (a b : V128) : V128 := ofLanes16 fun k => lane16 a k + lane16 b k

/-- `VSUBW` (R150). -/
def vsubw (a b : V128) : V128 := ofLanes16 fun k => lane16 a k - lane16 b k

/-- `VMINSW` (R151). -/
def vminsw (a b : V128) : V128 :=
  ofLanes16 fun k => if (lane16 a k).toInt ≤ (lane16 b k).toInt then lane16 a k else lane16 b k

/-- `VMAXSW` (R152). -/
def vmaxsw (a b : V128) : V128 :=
  ofLanes16 fun k => if (lane16 b k).toInt ≤ (lane16 a k).toInt then lane16 a k else lane16 b k

/-- `VMULHUW` (R153): the product exact, the high half kept. -/
def vmulhuw (a b : V128) : V128 :=
  ofLanes16 fun k => BitVec.ofNat 16 (((lane16 a k).toNat * (lane16 b k).toNat) >>> 16)

/-- `VSRAW` (R154). -/
def vsraw (a : V128) (n : Nat) : V128 := ofLanes16 fun k => (lane16 a k).sshiftRight n

/-- `VSRLW` (R155). -/
def vsrlw (a : V128) (n : Nat) : V128 := ofLanes16 fun k => lane16 a k >>> n

/-- `VSLLW` (R156). -/
def vsllw (a : V128) (n : Nat) : V128 := ofLanes16 fun k => lane16 a k <<< n

/-- `VAND` (R166). -/
def vand (a b : V128) : V128 := a &&& b

/-- `VANDN(m, v) = (~m) & v` (R167): the first operand is complemented. -/
def vandn (m v : V128) : V128 := ~~~m &&& v

/-! ### Lane movement (R157 to R165) -/

/-- `VSLLDQ` (R157): bytes move toward higher lanes. -/
def vslldq (a : V128) (n : Nat) : V128 := ofLanes8 fun k => if n ≤ k then lane8 a (k - n) else 0#8

/-- `VSRLDQ` (R158): bytes move toward lane 0. -/
def vsrldq (a : V128) (n : Nat) : V128 := ofLanes8 fun k => if k + n < 16 then lane8 a (k + n) else 0#8

/-- `VUNPKLBW` (R159): interleave the low eight byte lanes. -/
def vunpklbw (a b : V128) : V128 := ofLanes8 fun k => if k % 2 = 0 then lane8 a (k / 2) else lane8 b (k / 2)

/-- `VUNPKHBW` (R160): interleave the high eight byte lanes. -/
def vunpkhbw (a b : V128) : V128 := ofLanes8 fun k => if k % 2 = 0 then lane8 a (8 + k / 2) else lane8 b (8 + k / 2)

/-- The saturation of `VPACKUSWB`: the lane read as signed and clamped to `[0, 255]` (R161). -/
def sat8 (x : Half) : Byte := BitVec.ofInt 8 (min 255 (max 0 x.toInt))

/-- `VPACKUSWB` (R161). -/
def vpackuswb (a b : V128) : V128 :=
  ofLanes8 fun k => if k < 8 then sat8 (lane16 a k) else sat8 (lane16 b (k - 8))

/-- Two bits of a shuffle immediate: those of destination lane `k` (R162). -/
def shufSel (imm : Byte) (k : Nat) : Nat := (imm.toNat >>> (2 * k)) &&& 3

/-- `VSHUFD` (R162). -/
def vshufd (a : V128) (imm : Byte) : V128 := ofLanes32 fun k => lane32 a (shufSel imm k)

/-- `VSHUFLW` (R163). -/
def vshuflw (a : V128) (imm : Byte) : V128 :=
  ofLanes16 fun k => if k < 4 then lane16 a (shufSel imm k) else lane16 a k

/-- `VSHUFHW` (R164). -/
def vshufhw (a : V128) (imm : Byte) : V128 :=
  ofLanes16 fun k => if k < 4 then lane16 a k else lane16 a (4 + shufSel imm (k - 4))

/-- `VCVT32` (R165): 32-bit lanes 1 to 3 are zero. -/
def vcvt32 (x : Word) : V128 := ofLanes32 fun k => if k = 0 then x else 0#32

/-! ### The macros (R170) and the lane predictor (R230) -/

/-- `SLL_ADDB_1X`, one prefix-sum step (R170). -/
def sllAddb1x (p0 : V128) (s : Nat) : V128 := vaddb p0 (vslldq p0 s)

/-- `SLL_ADDB_2X`, the same step on two registers (R170). -/
def sllAddb2x (p0 p1 : V128) (s : Nat) : V128 × V128 := (sllAddb1x p0 s, sllAddb1x p1 s)

/-- `PAETH16`, eight Paeth predictors at once (R230). -/
def paeth16 (a b c : V128) : V128 :=
  let lo := vminsw a b
  let hi := vmaxsw a b
  let d := vmulhuw (vsubw hi lo) k5580
  let lo' := vsubw lo c
  let hi' := vsubw hi c
  let t1 := vandn (vsraw (vaddw d lo') 15) hi'
  let t2 := vandn (vsraw (vsubw d hi') 15) lo'
  vaddw c (vaddw t1 t2)

end Sys2Proof.Machine
end

