-- ==== Sys2Proof/Machine/Operands.lean ====
section
/-! DEFINITION. The operands of a row instruction: the payload byte, the previous-row byte, the byte-neighbourhood
reducer (R84), and the previous-row vectors. -/

namespace Sys2Proof.Machine

/-- `p[i]`, payload byte `i` of the current row (R14, R27). -/
def State.payload (s : State) (i : Nat) : Byte := s.mem.read (s.p + i)

/-- `u[i]`, the byte above: 0 on row 0, with no memory access (R56). -/
def State.above (s : State) (i : Nat) : Byte := if s.y = 0#32 then 0#8 else s.mem.read (s.u + i)

/-- `p[i] <- e`, and I passes to the next byte (R30). -/
def State.setPayload (s : State) (i : Nat) (e : Nat) : State :=
  { s with mem := s.mem.write (s.p + i) (BitVec.ofNat 8 e), i := BitVec.ofNat 32 (i + 1) }

/-- `p[i] += e` (R12). -/
def State.addPayload (s : State) (i : Nat) (e : Nat) : State :=
  s.setPayload i (sumMod256 (s.payload i).toNat e)

/-- `a`, the left neighbour of payload byte `i`: 0 at the left edge (R84). -/
def State.left (s : State) (bpp i : Nat) : Nat := if bpp ≤ i then (s.payload (i - bpp)).toNat else 0

/-- `c`, the above-left neighbour of payload byte `i`: 0 at the left edge and on row 0 (R84). -/
def State.aboveLeft (s : State) (bpp i : Nat) : Nat := if bpp ≤ i then (s.above (i - bpp)).toNat else 0

/-- `RECON` on the neighbourhood of payload byte `i` (R84, R127). -/
def State.reconAt (s : State) (f : Filter) (bpp i : Nat) : Nat :=
  recon f (s.payload i).toNat (s.left bpp i) (s.above i).toNat (s.aboveLeft bpp i)

/-- `UVEC16(i)`: an unaligned load from the previous row, ZERO on row 0 (R199, R56). -/
def State.uvec16 (s : State) (i : Nat) : V128 := if s.y = 0#32 then zeroV else vld16u s.mem (s.u + i)

/-- `UVEC8(i)` (R200, R56). -/
def State.uvec8 (s : State) (i : Nat) : V128 := if s.y = 0#32 then zeroV else vld8 s.mem (s.u + i)

end Sys2Proof.Machine
end

