-- ==== Sys2Proof/Machine/Scaffold.lean ====
section
/-! DEFINITION. Loops over the payload, and the scaffolding of the SIMD kernel: the row cut, the block loops and the
carry seed (R180 to R187). -/

namespace Sys2Proof.Machine

/-- `f lo`, `f (lo+1)`, ..., `count` of them in ascending order. -/
def forUp (f : Nat → State → State) (lo : Nat) : Nat → State → State
  | 0, s => s
  | k + 1, s => f (lo + k) (forUp f lo k s)

/-- "for i in `lo..hi`": the half-open range in ascending order, empty when `hi ≤ lo` (R11). -/
def forRange (lo hi : Nat) (f : Nat → State → State) (s : State) : State := forUp f lo (hi - lo) s

/-- `f` applied `count` times. -/
def repeatN (f : State → State) : Nat → State → State
  | 0, s => s
  | k + 1, s => f (repeatN f k s)

/-- `scalar(lo, hi)` of the SIMD kernel: `p[i] <- RECON(FT, raw p[i], a, b, c)` for `i` ascending (R127, R181). -/
def scalar (f : Filter) (bpp lo hi : Nat) (s : State) : State :=
  forRange lo hi (fun i s => s.setPayload i (s.reconAt f bpp i)) s

/-- `align_diff(addr, m)`: the bytes from `addr` up to the next multiple of `m` (R182). -/
def alignDiff (addr m : Nat) : Nat := (m - addr % m) % m

/-- A loop of block size `size` "runs `while n − I ≥ B`" (R184). A block advances I by its size, so that is
`⌊(n − I) / B⌋` times. -/
def blocks (size : Nat) (block : State → State) (s : State) : State :=
  repeatN block ((s.n - s.i.toNat) / size) s

/-- I advanced by a block (R30). -/
def State.bumpIndex (s : State) (k : Nat) : State := { s with i := BitVec.ofNat 32 (s.i.toNat + k) }

/-- The carry register `C` seeded from the `bpp` bytes before the first block (R185). -/
def State.seedC (b : Bpp) (s : State) : V128 :=
  match b with
  | .b4 => vcvt32 (ld32le s.mem (s.p + s.i.toNat - 4))
  | .b8 => vld8 s.mem (s.p + s.i.toNat - 8)
  | .b1 | .b2 | .b3 | .b6 => ofLanes8 fun j => if j < b.toNat then s.payload (s.i.toNat - b.toNat + j) else 0#8

/-- Both carry registers from the byte-lane form: "in `CW`, 16-bit lanes `0..bpp` hold the same bytes zero-extended"
(R38). -/
def State.setCarry (c : V128) (s : State) : State := { s with c := c, cw := vunpklbw c zeroV }

/-- Both carry registers from the 16-bit-lane form: in `C`, byte lanes `0..bpp` hold the same bytes (R38). -/
def State.setCarryWide (cw : V128) (s : State) : State := { s with c := vpackuswb cw zeroV, cw := cw }

/-- The carry seed at body entry (R185). -/
def State.seedCarry (b : Bpp) (s : State) : State := s.setCarry (s.seedC b)

/-- One row of the SIMD kernel: prologue, alignment head, body, tail (R181). -/
def simdRow (f : Filter) (b : Bpp) (body : State → State) (s : State) : State :=
  let i0 := min s.n (b.toNat + alignDiff (s.p + b.toNat) 16)
  let s1 := scalar f b.toNat b.toNat i0 (scalar f b.toNat 0 b.toNat s)
  let s2 : State := { s1 with i := BitVec.ofNat 32 i0 }
  let s3 := if i0 < s.n then body s2 else s2
  scalar f b.toNat s3.i.toNat s.n s3

/-- The register pair of left neighbours from the finished lanes and the carry (R216, R239): wide lanes shifted up by
`bpp`, the carry entering at the bottom. -/
def shiftPair (b : Bpp) (ol oh cw : V128) : V128 × V128 :=
  if b.toNat < 8 then
    (vaddw (vslldq ol (2 * b.toNat)) cw, vaddw (vslldq oh (2 * b.toNat)) (vsrldq ol (16 - 2 * b.toNat)))
  else (cw, ol)

/-- `S = ceil(16 / bpp)`, the stages of a 16-byte block (R216, R239). -/
def stageCount (b : Bpp) : Nat := (16 + b.toNat - 1) / b.toNat

/-- `count` stages over the register pair `(OL, OH)`, starting from ZERO (R216, R239): a stage maps the pair of left
neighbours to the new pair. -/
def stages (b : Bpp) (cw : V128) (stage : V128 × V128 → V128 × V128) : Nat → V128 × V128
  | 0 => (zeroV, zeroV)
  | k + 1 => stage (shiftPair b (stages b cw stage k).1 (stages b cw stage k).2 cw)

end Sys2Proof.Machine
end

