-- ==== Sys2Proof/Machine/AvgRow.lean ====
section
/-! DEFINITION. The AVG rows: the scalar loops (R124), the semi-scalar path (R212), the scalar fallbacks (R213, R214)
and the 16-byte blocks (R215 to R219). -/

namespace Sys2Proof.Machine

/-- AVG: the prologue "`p[i] += u[i] >> 1`" and the loop "`p[i] += avg(p[i − bpp], u[i])`" (R124). -/
def avgLoop (bpp : Nat) (s : State) : State :=
  forRange bpp s.n (fun i s => s.addPayload i (avg (s.payload (i - bpp)).toNat (s.above i).toNat))
    (forRange 0 bpp (fun i s => s.addPayload i ((s.above i).toNat >>> 1)) s)

/-- One step of the scalar walk of R212: `T0 <- ((T0 + T.w[k]) >> 1) & 0xFF; p[I + k] <- T0`. -/
def avgWalk (t : V128) (base k : Nat) (s : State) : State :=
  let t0 := ((s.t0.toNat + (lane16 t k).toNat) >>> 1) &&& 0xFF
  { s.setPayload (base + k) t0 with t0 := BitVec.ofNat 32 t0 }

/-- One 8-byte block of AVG at one byte per pixel (R212). -/
def avgBlock8 (s : State) : State :=
  let i := s.i.toNat
  let x := vunpklbw (vld8 s.mem (s.p + i)) zeroV
  let t := vaddw (vaddw x x) (vunpklbw (s.uvec8 i) zeroV)
  forUp (avgWalk t i) 0 8 s

/-- One turn of the block loop: the block, then C and CW at the last reconstructed byte, as they are "updated by every
block" and hold `p[I − bpp .. I]` (R38; log 28). -/
def avgTurn8 (s : State) : State := (avgBlock8 s).seedCarry .b1

/-- `BODY[AVG, 1]`: the carry seed (R185) and `T0 <- p[I − 1]`, "the carry of rule R185 as a scalar", then 8-byte blocks
(R184, R212). -/
def avgBody1 (s : State) : State :=
  if 8 ≤ s.n - s.i.toNat then
    blocks 8 avgTurn8 { s.seedCarry .b1 with t0 := (s.payload (s.i.toNat - 1)).setWidth 32 }
  else s

/-- One register of an AVG stage from raw bytes, bytes above and left neighbours: form T for four bytes per pixel
(R217), form U for six and eight (R218, R219); the two are equal (R210). -/
def avgLanes (b : Bpp) (x above left : V128) : V128 :=
  match b with
  | .b4 => vand (vsrlw (vaddw (vaddw (vaddw x x) above) left) 1) m00FF
  | .b1 | .b2 | .b3 | .b6 | .b8 => vand (vaddw x (vsrlw (vaddw above left) 1)) m00FF

/-- The final register pair of a 16-byte AVG block (R216). -/
def avgOut (b : Bpp) (xb bb cw : V128) : V128 × V128 :=
  stages b cw
    (fun left =>
      (avgLanes b (vunpklbw xb zeroV) (vunpklbw bb zeroV) left.1,
        avgLanes b (vunpkhbw xb zeroV) (vunpkhbw bb zeroV) left.2))
    (stageCount b)

/-- One 16-byte AVG block (R215, R216); both forms of the carry are updated (R38; log 28). -/
def avgBlock16 (b : Bpp) (s : State) : State :=
  let i := s.i.toNat
  let o := avgOut b (vld16a s.mem (s.p + i)) (s.uvec16 i) s.cw
  { (s.bumpIndex 16).setCarryWide (vsrldq o.2 (16 - 2 * b.toNat)) with
    mem := vst16a s.mem (s.p + i) (vpackuswb o.1 o.2) }

/-- `BODY[AVG, bpp]` for 4, 6, 8 bytes per pixel: the carry seed, then 16-byte blocks (R184, R185). -/
def avgBody16 (b : Bpp) (s : State) : State :=
  if 16 ≤ s.n - s.i.toNat then blocks 16 (avgBlock16 b) (s.seedCarry b) else s

/-- An AVG row of the SIMD kernel at one byte per pixel (R212). -/
def avgRow1 (s : State) : State :=
  (simdRow .avg .b1 avgBody1 s).dropIndex.dropVectors.dropRunning.dropCarry

/-- An AVG row of the SIMD kernel without a vector body: "fall back to scalar" (R213, R214). -/
def avgRowScalar (b : Bpp) (s : State) : State := (simdRow .avg b id s).dropIndex

/-- An AVG row of the SIMD kernel at 4, 6, 8 bytes per pixel (R217, R218, R219). -/
def avgRow16 (b : Bpp) (s : State) : State := (simdRow .avg b (avgBody16 b) s).dropIndex.dropVectors.dropCarry

/-- AVG (R124). -/
def execAvg (s : State) : Host.Outcome State Fault Refusal :=
  runRow .avg (fun s => (avgLoop s.bpp.toNat s).dropIndex) s

/-- AVG.V1 (R212). -/
def execAvgV1 (s : State) : Host.Outcome State Fault Refusal := runSpecial .avg .b1 avgRow1 s

/-- AVG.V2 (R213). -/
def execAvgV2 (s : State) : Host.Outcome State Fault Refusal := runSpecial .avg .b2 (avgRowScalar .b2) s

/-- AVG.V3 (R214). -/
def execAvgV3 (s : State) : Host.Outcome State Fault Refusal := runSpecial .avg .b3 (avgRowScalar .b3) s

/-- AVG.V4 (R217). -/
def execAvgV4 (s : State) : Host.Outcome State Fault Refusal := runSpecial .avg .b4 (avgRow16 .b4) s

/-- AVG.V6 (R218). -/
def execAvgV6 (s : State) : Host.Outcome State Fault Refusal := runSpecial .avg .b6 (avgRow16 .b6) s

/-- AVG.V8 (R219). -/
def execAvgV8 (s : State) : Host.Outcome State Fault Refusal := runSpecial .avg .b8 (avgRow16 .b8) s

end Sys2Proof.Machine
end

