-- ==== Sys2Proof/Machine/NoneRow.lean ====
section
/-! DEFINITION. The NONE rows: "no operation" (R121, R202). Only the cursor advances. -/

namespace Sys2Proof.Machine

/-- NONE (R121). -/
def execNone (s : State) : Host.Outcome State Fault Refusal := runRow .none id s

/-- NONE.V1 (R202): a row with FT = 0 is not cut and not touched. -/
def execNoneV1 (s : State) : Host.Outcome State Fault Refusal := runSpecial .none .b1 id s

/-- NONE.V2 (R202). -/
def execNoneV2 (s : State) : Host.Outcome State Fault Refusal := runSpecial .none .b2 id s

/-- NONE.V3 (R202). -/
def execNoneV3 (s : State) : Host.Outcome State Fault Refusal := runSpecial .none .b3 id s

/-- NONE.V4 (R202). -/
def execNoneV4 (s : State) : Host.Outcome State Fault Refusal := runSpecial .none .b4 id s

/-- NONE.V6 (R202). -/
def execNoneV6 (s : State) : Host.Outcome State Fault Refusal := runSpecial .none .b6 id s

/-- NONE.V8 (R202). -/
def execNoneV8 (s : State) : Host.Outcome State Fault Refusal := runSpecial .none .b8 id s

end Sys2Proof.Machine
end

