-- ==== Sys2Proof/Machine/PaethRow.lean ====
section
/-! DEFINITION. The PAETH rows: the scalar loops (R125), the rolling words (R232), the scalar fallback (R233), the
8-byte blocks (R235) and the 16-byte blocks (R234, R236 to R239). -/

namespace Sys2Proof.Machine

/-- PAETH: the prologue "`p[i] += u[i]`" and the loop "`p[i] += paeth(p[i − bpp], u[i], u[i − bpp])`" (R125), with
`paeth_ref` (R107). -/
def paethLoop (bpp : Nat) (s : State) : State :=
  forRange bpp s.n
    (fun i s => s.addPayload i (paethRef (s.payload (i - bpp)).toNat (s.above i).toNat (s.above (i - bpp)).toNat))
    (forRange 0 bpp (fun i s => s.addPayload i (s.above i).toNat) s)

/-- One step with the rolling words (R232); `paeth` is the branch-free form (R107, log 20). -/
def paethRoll (i : Nat) (s : State) : State :=
  let ub := (s.above i).toNat
  let pz := sumMod256 (s.payload i).toNat (paethOpt s.pz.toNat ub s.uz.toNat)
  { s.setPayload i pz with pz := BitVec.ofNat 32 pz, uz := BitVec.ofNat 32 ub }

/-- `BODY[PAETH, 1]`: the rolling words seeded from `p[I − 1]` and `u[I − 1]`, then every byte to the end of the row
(R232). -/
def paethBody1 (s : State) : State :=
  forRange s.i.toNat s.n paethRoll
    { s with pz := (s.payload (s.i.toNat - 1)).setWidth 32, uz := (s.above (s.i.toNat - 1)).setWidth 32 }

/-- One register of a PAETH stage from raw bytes, bytes above, bytes above-left and left neighbours (R239). -/
def paethLanes (x above aboveLeft left : V128) : V128 := vand (vaddw x (paeth16 left above aboveLeft)) m00FF

/-- The final register of an 8-byte PAETH block at three bytes per pixel (R235, R239 with one register). -/
def paethOut3 (xl bl cl cw : V128) : Nat → V128
  | 0 => zeroV
  | k + 1 => paethLanes xl bl cl (vaddw (vslldq (paethOut3 xl bl cl cw k) 6) cw)

/-- One 8-byte PAETH block at three bytes per pixel (R235); both forms of the carry are updated (R38; log 28). -/
def paethBlock8 (s : State) : State :=
  let i := s.i.toNat
  let o := paethOut3 (vunpklbw (vld8 s.mem (s.p + i)) zeroV) (vunpklbw (s.uvec8 i) zeroV)
    (vunpklbw (s.uvec8 (i - 3)) zeroV) s.cw 3
  { (s.bumpIndex 8).setCarryWide (vsrldq o 10) with mem := vst8 s.mem (s.p + i) (vpackuswb o o) }

/-- `BODY[PAETH, 3]`: the carry seed, then 8-byte blocks (R184, R185, R235). -/
def paethBody8 (s : State) : State :=
  if 8 ≤ s.n - s.i.toNat then blocks 8 paethBlock8 (s.seedCarry .b3) else s

/-- The final register pair of a 16-byte PAETH block (R239). -/
def paethOut (b : Bpp) (xb bb cb cw : V128) : V128 × V128 :=
  stages b cw
    (fun left =>
      (paethLanes (vunpklbw xb zeroV) (vunpklbw bb zeroV) (vunpklbw cb zeroV) left.1,
        paethLanes (vunpkhbw xb zeroV) (vunpkhbw bb zeroV) (vunpkhbw cb zeroV) left.2))
    (stageCount b)

/-- One 16-byte PAETH block (R234, R239); both forms of the carry are updated (R38; log 28). -/
def paethBlock16 (b : Bpp) (s : State) : State :=
  let i := s.i.toNat
  let o := paethOut b (vld16a s.mem (s.p + i)) (s.uvec16 i) (s.uvec16 (i - b.toNat)) s.cw
  { (s.bumpIndex 16).setCarryWide (vsrldq o.2 (16 - 2 * b.toNat)) with
    mem := vst16a s.mem (s.p + i) (vpackuswb o.1 o.2) }

/-- `BODY[PAETH, bpp]` for 4, 6, 8 bytes per pixel: the carry seed, then 16-byte blocks (R184, R185). -/
def paethBody16 (b : Bpp) (s : State) : State :=
  if 16 ≤ s.n - s.i.toNat then blocks 16 (paethBlock16 b) (s.seedCarry b) else s

/-- A PAETH row of the SIMD kernel at one byte per pixel (R232). -/
def paethRow1 (s : State) : State := (simdRow .paeth .b1 paethBody1 s).dropIndex.dropRolling

/-- A PAETH row of the SIMD kernel at two bytes per pixel: scalar (R233). -/
def paethRow2 (s : State) : State := (simdRow .paeth .b2 id s).dropIndex

/-- A PAETH row of the SIMD kernel at three bytes per pixel (R235). -/
def paethRow3 (s : State) : State := (simdRow .paeth .b3 paethBody8 s).dropIndex.dropVectors.dropCarry

/-- A PAETH row of the SIMD kernel at 4, 6, 8 bytes per pixel (R236, R237, R238). -/
def paethRow16 (b : Bpp) (s : State) : State := (simdRow .paeth b (paethBody16 b) s).dropIndex.dropVectors.dropCarry

/-- PAETH (R125). -/
def execPaeth (s : State) : Host.Outcome State Fault Refusal :=
  runRow .paeth (fun s => (paethLoop s.bpp.toNat s).dropIndex) s

/-- PAETH.V1 (R232). -/
def execPaethV1 (s : State) : Host.Outcome State Fault Refusal := runSpecial .paeth .b1 paethRow1 s

/-- PAETH.V2 (R233). -/
def execPaethV2 (s : State) : Host.Outcome State Fault Refusal := runSpecial .paeth .b2 paethRow2 s

/-- PAETH.V3 (R235). -/
def execPaethV3 (s : State) : Host.Outcome State Fault Refusal := runSpecial .paeth .b3 paethRow3 s

/-- PAETH.V4 (R236). -/
def execPaethV4 (s : State) : Host.Outcome State Fault Refusal := runSpecial .paeth .b4 (paethRow16 .b4) s

/-- PAETH.V6 (R237). -/
def execPaethV6 (s : State) : Host.Outcome State Fault Refusal := runSpecial .paeth .b6 (paethRow16 .b6) s

/-- PAETH.V8 (R238). -/
def execPaethV8 (s : State) : Host.Outcome State Fault Refusal := runSpecial .paeth .b8 (paethRow16 .b8) s

end Sys2Proof.Machine
end

