-- ==== Sys2Proof/Machine/SubRow.lean ====
section
/-! DEFINITION. The SUB rows: the scalar loop (R122) and the vector prefix sum (R188 to R198). -/

namespace Sys2Proof.Machine

/-- SUB: "for i in `bpp..n`: `p[i] += p[i − bpp]`" (R122). -/
def subLoop (bpp : Nat) (s : State) : State :=
  forRange bpp s.n (fun i s => s.addPayload i (s.payload (i - bpp)).toNat) s

/-- The shift schedule `SCHED[bpp]` (R190). -/
def sched : Bpp → List Nat
  | .b1 => [1, 2, 4, 8]
  | .b2 => [2, 4, 8]
  | .b3 => [3, 6, 12]
  | .b4 => [4, 8]
  | .b6 => [6, 12]
  | .b8 => [8]

/-- The log-step schedule applied to a register (R189). -/
def prefixSum (b : Bpp) (x : V128) : V128 := (sched b).foldl sllAddb1x x

/-- The carry broadcast `REP(C)`, realisation (a) of R191 (log 19). -/
def rep (b : Bpp) (c : V128) : V128 := prefixSum b c

/-- The carry broadcast from the previous block's output, realisation (b) of R191, for the power-of-two cases. -/
def repShuffle (b : Bpp) (prev : V128) : Option V128 :=
  match b with
  | .b1 =>
    let t := vsrldq prev 15
    some (vshufd (vshuflw (vunpklbw t t) 0x00#8) 0x00#8)
  | .b2 => some (vshufd (vshufhw prev 0xFF#8) 0xFF#8)
  | .b4 => some (vshufd prev 0xFF#8)
  | .b8 => some (vshufd prev 0xEE#8)
  | .b3 | .b6 => none

/-- The bytes of a 16-byte SUB block from its raw bytes and the carry (R189). -/
def subOut (b : Bpp) (x c : V128) : V128 := vaddb (prefixSum b x) (rep b c)

/-- One 16-byte SUB block (R188, R189); both forms of the carry are updated (R38; log 28). -/
def subBlock16 (b : Bpp) (s : State) : State :=
  let out := subOut b (vld16a s.mem (s.p + s.i.toNat)) s.c
  { (s.bumpIndex 16).setCarry (vsrldq out (16 - b.toNat)) with mem := vst16a s.mem (s.p + s.i.toNat) out }

/-- One 64-byte SUB block: "four consecutive applications of rule R188" (R192, log 24). -/
def subBlock64 (b : Bpp) (s : State) : State := repeatN (subBlock16 b) 4 s

/-- `BODY[SUB, bpp]`: the carry seed, 64-byte blocks, then 16-byte blocks (R184, R185). -/
def subBody (b : Bpp) (s : State) : State :=
  if 16 ≤ s.n - s.i.toNat then blocks 16 (subBlock16 b) (blocks 64 (subBlock64 b) (s.seedCarry b)) else s

/-- A SUB row of the SIMD kernel (R181). -/
def subRow (b : Bpp) (s : State) : State := (simdRow .sub b (subBody b) s).dropIndex.dropVectors.dropCarry

/-- SUB (R122). -/
def execSub (s : State) : Host.Outcome State Fault Refusal :=
  runRow .sub (fun s => (subLoop s.bpp.toNat s).dropIndex) s

/-- SUB.V1 (R193). -/
def execSubV1 (s : State) : Host.Outcome State Fault Refusal := runSpecial .sub .b1 (subRow .b1) s

/-- SUB.V2 (R194). -/
def execSubV2 (s : State) : Host.Outcome State Fault Refusal := runSpecial .sub .b2 (subRow .b2) s

/-- SUB.V3 (R195). -/
def execSubV3 (s : State) : Host.Outcome State Fault Refusal := runSpecial .sub .b3 (subRow .b3) s

/-- SUB.V4 (R196). -/
def execSubV4 (s : State) : Host.Outcome State Fault Refusal := runSpecial .sub .b4 (subRow .b4) s

/-- SUB.V6 (R197). -/
def execSubV6 (s : State) : Host.Outcome State Fault Refusal := runSpecial .sub .b6 (subRow .b6) s

/-- SUB.V8 (R198). -/
def execSubV8 (s : State) : Host.Outcome State Fault Refusal := runSpecial .sub .b8 (subRow .b8) s

end Sys2Proof.Machine
end

