-- ==== Sys2Proof/Machine/UpRow.lean ====
section
/-! DEFINITION. The UP rows: the scalar loop (R123) and the byte-add blocks (R199 to R201). -/

namespace Sys2Proof.Machine

/-- UP: "for i in `0..n`: `p[i] += u[i]`" (R123). -/
def upLoop (s : State) : State :=
  forRange 0 s.n (fun i s => s.addPayload i (s.above i).toNat) s

/-- Sixteen bytes of a 64-byte UP block, at payload index `I + 16·r` (R199). -/
def upStore16 (r : Nat) (s : State) : State :=
  let i := s.i.toNat + 16 * r
  { s with mem := vst16a s.mem (s.p + i) (vaddb (vld16a s.mem (s.p + i)) (s.uvec16 i)) }

/-- One 64-byte UP block (R199); the order of its four registers is free (log 24). -/
def upBlock64 (s : State) : State := (upStore16 3 (upStore16 2 (upStore16 1 (upStore16 0 s)))).bumpIndex 64

/-- One 8-byte UP step (R200). -/
def upBlock8 (s : State) : State :=
  let i := s.i.toNat
  { s.bumpIndex 8 with mem := vst8 s.mem (s.p + i) (vaddb (vld8 s.mem (s.p + i)) (s.uvec8 i)) }

/-- `BODY[UP, bpp]`, the same for every bpp: 64-byte blocks, then 8-byte steps (R184, R201). -/
def upBody (s : State) : State := blocks 8 upBlock8 (blocks 64 upBlock64 s)

/-- An UP row of the SIMD kernel (R181, R201). -/
def upRow (b : Bpp) (s : State) : State := (simdRow .up b upBody s).dropIndex.dropVectors

/-- UP (R123). -/
def execUp (s : State) : Host.Outcome State Fault Refusal :=
  runRow .up (fun s => (upLoop s).dropIndex) s

/-- UP.V1 (R201). -/
def execUpV1 (s : State) : Host.Outcome State Fault Refusal := runSpecial .up .b1 (upRow .b1) s

/-- UP.V2 (R201). -/
def execUpV2 (s : State) : Host.Outcome State Fault Refusal := runSpecial .up .b2 (upRow .b2) s

/-- UP.V3 (R201). -/
def execUpV3 (s : State) : Host.Outcome State Fault Refusal := runSpecial .up .b3 (upRow .b3) s

/-- UP.V4 (R201). -/
def execUpV4 (s : State) : Host.Outcome State Fault Refusal := runSpecial .up .b4 (upRow .b4) s

/-- UP.V6 (R201). -/
def execUpV6 (s : State) : Host.Outcome State Fault Refusal := runSpecial .up .b6 (upRow .b6) s

/-- UP.V8 (R201). -/
def execUpV8 (s : State) : Host.Outcome State Fault Refusal := runSpecial .up .b8 (upRow .b8) s

end Sys2Proof.Machine
end

