-- ==== Sys2Proof/Machine/Dispatch.lean ====
section
/-! DEFINITION. One arm per row instruction: what it does. -/

namespace Sys2Proof.Machine

def exec (i : Instr) (s : State) : Host.Outcome State Fault Refusal :=
  match i with
  | .none => Sys2Proof.Machine.execNone s
  | .sub => Sys2Proof.Machine.execSub s
  | .up => Sys2Proof.Machine.execUp s
  | .avg => Sys2Proof.Machine.execAvg s
  | .paeth => Sys2Proof.Machine.execPaeth s
  | .noneV1 => Sys2Proof.Machine.execNoneV1 s
  | .noneV2 => Sys2Proof.Machine.execNoneV2 s
  | .noneV3 => Sys2Proof.Machine.execNoneV3 s
  | .noneV4 => Sys2Proof.Machine.execNoneV4 s
  | .noneV6 => Sys2Proof.Machine.execNoneV6 s
  | .noneV8 => Sys2Proof.Machine.execNoneV8 s
  | .subV1 => Sys2Proof.Machine.execSubV1 s
  | .subV2 => Sys2Proof.Machine.execSubV2 s
  | .subV3 => Sys2Proof.Machine.execSubV3 s
  | .subV4 => Sys2Proof.Machine.execSubV4 s
  | .subV6 => Sys2Proof.Machine.execSubV6 s
  | .subV8 => Sys2Proof.Machine.execSubV8 s
  | .upV1 => Sys2Proof.Machine.execUpV1 s
  | .upV2 => Sys2Proof.Machine.execUpV2 s
  | .upV3 => Sys2Proof.Machine.execUpV3 s
  | .upV4 => Sys2Proof.Machine.execUpV4 s
  | .upV6 => Sys2Proof.Machine.execUpV6 s
  | .upV8 => Sys2Proof.Machine.execUpV8 s
  | .avgV1 => Sys2Proof.Machine.execAvgV1 s
  | .avgV2 => Sys2Proof.Machine.execAvgV2 s
  | .avgV3 => Sys2Proof.Machine.execAvgV3 s
  | .avgV4 => Sys2Proof.Machine.execAvgV4 s
  | .avgV6 => Sys2Proof.Machine.execAvgV6 s
  | .avgV8 => Sys2Proof.Machine.execAvgV8 s
  | .paethV1 => Sys2Proof.Machine.execPaethV1 s
  | .paethV2 => Sys2Proof.Machine.execPaethV2 s
  | .paethV3 => Sys2Proof.Machine.execPaethV3 s
  | .paethV4 => Sys2Proof.Machine.execPaethV4 s
  | .paethV6 => Sys2Proof.Machine.execPaethV6 s
  | .paethV8 => Sys2Proof.Machine.execPaethV8 s

end Sys2Proof.Machine
end

