-- ==== Sys2Proof/Machine/HostMoves.lean ====
section
/-! DEFINITION. The moves of the host: register reads and writes, memory reads and writes, reset (R21, R250, R258, R290). -/

namespace Sys2Proof.Machine

/-- The STATUS code (R34). -/
def Status.code : Status → Nat
  | .idle => 0
  | .busy => 1
  | .done => 2
  | .fault => 3

/-- The address is a byte of the image buffer `BUF .. BUF + H·BPL` (R50). -/
def State.inBuffer (s : State) (a : Nat) : Bool :=
  decide (s.buf ≤ a) && decide (a < s.buf + s.h.toNat * s.bpl.toNat)

/-- A write of a register (R21, R33, R258). -/
def hostWrite (r : HostReg) (x : Nat) (s : State) : Host.Outcome State Fault Refusal :=
  if s.status = .busy then .refused .hostMoveWhileBusy
  else
    match r with
    | .buf =>
      if x < 2 ^ s.addrW then .next { s with buf := x, written := { s.written with buf := true } }
      else .refused .valueTooWide
    | .h =>
      if x < 2 ^ 32 then .next { s with h := BitVec.ofNat 32 x, written := { s.written with h := true } }
      else .refused .valueTooWide
    | .bpp =>
      if x < 2 ^ 32 then .next { s with bpp := BitVec.ofNat 32 x, written := { s.written with bpp := true } }
      else .refused .valueTooWide
    | .bpl =>
      if x < 2 ^ 32 then .next { s with bpl := BitVec.ofNat 32 x, written := { s.written with bpl := true } }
      else .refused .valueTooWide
    | .ksel =>
      if x < 4 then .next { s with ksel := BitVec.ofNat 2 x, written := { s.written with ksel := true } }
      else .refused .valueTooWide
    | .ctrl => if x = 0 then .next s else if x = 1 then s.start else .refused .reservedCtrlBits
    | .status | .fcause | .frow | .fbyte => .refused .readOnlyRegister

/-- What a read returns from a register that holds no value: any value of the register's width (U9, log 6). -/
def freeRead (width : Nat) (s : State) : Nat := (Config.freeValue width .hostRead s.fresh).toNat

/-- What a read of a register returns. -/
def regValue (r : HostReg) (s : State) : Nat :=
  match r with
  | .buf => if s.written.buf then s.buf else freeRead s.addrW s
  | .h => if s.written.h then s.h.toNat else freeRead 32 s
  | .bpp => if s.written.bpp then s.bpp.toNat else freeRead 32 s
  | .bpl => if s.written.bpl then s.bpl.toNat else freeRead 32 s
  | .ksel => if s.written.ksel then s.ksel.toNat else freeRead 2 s
  | .ctrl => freeRead 1 s
  | .status => s.status.code
  | .fcause => if s.status = .fault then s.fcause.toNat else freeRead 8 s
  | .frow => if s.status = .fault then s.frow.toNat else freeRead 32 s
  | .fbyte => if s.status = .fault then s.fbyte.toNat else freeRead 8 s

/-- The parameter registers, which the host may read "when not BUSY" alone (R21). -/
def HostReg.isParameter : HostReg → Bool
  | .buf | .h | .bpp | .bpl | .ksel => true
  | .ctrl | .status | .fcause | .frow | .fbyte => false

/-- A read of a register (R21, R33, R35, R258, U9). -/
def hostRead (r : HostReg) (s : State) : Host.Outcome State Fault Refusal :=
  if r.isParameter && s.status == .busy then .refused .hostMoveWhileBusy
  else .next { s with readData := regValue r s, fresh := s.fresh + 1 }

/-- A host access to a byte of memory: while BUSY it must not touch the buffer (R60, U3). -/
def hostMem (a : Nat) (s t : State) : Host.Outcome State Fault Refusal :=
  if s.status == .busy && s.inBuffer a then .refused .hostMoveWhileBusy
  else
    match s.accessFault a 1 with
    | some e => .fault e
    | none => .next t

/-- One move of the host. -/
def hostMove (m : HostMove) (s : State) : Host.Outcome State Fault Refusal :=
  match m with
  | .writeReg r x => hostWrite r x s
  | .readReg r => hostRead r s
  | .writeMem a b => hostMem a s { s with mem := s.mem.write a b }
  | .readMem a => hostMem a s { s with readData := (s.mem.read a).toNat }
  | .reset => .next s.resetMove

end Sys2Proof.Machine
end

