-- ==== Sys2Proof/Machine/Engine.lean ====
section
/-! DEFINITION. The engine's step: the opcode fetch, the decoding in the mode KSEL and BPP select, the row or the
FORMAT fault (R120); and the order of engine and host. -/

namespace Sys2Proof.Machine

/-- Why the filter byte of the current row, at `P − 1` (R27), cannot be read, if so. -/
def State.fetchFault (s : State) : Option Fault :=
  if s.p = 0 then some .outsideAddressSpace else s.accessFault (s.p - 1) 1

/-- The opcode fetch `FT <- MemRead(P − 1, 1)` (R120): read once, before any write to the row (R63). -/
def State.fetch (s : State) : State := { s with ft := s.mem.read (s.p - 1) }

/-- The row with its filter byte in FT, in a mode (R120): the instruction, or FORMAT on a reserved byte (R271). -/
def runFetched (m : Mode) (s : State) : Host.Outcome State Fault Refusal :=
  match decodeOpcode m s.ft with
  | .ok i => exec i s
  | .error _ => .next s.raiseFormat

/-- The precondition KSEL or BPP violates when they select no mode (P1, P6 of R252). -/
def State.modeViolation (s : State) : Precondition :=
  if (Bpp.ofNat? s.bpp.toNat).isNone then .p1 else .p6

/-- One row instruction of a running invocation. -/
def busyStep (s : State) : Host.Outcome State Fault Refusal :=
  match s.mode with
  | none => .refused (.precondition s.modeViolation)
  | some m =>
    match s.fetchFault with
    | some e => .fault e
    | none => runFetched m s.fetch

/-- One step of the engine: a row while BUSY; nothing while stopped (R286, R291; log 25). -/
def engineStep (s : State) : Host.Outcome State Fault Refusal :=
  match s.status with
  | .busy => busyStep s
  | .idle | .done | .fault => .next s

/-- The host's next move comes one engine step nearer. -/
def tick : List HostInput → List HostInput
  | [] => []
  | x :: rest => ⟨x.after - 1, x.move⟩ :: rest

/-- An engine step passes for the host. -/
def State.tick (s : State) : State := { s with inputs := Sys2Proof.Machine.tick s.inputs }

/-- Engine or host: a host move that is due lands, else the engine steps and the next move comes one step nearer
(log 8). -/
def stepAll (s : State) : Host.Outcome State Fault Refusal :=
  match s.inputs with
  | ⟨0, m⟩ :: rest => hostMove m { s with inputs := rest }
  | [] | ⟨_ + 1, _⟩ :: _ => engineStep s.tick

end Sys2Proof.Machine
end

