-- ==== Sys2Proof/Machine/Step.lean ====
section
/-! DEFINITION. One step of the machine, and the state whose next step runs a given opcode-table word. -/

namespace Sys2Proof.Machine

/-- One step of the machine. -/
def step (s : State) : Host.Outcome State Fault Refusal := stepAll s

/-- `s` about to run the row an opcode-table word stands for (log 18): the row's bytes at address 0, and a running
invocation of one row there with KSEL = REF and one byte per pixel, ordinary memory everywhere, no host move before
it. -/
def State.withFetchWord (s : State) (nbits w : Nat) : State :=
  let bytes := tableBytes nbits w
  { s with
    holes := []
    buf := 0
    h := 1#32
    bpp := 1#32
    bpl := BitVec.ofNat 32 bytes.length
    ksel := tableMode.kernel.toBits
    written := ⟨true, true, true, true, true⟩
    status := .busy
    y := 0#32
    p := 1
    mem := s.mem.writeBytes 0 (fun k => bytes.getD k 0#8) bytes.length
    inputs := [] }

end Sys2Proof.Machine
end

