-- ==== Sys2Proof/Safety.lean ====
section
/-! DEFINITION. What counts as a good state and as a safe run, in the terms the statements use. -/

namespace Sys2Proof.Machine

/-- The row of R252's table holds of the parameter registers and the system's memory: each in the table's own words. -/
def State.meets (s : State) : Precondition → Prop
  | .p1 => s.bpp.toNat = 1 ∨ s.bpp.toNat = 2 ∨ s.bpp.toNat = 3 ∨ s.bpp.toNat = 4 ∨ s.bpp.toNat = 6 ∨ s.bpp.toNat = 8
  | .p2 => s.bpp.toNat + 1 ≤ s.bpl.toNat ∧ (s.bpl.toNat - 1) % s.bpp.toNat = 0
  | .p3 => 1 ≤ s.h.toNat
  | .p4 => ∀ a, s.buf ≤ a → a < s.buf + s.h.toNat * s.bpl.toNat → ∀ r ∈ s.holes, ¬(r.base ≤ a ∧ a < r.base + r.size)
  | .p5 => s.buf + s.h.toNat * s.bpl.toNat ≤ 2 ^ s.addrW
  | .p6 => s.ksel = 0 ∨ s.ksel = 1 ∨ s.ksel = 2
  | .p7 => s.written = ⟨true, true, true, true, true⟩

/-- A running invocation between two rows: the parameters meet R252, the cursor stands at row `Y` (R26 to R28). -/
structure State.Running (s : State) : Prop where
  busy : s.status = .busy
  written : s.written.all = true
  wf : s.invocation.wf s.addrW s.holes
  row : s.y.toNat < s.h.toNat
  cursor : s.p = s.buf + s.y.toNat * s.bpl.toNat + 1
  above : s.y ≠ 0#32 → s.u = s.buf + (s.y.toNat - 1) * s.bpl.toNat + 1

/-- The invariant of the machine: memory in canonical form and inside the address space, address registers of
`ADDR_W` bits, a running invocation well set up, a fault record that is one of FORMAT (R270). -/
structure State.Inv (s : State) : Prop where
  memWf : s.mem.wf
  memBelow : ∀ x ∈ s.mem, x.1 < 2 ^ s.addrW
  bufBelow : s.buf < 2 ^ s.addrW
  cursorBelow : s.p < 2 ^ s.addrW
  aboveBelow : s.u < 2 ^ s.addrW
  running : s.status = .busy → s.Running
  faultRecord : s.status = .fault → s.fcause = 1#8 ∧ 5 ≤ s.fbyte.toNat

/-- The row at the cursor can be executed as the rules say: its parameters have a meaning (R252 P1, P2), it and the
previous row are ordinary memory of the address space (P4, P5), the previous row's payload lies below the current row's (R66), and memory
is in canonical form. Every running invocation of the invariant has this. -/
structure State.RowReady (s : State) (f : Filter) : Prop where
  memWf : s.mem.wf
  geometry : s.geometry? = none
  footprint : s.footprintFault f = none
  apart : s.y = 0#32 ∨ s.u + s.n ≤ s.p

/-- The state no row instruction writes: the system's memory map, the parameters (R44), the fault record (R274), the latch FT (R29), and the
model's own record of the host. -/
structure RowFrame (s t : State) : Prop where
  addrW : t.addrW = s.addrW
  holes : t.holes = s.holes
  buf : t.buf = s.buf
  h : t.h = s.h
  bpp : t.bpp = s.bpp
  bpl : t.bpl = s.bpl
  ksel : t.ksel = s.ksel
  written : t.written = s.written
  fcause : t.fcause = s.fcause
  frow : t.frow = s.frow
  fbyte : t.fbyte = s.fbyte
  ft : t.ft = s.ft
  inputs : t.inputs = s.inputs
  readData : t.readData = s.readData

/-- The row cursor after a row instruction (R131), where the next row's payload start fits in an address register, and
the end test (R132). -/
structure CursorAdvanced (s t : State) : Prop where
  u : t.u = s.p
  p : s.p + s.bpl.toNat < 2 ^ s.addrW → t.p = s.p + s.bpl.toNat
  y : t.y = s.y + 1#32
  status : t.status = if s.y + 1#32 = s.h then .done else s.status

/-- The vector registers keep their values. -/
abbrev KeepsVectors (s t : State) : Prop := t.v = s.v

/-- The carries keep their values. -/
abbrev KeepsCarry (s t : State) : Prop := t.c = s.c ∧ t.cw = s.cw

/-- The rolling words keep their values. -/
abbrev KeepsRolling (s t : State) : Prop := t.pz = s.pz ∧ t.uz = s.uz

/-- The running value of Avg keeps its value. -/
abbrev KeepsRunning (s t : State) : Prop := t.t0 = s.t0

/-- The working registers keep their values, but for the payload index I. -/
abbrev KeepsWorking (s t : State) : Prop := KeepsVectors s t ∧ KeepsCarry s t ∧ KeepsRolling s t ∧ KeepsRunning s t

/-- Every byte outside the current row's payload reads as before. -/
def OutsidePayloadKept (s t : State) : Prop :=
  ∀ a : Nat, ¬(s.p ≤ a ∧ a < s.p + s.n) → t.mem.read a = s.mem.read a

/-- Every byte of memory reads as before. -/
def MemoryKept (s t : State) : Prop := ∀ a : Nat, t.mem.read a = s.mem.read a

/-- The unified form (R127): every payload byte of the row holds `RECON` of its raw value and its neighbourhood, the
left neighbour reconstructed, the previous row as it stands (R84). -/
def Reconstructed (f : Filter) (bpp : Nat) (s t : State) : Prop :=
  ∀ i < s.n, (t.mem.read (s.p + i)).toNat =
    recon f (s.payload i).toNat (if bpp ≤ i then (t.mem.read (s.p + (i - bpp))).toNat else 0) (s.above i).toNat
      (if bpp ≤ i then (s.above (i - bpp)).toNat else 0)

/-- The state runs the instruction: a base row in every mode, a specialization in its own mode (R89). -/
def State.RunsIn (s : State) (i : Instr) : Prop := ∀ b, i.bpp? = some b → s.mode = some ⟨.simd, b⟩

/-- The bytes of the row at the cursor, filter byte first (R80). -/
def State.rowBytes (s : State) : List Byte := (List.range s.bpl.toNat).map fun k => s.mem.read (s.p - 1 + k)

/-- No move of the host is due: the engine steps next (log 8). -/
def State.NoMoveDue (s : State) : Prop := ∀ v rest, s.inputs ≠ ⟨0, v⟩ :: rest

/-- A poll: a read of a register that is no parameter register, STATUS above all. It is the host's one move while BUSY
(R258). -/
def HostMove.IsPoll : HostMove → Prop
  | .readReg r => r.isParameter = false
  | .writeReg _ _ | .writeMem _ _ | .readMem _ | .reset => False

/-- Of the host's moves to come, only polls land within the engine's next `n` steps. -/
def OnlyPollsWithin : Nat → List HostInput → Prop
  | _, [] => True
  | n, x :: rest => n ≤ x.after ∨ (x.move.IsPoll ∧ OnlyPollsWithin (n - x.after) rest)

/-- The next byte of the payload is at an address that is a multiple of `m`. -/
abbrev State.AlignedTo (s : State) (m : Nat) : Prop := (s.p + s.i.toNat) % m = 0

/-- `block` where it is entered aligned to `m`, anything else where it is not: where a loop over it is the loop over
`block` whatever `other` is, every entry is aligned. -/
def alignedOnly (m : Nat) (block other : State → State) : State → State := fun s =>
  if s.AlignedTo m then block s else other s

/-- `k` steps of the machine, as far as they answer next states. -/
def runFor : Nat → State → Host.Outcome State Fault Refusal
  | 0, s => .next s
  | k + 1, s =>
    match runFor k s with
    | .next t => step t
    | .fault r => .fault r
    | .refused r => .refused r

/-! ### The image buffer (R51) -/

/-- The filter byte of row `y` of a buffer. -/
def filterAt (m : Memory) (buf bpl y : Nat) : Byte := m.read (buf + y * bpl)

/-- Payload byte `i` of row `y` of a buffer. -/
def pixelAt (m : Memory) (buf bpl y i : Nat) : Byte := m.read (buf + y * bpl + 1 + i)

/-- The address is a payload position of one of the first `rows` rows of a buffer. -/
def InPayload (buf bpl rows a : Nat) : Prop := ∃ y < rows, buf + y * bpl + 1 ≤ a ∧ a < buf + (y + 1) * bpl

/-- Row `y` of the buffer is reconstructed in `m'` from its raw bytes in `m`: every payload byte is `RECON` of its raw
value, the reconstructed left neighbour, and the reconstructed previous row, zero above row 0 (R84, R108, R127). -/
def RowDone (bpp buf bpl : Nat) (m m' : Memory) (y : Nat) : Prop :=
  ∃ f, Filter.ofByte? (filterAt m buf bpl y) = some f ∧
    ∀ i < bpl - 1, (pixelAt m' buf bpl y i).toNat =
      recon f (pixelAt m buf bpl y i).toNat
        (if bpp ≤ i then (pixelAt m' buf bpl y (i - bpp)).toNat else 0)
        (if y = 0 then 0 else (pixelAt m' buf bpl (y - 1) i).toNat)
        (if bpp ≤ i ∧ y ≠ 0 then (pixelAt m' buf bpl (y - 1) (i - bpp)).toNat else 0)

end Sys2Proof.Machine
end

