-- ==== Sys2Proof/Certificates/Slice0/Obligations.lean ====
section
/-! DEFINITION. The statements for the provers, each with the rule of spec/ it formalises. -/

section

open Sys2Proof.Machine

/-! ### Encoding and decoding (30_encoding.md) -/

/-- R80, R81, R83, R89: the bytes of a well-formed row, followed by anything, decode to that row and leave the rest:
every opcode, every payload byte, every row length, in every mode. -/
def Obligations.RowRoundTrip : Prop :=
  ∀ (m : Sys2Proof.Mode) (bpl : Nat) (r : Sys2Proof.Row) (rest : List Sys2Proof.Byte), r.wf m bpl = true →
    Sys2Proof.decode m bpl (Sys2Proof.encode r ++ rest) = .ok (r, rest)

/-- R80, R83: what decodes is well formed and is its own encoding: no byte string has two readings. -/
def Obligations.DecodedRowReencodes : Prop :=
  ∀ (m : Sys2Proof.Mode) (bpl : Nat) (bytes : List Sys2Proof.Byte) (r : Sys2Proof.Row) (rest : List Sys2Proof.Byte),
    Sys2Proof.decode m bpl bytes = .ok (r, rest) → r.wf m bpl = true ∧ Sys2Proof.encode r ++ rest = bytes

/-- R81, R87: the five opcode values select NONE, SUB, UP, AVG, PAETH; every value from 5 to 255 is refused by name,
with no masking of high bits. -/
def Obligations.OpcodeByteDecides : Prop :=
  ∀ (m : Sys2Proof.Mode) (b : Sys2Proof.Byte),
    (b = 0 → Sys2Proof.decodeOpcode m b = .ok (Sys2Proof.Instr.select m .none)) ∧
    (b = 1 → Sys2Proof.decodeOpcode m b = .ok (Sys2Proof.Instr.select m .sub)) ∧
    (b = 2 → Sys2Proof.decodeOpcode m b = .ok (Sys2Proof.Instr.select m .up)) ∧
    (b = 3 → Sys2Proof.decodeOpcode m b = .ok (Sys2Proof.Instr.select m .avg)) ∧
    (b = 4 → Sys2Proof.decodeOpcode m b = .ok (Sys2Proof.Instr.select m .paeth)) ∧
    (5 ≤ b.toNat → Sys2Proof.decodeOpcode m b = .error (.reservedOpcode b))

/-- R89: REF and OPT run the base rows at every bytes per pixel; SIMD runs the specialization of the filter and the
bytes per pixel, and different filters or bytes per pixel give different specializations. -/
def Obligations.ModeSelectsInstruction : Prop :=
  (∀ (m : Sys2Proof.Mode) (f : Sys2Proof.Filter), m.kernel ≠ .simd → Sys2Proof.Instr.select m f = Sys2Proof.Instr.base f) ∧
  (∀ (b : Sys2Proof.Bpp) (f : Sys2Proof.Filter),
    (Sys2Proof.Instr.select ⟨.simd, b⟩ f).filter = f ∧ (Sys2Proof.Instr.select ⟨.simd, b⟩ f).bpp? = some b) ∧
  (∀ (b b' : Sys2Proof.Bpp) (f f' : Sys2Proof.Filter),
    Sys2Proof.Instr.select ⟨.simd, b⟩ f = Sys2Proof.Instr.select ⟨.simd, b'⟩ f' → b = b' ∧ f = f')

/-- R81, R90: bytes written out from the spec decode to the row they stand for: S1 `[1, 10,20,30,40]` at one byte per
pixel, S2 `[2, 10,20, 30,40, 50,60]` at two, and `[4, 1,1,1, 1,1,1]` at three in the SIMD kernel. -/
def Obligations.SpecRowsDecode : Prop :=
  Sys2Proof.decode ⟨.ref, .b1⟩ 5 [0x01, 0x0A, 0x14, 0x1E, 0x28] = .ok (⟨.sub, [10, 20, 30, 40]⟩, []) ∧
  Sys2Proof.decode ⟨.opt, .b2⟩ 7 [0x02, 0x0A, 0x14, 0x1E, 0x28, 0x32, 0x3C] =
    .ok (⟨.up, [10, 20, 30, 40, 50, 60]⟩, []) ∧
  Sys2Proof.decode ⟨.simd, .b3⟩ 7 [0x04, 1, 1, 1, 1, 1, 1] = .ok (⟨.paethV3, [1, 1, 1, 1, 1, 1]⟩, []) ∧
  Sys2Proof.decode ⟨.ref, .b1⟩ 2 [0x81, 0] = .error (.reservedOpcode 0x81)

/-! ### The step (41_scalar_filters.md R120, 60_exceptions.md) -/

/-- R120: while BUSY, when the filter byte can be read and the bytes at the cursor decode in the mode KSEL and BPP select
to a row, the step is that row's instruction executed with its filter byte in FT. With a host move still to come the
same holds, and the move comes one step nearer (log 8). -/
def Obligations.StepRunsDecodedRow : Prop :=
  ∀ (s : State) (m : Sys2Proof.Mode) (r : Sys2Proof.Row) (rest : List Sys2Proof.Byte),
    s.status = .busy → s.NoMoveDue → s.mode = some m → s.fetchFault = none →
    Sys2Proof.decode m s.bpl.toNat s.rowBytes = .ok (r, rest) →
    step s = exec r.op { s with ft := s.mem.read (s.p - 1), inputs := tick s.inputs }

/-- R271, R274: a filter byte of 5 or more takes fault entry: FCAUSE 1, FROW the row index, FBYTE the byte, STATUS
FAULT, no byte of memory written, the parameters unchanged. That the engine's next step then changes nothing is the
model's choice (log 25), and that a host move to come comes one step nearer (log 8). -/
def Obligations.ReservedByteTakesFormatFault : Prop :=
  ∀ (s : State) (m : Sys2Proof.Mode), s.status = .busy → s.NoMoveDue → s.mode = some m → s.fetchFault = none →
    5 ≤ (s.mem.read (s.p - 1)).toNat →
    ∃ t, step s = .next t ∧
      t = { s with
        fcause := 1, frow := s.y, fbyte := s.mem.read (s.p - 1), ft := s.mem.read (s.p - 1), status := .fault,
        inputs := tick s.inputs } ∧
      (t.NoMoveDue → step t = .next { t with inputs := tick t.inputs })

/-- R34, R286 and log 25: an engine that is not BUSY keeps its whole state; a host move to come comes one step nearer
(log 8). -/
def Obligations.StoppedEngineKeepsState : Prop :=
  ∀ s : State, s.status ≠ .busy → s.NoMoveDue → step s = .next { s with inputs := tick s.inputs }

/-- R43, R291: right after reset STATUS is IDLE, no parameter register counts as written, and START is refused; that
memory lists nothing, that the whole space is ordinary memory and that no host move is to come is the model's choice
(logs 4, 5 and 8). -/
def Obligations.ResetLeavesIdle : Prop :=
  State.reset.status = .idle ∧ State.reset.written = ⟨false, false, false, false, false⟩ ∧
  State.reset.mem = [] ∧ State.reset.holes = [] ∧ State.reset.inputs = [] ∧
  hostMove (.writeReg .ctrl 1) State.reset = .refused (.precondition .p7)

/-- Log 8: a host move that is due lands before the engine steps. -/
def Obligations.DueHostMoveLands : Prop :=
  ∀ (s : State) (v : HostMove) (rest : List HostInput), s.inputs = ⟨0, v⟩ :: rest →
    step s = hostMove v { s with inputs := rest }

/-! ### The host (46_invocation.md, 70_reset_and_hazards.md) -/

/-- R251: START while not BUSY with the preconditions met begins the invocation: BUSY, Y 0, P at BUF + 1; U, the fault
record and the working registers hold whatever they hold, everything else is unchanged; the new invocation stands at
row 0. -/
def Obligations.StartBeginsInvocation : Prop :=
  ∀ s : State, s.status ≠ .busy → s.startViolation = none →
    ∃ t, hostMove (.writeReg .ctrl 1) s = .next t ∧
      t = { s with
        status := .busy, y := 0, p := s.buf + 1, u := t.u, fcause := t.fcause, frow := t.frow, fbyte := t.fbyte,
        ft := t.ft, i := t.i, v := t.v, c := t.c, cw := t.cw, pz := t.pz, uz := t.uz, t0 := t.t0, fresh := t.fresh } ∧
      t.Running

/-- R252, R33: START while not BUSY is refused exactly when one of P1 to P7 fails, each as the table of R252 has it. Which
of several that fail the refusal names is the model's choice (log 13): the first in the order P7, P1, P2, P3, P4, P5, P6.
(P8 is about later moves, log 14.) -/
def Obligations.StartRefusedExactlyOnViolation : Prop :=
  ∀ s : State, s.status ≠ .busy →
    ((∃ q, hostMove (.writeReg .ctrl 1) s = .refused (.precondition q)) ↔ ∃ q, ¬s.meets q) ∧
    (∀ pre q post, [Sys2Proof.Precondition.p7, .p1, .p2, .p3, .p4, .p5, .p6] = pre ++ q :: post →
      (hostMove (.writeReg .ctrl 1) s = .refused (.precondition q) ↔ (∀ r ∈ pre, s.meets r) ∧ ¬s.meets q))

/-- R21, R33, R250: while not BUSY a write of a parameter register with a value of its width is held by that register and
counts as written; the other registers, memory and the status keep theirs; writing 0 to CTRL does nothing. A write of a
read-only register (R21), of a reserved CTRL bit (R33, U8) or of a value wider than the register is refused by name
(log 14). -/
def Obligations.RegisterWriteIsHeldOrRefused : Prop :=
  ∀ (s : State) (x : Nat), s.status ≠ .busy →
    (x < 2 ^ s.addrW → hostMove (.writeReg .buf x) s =
      .next { s with buf := x, written := { s.written with buf := true } }) ∧
    (x < 2 ^ 32 → ∃ t, hostMove (.writeReg .h x) s = .next t ∧ t.h.toNat = x ∧
      t = { s with h := t.h, written := { s.written with h := true } }) ∧
    (x < 2 ^ 32 → ∃ t, hostMove (.writeReg .bpp x) s = .next t ∧ t.bpp.toNat = x ∧
      t = { s with bpp := t.bpp, written := { s.written with bpp := true } }) ∧
    (x < 2 ^ 32 → ∃ t, hostMove (.writeReg .bpl x) s = .next t ∧ t.bpl.toNat = x ∧
      t = { s with bpl := t.bpl, written := { s.written with bpl := true } }) ∧
    (x < 4 → ∃ t, hostMove (.writeReg .ksel x) s = .next t ∧ t.ksel.toNat = x ∧
      t = { s with ksel := t.ksel, written := { s.written with ksel := true } }) ∧
    hostMove (.writeReg .ctrl 0) s = .next s ∧
    (2 ≤ x → hostMove (.writeReg .ctrl x) s = .refused .reservedCtrlBits) ∧
    (∀ r, r = .status ∨ r = .fcause ∨ r = .frow ∨ r = .fbyte →
      hostMove (.writeReg r x) s = .refused .readOnlyRegister) ∧
    (2 ^ s.addrW ≤ x → hostMove (.writeReg .buf x) s = .refused .valueTooWide) ∧
    (2 ^ 32 ≤ x → ∀ r, r = .h ∨ r = .bpp ∨ r = .bpl → hostMove (.writeReg r x) s = .refused .valueTooWide) ∧
    (4 ≤ x → hostMove (.writeReg .ksel x) s = .refused .valueTooWide)

/-- R21, R34, R35: a read of a register answers what it holds: each parameter register once that register is written (when not BUSY),
STATUS always by its code, the fault record in FAULT; a read changes nothing else. -/
def Obligations.RegisterReadAnswersValue : Prop :=
  ∀ (s : State),
    (∃ t, hostMove (.readReg .status) s = .next t ∧
      t.readData = (match s.status with | .idle => 0 | .busy => 1 | .done => 2 | .fault => 3) ∧
      t = { s with readData := t.readData, fresh := t.fresh }) ∧
    (s.status = .fault →
      (∃ t, hostMove (.readReg .fcause) s = .next t ∧ t.readData = s.fcause.toNat ∧
        t = { s with readData := t.readData, fresh := t.fresh }) ∧
      (∃ t, hostMove (.readReg .frow) s = .next t ∧ t.readData = s.frow.toNat ∧
        t = { s with readData := t.readData, fresh := t.fresh }) ∧
      (∃ t, hostMove (.readReg .fbyte) s = .next t ∧ t.readData = s.fbyte.toNat ∧
        t = { s with readData := t.readData, fresh := t.fresh })) ∧
    (s.status ≠ .busy →
      (s.written.buf = true → ∃ t, hostMove (.readReg .buf) s = .next t ∧ t.readData = s.buf ∧
        t = { s with readData := t.readData, fresh := t.fresh }) ∧
      (s.written.h = true → ∃ t, hostMove (.readReg .h) s = .next t ∧ t.readData = s.h.toNat ∧
        t = { s with readData := t.readData, fresh := t.fresh }) ∧
      (s.written.bpp = true → ∃ t, hostMove (.readReg .bpp) s = .next t ∧ t.readData = s.bpp.toNat ∧
        t = { s with readData := t.readData, fresh := t.fresh }) ∧
      (s.written.bpl = true → ∃ t, hostMove (.readReg .bpl) s = .next t ∧ t.readData = s.bpl.toNat ∧
        t = { s with readData := t.readData, fresh := t.fresh }) ∧
      (s.written.ksel = true → ∃ t, hostMove (.readReg .ksel) s = .next t ∧ t.readData = s.ksel.toNat ∧
        t = { s with readData := t.readData, fresh := t.fresh }))

/-- R60, R258, R304: while BUSY every register write, every read of a parameter register and every access to a byte of
the buffer is refused (U3, U4). -/
def Obligations.BusyHostMovesRefused : Prop :=
  ∀ s : State, s.status = .busy →
    (∀ r x, hostMove (.writeReg r x) s = .refused .hostMoveWhileBusy) ∧
    (∀ r, r = .buf ∨ r = .h ∨ r = .bpp ∨ r = .bpl ∨ r = .ksel →
      hostMove (.readReg r) s = .refused .hostMoveWhileBusy) ∧
    (∀ a, s.buf ≤ a → a < s.buf + s.h.toNat * s.bpl.toNat →
      hostMove (.readMem a) s = .refused .hostMoveWhileBusy ∧
      ∀ b, hostMove (.writeMem a b) s = .refused .hostMoveWhileBusy)

/-- R290, R291, R43: reset from any state, BUSY included, leaves IDLE with no parameter register written; memory is
untouched unless an invocation was running, and the system's memory map and the host's own record stay. -/
def Obligations.ResetFromAnyState : Prop :=
  ∀ s : State, ∃ t, hostMove .reset s = .next t ∧ t.status = .idle ∧
    t.written = ⟨false, false, false, false, false⟩ ∧ t.addrW = s.addrW ∧ t.holes = s.holes ∧
    t.inputs = s.inputs ∧ t.readData = s.readData ∧ (s.status ≠ .busy → t.mem = s.mem) ∧
    hostMove (.writeReg .ctrl 1) t = .refused (.precondition .p7)

/-- R292, R63: a reset during BUSY leaves the filter bytes and every byte outside the buffer's payload as they are. -/
def Obligations.BusyResetKeepsFilterBytes : Prop :=
  ∀ s : State, s.Inv → s.status = .busy → ∃ t, hostMove .reset s = .next t ∧
    (∀ y < s.h.toNat, filterAt t.mem s.buf s.bpl.toNat y = filterAt s.mem s.buf s.bpl.toNat y) ∧
    ∀ a, ¬InPayload s.buf s.bpl.toNat s.h.toNat a → t.mem.read a = s.mem.read a

/-- R41, R50: between invocations, at an address of ordinary memory, the host reads back the byte it wrote, and the write
changes no other byte. An access outside the address space, or to a byte that is no ordinary memory, is a fault of its
name: the model's choice (logs 5 and 16). -/
def Obligations.HostMemoryWriteReadsBack : Prop :=
  ∀ (s : State) (a : Nat) (b : Sys2Proof.Byte), s.mem.wf → s.status ≠ .busy →
    (a < 2 ^ s.addrW → (∀ r ∈ s.holes, ¬(r.base ≤ a ∧ a < r.base + r.size)) →
      ∃ t r, hostMove (.writeMem a b) s = .next t ∧ hostMove (.readMem a) t = .next r ∧ r.readData = b.toNat ∧
        r = { t with readData := r.readData } ∧ (∀ x, x ≠ a → t.mem.read x = s.mem.read x) ∧
        t = { s with mem := t.mem }) ∧
    (2 ^ s.addrW ≤ a → hostMove (.writeMem a b) s = .fault .outsideAddressSpace ∧
      hostMove (.readMem a) s = .fault .outsideAddressSpace) ∧
    (a < 2 ^ s.addrW → (∃ r ∈ s.holes, r.base ≤ a ∧ a < r.base + r.size) →
      hostMove (.writeMem a b) s = .fault .noOrdinaryMemory ∧ hostMove (.readMem a) s = .fault .noOrdinaryMemory)

/-! ### Invariants and whole invocations -/

/-- The invariant holds right after reset. -/
def Obligations.ResetMeetsInvariant : Prop := State.reset.Inv

/-- R26, R27, R28, R31, R50, R270: from every state that meets it, every step keeps the invariant: memory canonical and
inside the address space, a running invocation well set up with its cursor at row Y, a fault record that is FORMAT. -/
def Obligations.StepKeepsInvariant : Prop :=
  ∀ s t : State, s.Inv → step s = .next t → t.Inv

/-- R31, R52, R66, R252 (P4): the row at the cursor of a running invocation can be executed, whatever its filter byte: it
and the previous row lie in the buffer, one below the other, in memory that can be accessed, and the filter byte is
there to be fetched. -/
def Obligations.RunningRowIsReady : Prop :=
  ∀ (s : State) (f : Sys2Proof.Filter), s.Inv → s.status = .busy →
    s.RowReady f ∧ s.fetchFault = none ∧ 1 ≤ s.p ∧ s.p - 1 < 2 ^ s.addrW ∧
    s.p + s.n ≤ s.buf + s.h.toNat * s.bpl.toNat ∧ (s.y ≠ 0 → s.buf + 1 ≤ s.u ∧ s.u + s.n + 1 = s.p)

/-- R120, R270: while an invocation runs, the engine's step always answers a next state: the row executed that the filter
byte selects in the mode, or the FORMAT fault taken where it selects none. -/
def Obligations.RunningStepAnswersNext : Prop :=
  ∀ s : State, s.Inv → s.status = .busy → s.NoMoveDue →
    ∃ t, step s = .next t ∧
      ((∃ m i, s.mode = some m ∧ Sys2Proof.decodeOpcode m (s.mem.read (s.p - 1)) = .ok i ∧
          exec i { s with ft := s.mem.read (s.p - 1), inputs := tick s.inputs } = .next t) ∨
        (5 ≤ (s.mem.read (s.p - 1)).toNat ∧
          t = { s with
            fcause := 1, frow := s.y, fbyte := s.mem.read (s.p - 1), ft := s.mem.read (s.p - 1), status := .fault,
            inputs := tick s.inputs }))

/-- R44, R52, R63: while an invocation runs, a step of the engine writes no byte outside the current row's payload: no
filter byte, no other row, nothing outside the buffer; and it changes no parameter register. -/
def Obligations.StepWritesCurrentPayloadOnly : Prop :=
  ∀ s t : State, s.Inv → s.status = .busy → s.NoMoveDue → step s = .next t →
    (∀ a, ¬(s.p ≤ a ∧ a < s.p + s.n) → t.mem.read a = s.mem.read a) ∧
    (∀ y < s.h.toNat, filterAt t.mem s.buf s.bpl.toNat y = filterAt s.mem s.buf s.bpl.toNat y) ∧
    t.addrW = s.addrW ∧ t.holes = s.holes ∧
    t.buf = s.buf ∧ t.h = s.h ∧ t.bpp = s.bpp ∧ t.bpl = s.bpl ∧ t.ksel = s.ksel ∧ t.written = s.written

/-- R256: an invocation ends, in DONE or in FAULT, after at most as many row instructions as rows are left, while the host
does no more than poll (R258). The steps of the run are the engine's and the polls that landed. -/
def Obligations.InvocationEnds : Prop :=
  ∀ s : State, s.Inv → s.status = .busy → OnlyPollsWithin (s.h.toNat - s.y.toNat) s.inputs →
    ∃ k t, runFor k s = .next t ∧ k + t.inputs.length ≤ (s.h.toNat - s.y.toNat) + s.inputs.length ∧
      (t.status = .done ∨ t.status = .fault)

/-- R255, R41, R127: an invocation whose filter bytes are all defined, while the host does no more than poll (R258), runs
for exactly H engine steps (the run's other steps are the polls that landed) and ends in DONE with every row
reconstructed, every byte that is no payload byte unchanged, and the parameters unchanged. -/
def Obligations.InvocationReconstructsImage : Prop :=
  ∀ s : State, s.Inv → s.status = .busy → OnlyPollsWithin s.h.toNat s.inputs → s.y = 0 →
    (∀ y < s.h.toNat, (filterAt s.mem s.buf s.bpl.toNat y).toNat < 5) →
    ∃ k t, runFor k s = .next t ∧ k + t.inputs.length = s.h.toNat + s.inputs.length ∧ t.status = .done ∧
      (∀ y < s.h.toNat, RowDone s.bpp.toNat s.buf s.bpl.toNat s.mem t.mem y) ∧
      (∀ a, ¬InPayload s.buf s.bpl.toNat s.h.toNat a → t.mem.read a = s.mem.read a) ∧
      t.buf = s.buf ∧ t.h = s.h ∧ t.bpp = s.bpp ∧ t.bpl = s.bpl ∧ t.ksel = s.ksel

/-- R274, R275, R276: when row `r` holds the first reserved filter byte, the invocation, while the host does no more than
poll (R258), ends after `r + 1` engine steps in FAULT at that row, with FCAUSE 1, FROW `r` and FBYTE that byte; the rows
before it are reconstructed, and every other byte (row `r` and the later rows among them) is as it was. That the engine
stops there, its next step changing nothing, is the model's choice (log 25). -/
def Obligations.FormatFaultIsPrecise : Prop :=
  ∀ (s : State) (r : Nat), s.Inv → s.status = .busy → OnlyPollsWithin (r + 1) s.inputs → s.y = 0 → r < s.h.toNat →
    (∀ y < r, (filterAt s.mem s.buf s.bpl.toNat y).toNat < 5) →
    5 ≤ (filterAt s.mem s.buf s.bpl.toNat r).toNat →
    ∃ k t, runFor k s = .next t ∧ k + t.inputs.length = (r + 1) + s.inputs.length ∧
      t.status = .fault ∧ t.fcause = 1 ∧ t.frow.toNat = r ∧ t.fbyte = filterAt s.mem s.buf s.bpl.toNat r ∧
      (∀ y < r, RowDone s.bpp.toNat s.buf s.bpl.toNat s.mem t.mem y) ∧
      (∀ a, ¬InPayload s.buf s.bpl.toNat r a → t.mem.read a = s.mem.read a) ∧
      t.buf = s.buf ∧ t.h = s.h ∧ t.bpp = s.bpp ∧ t.bpl = s.bpl ∧ t.ksel = s.ksel ∧
      (t.NoMoveDue → step t = .next { t with inputs := tick t.inputs })

/-- R133, R186, R303, R42: two invocations of the same image with the same H, BPP and BPL, whatever their KSEL, their
buffer address, what the other registers hold and when the host polls, go through the same statuses and leave the same
image, compared after each number `k` of engine steps: the kernels agree byte for byte, and the alignment of the buffer
and the engine's history change nothing. The steps past a FAULT rest on log 25. -/
def Obligations.ResultDependsOnImageOnly : Prop :=
  ∀ s s' : State, s.Inv → s'.Inv → s.status = .busy → s'.status = .busy →
    OnlyPollsWithin s.h.toNat s.inputs → OnlyPollsWithin s.h.toNat s'.inputs →
    s.y = 0 → s'.y = 0 → s.h = s'.h → s.bpp = s'.bpp → s.bpl = s'.bpl →
    (∀ o < s.h.toNat * s.bpl.toNat, s.mem.read (s.buf + o) = s'.mem.read (s'.buf + o)) →
    ∀ k ≤ s.h.toNat, ∃ j t j' t', runFor j s = .next t ∧ j + t.inputs.length = k + s.inputs.length ∧
      runFor j' s' = .next t' ∧ j' + t'.inputs.length = k + s'.inputs.length ∧ t.status = t'.status ∧
      (t.status = .fault → t.fcause = t'.fcause ∧ t.frow = t'.frow ∧ t.fbyte = t'.fbyte) ∧
      ∀ o < s.h.toNat * s.bpl.toNat, t.mem.read (s.buf + o) = t'.mem.read (s'.buf + o)

/-! ### The primitives (40_primitives.md) -/

/-- R102: `udiv3` is the quotient by 3 up to 511, at most 85 on bytes, and first wrong at 512, where it is 171. -/
def Obligations.UdivIsThird : Prop :=
  (∀ x ≤ 511, udiv3 x = x / 3) ∧ (∀ x ≤ 255, udiv3 x ≤ 85) ∧ udiv3 512 = 171

/-- R101: `avg` is the floor of the mean of two bytes: never rounded up, in byte range, symmetric, half the other
operand where one is 0. -/
def Obligations.AvgIsFloorMean : Prop :=
  ∀ a b : Nat, a ≤ 255 → b ≤ 255 →
    2 * avg a b ≤ a + b ∧ a + b ≤ 2 * avg a b + 1 ∧ avg a b ≤ 255 ∧ avg a b = avg b a ∧ avg 0 b = b / 2 ∧
    avg a 0 = a / 2

/-- R105: what the masks of `paeth_opt` select: `hi` when `c ≤ lo + d`, `lo` when `c ≥ hi − d`, `c` otherwise, with `d`
the third of `hi − lo`. -/
def Obligations.PaethOptSelects : Prop :=
  ∀ a b c : Nat, a ≤ 255 → b ≤ 255 → c ≤ 255 →
    (c ≤ min a b + (max a b - min a b) / 3 → paethOpt a b c = max a b) ∧
    (max a b ≤ c + (max a b - min a b) / 3 → paethOpt a b c = min a b) ∧
    (min a b + (max a b - min a b) / 3 < c → c + (max a b - min a b) / 3 < max a b → paethOpt a b c = c)

/-- R106: the branch-free predictor is the canonical one on every triple of bytes, and the laws of the predictor:
symmetry, the left edge, the top edge, the value among its arguments, the ties. -/
def Obligations.PaethOptEqualsPaethRef : Prop :=
  ∀ a b c : Nat, a ≤ 255 → b ≤ 255 → c ≤ 255 →
    paethOpt a b c = paethRef a b c ∧ paethRef a b c = paethRef b a c ∧ paethRef 0 b 0 = b ∧ paethRef a 0 0 = a ∧
    (paethRef a b c = a ∨ paethRef a b c = b ∨ paethRef a b c = c) ∧ paethRef a a c = a ∧ paethRef a b b = a ∧
    paethRef a b a = b

/-! ### The vector datapath (42_vector_ops.md) and the block functions -/

/-- R13: the 16-bit and the 32-bit lanes are the little-endian compositions of the byte lanes. -/
def Obligations.LaneViewsCompose : Prop :=
  ∀ v : Sys2Proof.V128,
    (∀ k < 8, (lane16 v k).toNat = (lane8 v (2 * k)).toNat + 256 * (lane8 v (2 * k + 1)).toNat) ∧
    (∀ k < 4, (lane32 v k).toNat = (lane8 v (4 * k)).toNat + 2 ^ 8 * (lane8 v (4 * k + 1)).toNat +
      2 ^ 16 * (lane8 v (4 * k + 2)).toNat + 2 ^ 24 * (lane8 v (4 * k + 3)).toNat)

/-- R142 to R147, R168, R55: loads put the byte at the lowest address in byte lane 0, the 8-byte load zeroes the upper
lanes, the 32-bit load is little-endian, and stores write lane `k` to `addr + k` and no other byte. That the aligned forms
do the same at an address that is no multiple of 16 is the model's choice (log 21). -/
def Obligations.VectorLoadsAndStores : Prop :=
  ∀ (m : Memory) (a : Nat) (v : Sys2Proof.V128), m.wf →
    (∀ k < 16, lane8 (vld16a m a) k = m.read (a + k) ∧ lane8 (vld16u m a) k = m.read (a + k)) ∧
    (∀ k < 16, lane8 (vld8 m a) k = if k < 8 then m.read (a + k) else 0) ∧
    (ld32le m a).toNat = (m.read a).toNat + 2 ^ 8 * (m.read (a + 1)).toNat + 2 ^ 16 * (m.read (a + 2)).toNat +
      2 ^ 24 * (m.read (a + 3)).toNat ∧
    (∀ x, (vst16a m a v).read x = if a ≤ x ∧ x < a + 16 then lane8 v (x - a) else m.read x) ∧
    (∀ x, (vst16u m a v).read x = if a ≤ x ∧ x < a + 16 then lane8 v (x - a) else m.read x) ∧
    (∀ x, (vst8 m a v).read x = if a ≤ x ∧ x < a + 8 then lane8 v (x - a) else m.read x)

/-- R148 to R156, R166, R167: the lane arithmetic, as numbers. -/
def Obligations.LaneArithmetic : Prop :=
  ∀ (a b : Sys2Proof.V128) (n : Nat),
    (∀ k < 16, (lane8 (vaddb a b) k).toNat = ((lane8 a k).toNat + (lane8 b k).toNat) % 256) ∧
    (∀ k < 8,
      (lane16 (vaddw a b) k).toNat = ((lane16 a k).toNat + (lane16 b k).toNat) % 65536 ∧
      ((lane16 (vsubw a b) k).toNat : Int) = ((lane16 a k).toNat - (lane16 b k).toNat : Int) % 65536 ∧
      (lane16 (vminsw a b) k).toInt = min (lane16 a k).toInt (lane16 b k).toInt ∧
      (lane16 (vmaxsw a b) k).toInt = max (lane16 a k).toInt (lane16 b k).toInt ∧
      (lane16 (vmulhuw a b) k).toNat = (lane16 a k).toNat * (lane16 b k).toNat / 65536 ∧
      (n < 16 → (lane16 (vsraw a n) k).toInt = (lane16 a k).toInt / 2 ^ n ∧
        (lane16 (vsrlw a n) k).toNat = (lane16 a k).toNat / 2 ^ n ∧
        (lane16 (vsllw a n) k).toNat = (lane16 a k).toNat * 2 ^ n % 65536)) ∧
    (∀ j < 128, (vand a b).getLsbD j = (a.getLsbD j && b.getLsbD j) ∧
      (vandn a b).getLsbD j = (!a.getLsbD j && b.getLsbD j))

/-- R157 to R165: the lane movement, lane by lane. -/
def Obligations.LaneMovement : Prop :=
  ∀ (a b : Sys2Proof.V128) (n : Nat) (imm : Sys2Proof.Byte) (x : Sys2Proof.Word),
    (∀ k < 16,
      lane8 (vslldq a n) k = (if n ≤ k then lane8 a (k - n) else 0) ∧
      lane8 (vsrldq a n) k = (if k + n < 16 then lane8 a (k + n) else 0)) ∧
    (∀ k < 8,
      lane8 (vunpklbw a b) (2 * k) = lane8 a k ∧ lane8 (vunpklbw a b) (2 * k + 1) = lane8 b k ∧
      lane8 (vunpkhbw a b) (2 * k) = lane8 a (8 + k) ∧ lane8 (vunpkhbw a b) (2 * k + 1) = lane8 b (8 + k) ∧
      ((lane8 (vpackuswb a b) k).toNat : Int) = min 255 (max 0 (lane16 a k).toInt) ∧
      ((lane8 (vpackuswb a b) (8 + k)).toNat : Int) = min 255 (max 0 (lane16 b k).toInt)) ∧
    (∀ k < 4,
      lane32 (vshufd a imm) k = lane32 a (imm.toNat / 2 ^ (2 * k) % 4) ∧
      lane16 (vshuflw a imm) k = lane16 a (imm.toNat / 2 ^ (2 * k) % 4) ∧
      lane16 (vshuflw a imm) (4 + k) = lane16 a (4 + k) ∧
      lane16 (vshufhw a imm) k = lane16 a k ∧
      lane16 (vshufhw a imm) (4 + k) = lane16 a (4 + imm.toNat / 2 ^ (2 * k) % 4) ∧
      lane32 (vcvt32 x) k = if k = 0 then x else 0)

/-- R103: on lanes of byte range the multiply-high by `0x5580` is `udiv3`, the quotient by 3. -/
def Obligations.VectorThirdIsExact : Prop :=
  ∀ (x : Sys2Proof.V128), ∀ k < 8, (lane16 x k).toNat ≤ 255 →
    (lane16 (vmulhuw x k5580) k).toNat = udiv3 (lane16 x k).toNat ∧
    (lane16 (vmulhuw x k5580) k).toNat = (lane16 x k).toNat / 3

/-- R230: `PAETH16` is `paeth_opt` in every 16-bit lane whose operands are bytes. -/
def Obligations.PaethLanesArePredictors : Prop :=
  ∀ (a b c : Sys2Proof.V128), ∀ k < 8,
    (lane16 a k).toNat ≤ 255 → (lane16 b k).toNat ≤ 255 → (lane16 c k).toNat ≤ 255 →
    (lane16 (paeth16 a b c) k).toNat = paethOpt (lane16 a k).toNat (lane16 b k).toNat (lane16 c k).toNat ∧
    (lane16 (paeth16 a b c) k).toNat ≤ 255

/-- R188: the SUB 16-byte block, every bytes per pixel: each byte is the sum of its column's raw bytes in the block and
of the column's carry; the carry becomes the last `bpp` bytes; I advances by 16; nothing else changes but CW, the other
form of the carry, whose value `CarrySeedAndBroadcast` gives. -/
def Obligations.SubBlockFunction : Prop :=
  ∀ (b : Sys2Proof.Bpp) (s : State), s.mem.wf →
    (∀ j, b.toNat ≤ j → lane8 s.c j = 0) →
    (∀ k < 16, ((subBlock16 b s).mem.read (s.p + s.i.toNat + k)).toNat =
      (((List.range (k / b.toNat + 1)).map fun j => (s.payload (s.i.toNat + (k - j * b.toNat))).toNat).sum +
        (lane8 s.c (k % b.toNat)).toNat) % 256) ∧
    (∀ j < 16, lane8 (subBlock16 b s).c j =
      if j < b.toNat then (subBlock16 b s).mem.read (s.p + s.i.toNat + (16 - b.toNat + j)) else 0) ∧
    (∀ x, ¬(s.p + s.i.toNat ≤ x ∧ x < s.p + s.i.toNat + 16) → (subBlock16 b s).mem.read x = s.mem.read x) ∧
    subBlock16 b s =
      { s with
        mem := (subBlock16 b s).mem, c := (subBlock16 b s).c, cw := (subBlock16 b s).cw
        i := BitVec.ofNat 32 (s.i.toNat + 16) }

/-- R185, R191: the carry seed puts the `bpp` bytes before the block in the low lanes of C, widened in CW, zero in the
other lanes, and changes nothing else; a SUB block leaves its carry widened in CW too (log 28); the carry broadcast
replicates the `bpp` carry bytes with period `bpp`; the shuffles give the same from the previous block's output; folding
the carry in before the prefix sum gives the same block. -/
def Obligations.CarrySeedAndBroadcast : Prop :=
  (∀ (b : Sys2Proof.Bpp) (s : State), b.toNat ≤ s.i.toNat →
    (∀ j < 16, lane8 (s.seedCarry b).c j = if j < b.toNat then s.mem.read (s.p + (s.i.toNat - b.toNat + j)) else 0) ∧
    (∀ j < 8, (lane16 (s.seedCarry b).cw j).toNat = (lane8 (s.seedCarry b).c j).toNat) ∧
    s.seedCarry b = { s with c := (s.seedCarry b).c, cw := (s.seedCarry b).cw }) ∧
  (∀ (b : Sys2Proof.Bpp) (s : State), ∀ j < 8,
    (lane16 (subBlock16 b s).cw j).toNat = (lane8 (subBlock16 b s).c j).toNat) ∧
  ∀ (b : Sys2Proof.Bpp) (x c : Sys2Proof.V128), (∀ j, b.toNat ≤ j → lane8 c j = 0) →
    (∀ k < 16, lane8 (rep b c) k = lane8 c (k % b.toNat)) ∧
    (∀ prev r, c = vsrldq prev (16 - b.toNat) → repShuffle b prev = some r → r = rep b c) ∧
    prefixSum b (vaddb x c) = vaddb (prefixSum b x) (rep b c)

/-- R199, R200: the UP blocks add the byte above to each byte of 64 or of 8, on row 0 nothing; I advances by the block;
nothing else changes. -/
def Obligations.UpBlockFunctions : Prop :=
  ∀ (s : State), s.mem.wf → (s.y = 0 ∨ s.u + s.n ≤ s.p) →
    (s.i.toNat + 64 ≤ s.n →
      (∀ k < 64, ((upBlock64 s).mem.read (s.p + s.i.toNat + k)).toNat =
        ((s.payload (s.i.toNat + k)).toNat + (s.above (s.i.toNat + k)).toNat) % 256) ∧
      (∀ x, ¬(s.p + s.i.toNat ≤ x ∧ x < s.p + s.i.toNat + 64) → (upBlock64 s).mem.read x = s.mem.read x) ∧
      upBlock64 s = { s with mem := (upBlock64 s).mem, i := BitVec.ofNat 32 (s.i.toNat + 64) }) ∧
    (s.i.toNat + 8 ≤ s.n →
      (∀ k < 8, ((upBlock8 s).mem.read (s.p + s.i.toNat + k)).toNat =
        ((s.payload (s.i.toNat + k)).toNat + (s.above (s.i.toNat + k)).toNat) % 256) ∧
      (∀ x, ¬(s.p + s.i.toNat ≤ x ∧ x < s.p + s.i.toNat + 8) → (upBlock8 s).mem.read x = s.mem.read x) ∧
      upBlock8 s = { s with mem := (upBlock8 s).mem, i := BitVec.ofNat 32 (s.i.toNat + 8) })

/-- R212: the 8-byte AVG block at one byte per pixel walks the lanes from T0: each byte is its raw byte plus the floor
mean of the byte before it and the byte above; T0 ends as the last byte, and after the block's turn so do C and CW
(log 28). -/
def Obligations.AvgWalkFunction : Prop :=
  ∀ (s : State), s.mem.wf → s.t0.toNat ≤ 255 →
    (∀ k < 8, ((avgBlock8 s).mem.read (s.p + s.i.toNat + k)).toNat =
      sumMod256 (s.payload (s.i.toNat + k)).toNat
        (avg (if k = 0 then s.t0.toNat else ((avgBlock8 s).mem.read (s.p + s.i.toNat + (k - 1))).toNat)
          (s.above (s.i.toNat + k)).toNat)) ∧
    (avgBlock8 s).t0.toNat = ((avgBlock8 s).mem.read (s.p + s.i.toNat + 7)).toNat ∧
    (∀ x, ¬(s.p + s.i.toNat ≤ x ∧ x < s.p + s.i.toNat + 8) → (avgBlock8 s).mem.read x = s.mem.read x) ∧
    avgBlock8 s =
      { s with mem := (avgBlock8 s).mem, t0 := (avgBlock8 s).t0, i := BitVec.ofNat 32 (s.i.toNat + 8) } ∧
    avgTurn8 s = { avgBlock8 s with c := (avgTurn8 s).c, cw := (avgTurn8 s).cw } ∧
    (s.i.toNat + 8 ≤ s.n →
      (∀ j < 16, lane8 (avgTurn8 s).c j =
        if j = 0 then (avgBlock8 s).mem.read (s.p + s.i.toNat + 7) else 0) ∧
      ∀ j < 8, (lane16 (avgTurn8 s).cw j).toNat = (lane8 (avgTurn8 s).c j).toNat)

/-- R215: the AVG 16-byte block at 4, 6, 8 bytes per pixel: each byte is its raw byte plus the floor mean of its left
neighbour (the carry for the first `bpp` bytes) and the byte above; the carry becomes the last `bpp` bytes, CW and C
alike (log 28). -/
def Obligations.AvgBlockFunction : Prop :=
  ∀ (b : Sys2Proof.Bpp) (s : State), b = .b4 ∨ b = .b6 ∨ b = .b8 → s.mem.wf →
    (∀ j, (lane16 s.cw j).toNat ≤ 255 ∧ (b.toNat ≤ j → lane16 s.cw j = 0)) →
    (∀ k < 16, ((avgBlock16 b s).mem.read (s.p + s.i.toNat + k)).toNat =
      sumMod256 (s.payload (s.i.toNat + k)).toNat
        (avg (if k < b.toNat then (lane16 s.cw k).toNat
            else ((avgBlock16 b s).mem.read (s.p + s.i.toNat + (k - b.toNat))).toNat)
          (s.above (s.i.toNat + k)).toNat)) ∧
    (∀ j < 8, (lane16 (avgBlock16 b s).cw j).toNat =
      if j < b.toNat then ((avgBlock16 b s).mem.read (s.p + s.i.toNat + (16 - b.toNat + j))).toNat else 0) ∧
    (∀ j < 16, lane8 (avgBlock16 b s).c j =
      if j < b.toNat then (avgBlock16 b s).mem.read (s.p + s.i.toNat + (16 - b.toNat + j)) else 0) ∧
    (∀ x, ¬(s.p + s.i.toNat ≤ x ∧ x < s.p + s.i.toNat + 16) → (avgBlock16 b s).mem.read x = s.mem.read x) ∧
    avgBlock16 b s =
      { s with
        mem := (avgBlock16 b s).mem, c := (avgBlock16 b s).c, cw := (avgBlock16 b s).cw
        i := BitVec.ofNat 32 (s.i.toNat + 16) }

/-- R234: the PAETH 16-byte block at 4, 6, 8 bytes per pixel: each byte is its raw byte plus the predictor of its left
neighbour (the carry for the first `bpp` bytes), the byte above and the byte above-left; the carry becomes the last
`bpp` bytes, CW and C alike (log 28). -/
def Obligations.PaethBlockFunction : Prop :=
  ∀ (b : Sys2Proof.Bpp) (s : State), b = .b4 ∨ b = .b6 ∨ b = .b8 → s.mem.wf → b.toNat ≤ s.i.toNat →
    (∀ j, (lane16 s.cw j).toNat ≤ 255 ∧ (b.toNat ≤ j → lane16 s.cw j = 0)) →
    (∀ k < 16, ((paethBlock16 b s).mem.read (s.p + s.i.toNat + k)).toNat =
      sumMod256 (s.payload (s.i.toNat + k)).toNat
        (paethOpt (if k < b.toNat then (lane16 s.cw k).toNat
            else ((paethBlock16 b s).mem.read (s.p + s.i.toNat + (k - b.toNat))).toNat)
          (s.above (s.i.toNat + k)).toNat (s.above (s.i.toNat + k - b.toNat)).toNat)) ∧
    (∀ j < 8, (lane16 (paethBlock16 b s).cw j).toNat =
      if j < b.toNat then ((paethBlock16 b s).mem.read (s.p + s.i.toNat + (16 - b.toNat + j))).toNat else 0) ∧
    (∀ j < 16, lane8 (paethBlock16 b s).c j =
      if j < b.toNat then (paethBlock16 b s).mem.read (s.p + s.i.toNat + (16 - b.toNat + j)) else 0) ∧
    (∀ x, ¬(s.p + s.i.toNat ≤ x ∧ x < s.p + s.i.toNat + 16) → (paethBlock16 b s).mem.read x = s.mem.read x) ∧
    paethBlock16 b s =
      { s with
        mem := (paethBlock16 b s).mem, c := (paethBlock16 b s).c, cw := (paethBlock16 b s).cw
        i := BitVec.ofNat 32 (s.i.toNat + 16) }

/-- R235: the PAETH 8-byte block at three bytes per pixel, the same with groups 0..3, 3..6, 6..8; the carry becomes
bytes 5, 6, 7, in CW and in C (log 28). -/
def Obligations.PaethTripleBlockFunction : Prop :=
  ∀ (s : State), s.mem.wf → 3 ≤ s.i.toNat →
    (∀ j, (lane16 s.cw j).toNat ≤ 255 ∧ (3 ≤ j → lane16 s.cw j = 0)) →
    (∀ k < 8, ((paethBlock8 s).mem.read (s.p + s.i.toNat + k)).toNat =
      sumMod256 (s.payload (s.i.toNat + k)).toNat
        (paethOpt (if k < 3 then (lane16 s.cw k).toNat
            else ((paethBlock8 s).mem.read (s.p + s.i.toNat + (k - 3))).toNat)
          (s.above (s.i.toNat + k)).toNat (s.above (s.i.toNat + k - 3)).toNat)) ∧
    (∀ j < 8, (lane16 (paethBlock8 s).cw j).toNat =
      if j < 3 then ((paethBlock8 s).mem.read (s.p + s.i.toNat + (5 + j))).toNat else 0) ∧
    (∀ j < 16, lane8 (paethBlock8 s).c j =
      if j < 3 then (paethBlock8 s).mem.read (s.p + s.i.toNat + (5 + j)) else 0) ∧
    (∀ x, ¬(s.p + s.i.toNat ≤ x ∧ x < s.p + s.i.toNat + 8) → (paethBlock8 s).mem.read x = s.mem.read x) ∧
    paethBlock8 s =
      { s with
        mem := (paethBlock8 s).mem, c := (paethBlock8 s).c, cw := (paethBlock8 s).cw
        i := BitVec.ofNat 32 (s.i.toNat + 8) }

/-- R182: `align_diff` is the least number of bytes from an address up to a multiple of 16. -/
def Obligations.AlignDiffReachesMultiple : Prop :=
  ∀ a : Nat, (a + alignDiff a 16) % 16 = 0 ∧ alignDiff a 16 ≤ 15 ∧ (∀ d, (a + d) % 16 = 0 → alignDiff a 16 ≤ d) ∧
    (a % 16 = 0 → alignDiff a 16 = 0)

/-- R183, R181: a row of the SIMD kernel enters its body only with bytes left and only aligned to 16, so that it is the row
with anything else (`other`) put for the body elsewhere; and from there each body is the loops of its blocks with
anything else put for a block that is not aligned: to 16 at every 16- and 64-byte block, each 16-byte part of a SUB
64-byte block among them, to 8 at every 8-byte block. -/
def Obligations.BodyEnteredAligned : Prop :=
  (∀ (f : Sys2Proof.Filter) (b : Sys2Proof.Bpp) (body other : State → State) (s : State),
    simdRow f b body s = simdRow f b (fun t => if t.AlignedTo 16 ∧ t.i.toNat < t.n then body t else other t) s) ∧
  ∀ (b : Sys2Proof.Bpp) (other : State → State) (s : State), s.AlignedTo 16 →
    subBody b s = (if 16 ≤ s.n - s.i.toNat then
      blocks 16 (alignedOnly 16 (subBlock16 b) other)
        (blocks 64 (repeatN (alignedOnly 16 (subBlock16 b) other) 4) (s.seedCarry b)) else s) ∧
    upBody s = blocks 8 (alignedOnly 8 upBlock8 other) (blocks 64 (alignedOnly 16 upBlock64 other) s) ∧
    avgBody1 s = (if 8 ≤ s.n - s.i.toNat then
      blocks 8 (alignedOnly 8 avgTurn8 other)
        { s.seedCarry .b1 with t0 := (s.payload (s.i.toNat - 1)).setWidth 32 } else s) ∧
    avgBody16 b s = (if 16 ≤ s.n - s.i.toNat then
      blocks 16 (alignedOnly 16 (avgBlock16 b) other) (s.seedCarry b) else s) ∧
    paethBody8 s = (if 8 ≤ s.n - s.i.toNat then
      blocks 8 (alignedOnly 8 paethBlock8 other) (s.seedCarry .b3) else s) ∧
    paethBody16 b s = (if 16 ≤ s.n - s.i.toNat then
      blocks 16 (alignedOnly 16 (paethBlock16 b) other) (s.seedCarry b) else s)

/-! ### The row instructions (41_scalar_filters.md; 43, 44, 45) -/

/-- R121, R202: the seven NONE rows, of opcode 0, complete, change no byte of memory and no register but the cursor. -/
def Obligations.NoneRowsOnlyAdvance : Prop :=
  ∀ i : Sys2Proof.Instr,
    i ∈ [Sys2Proof.Instr.none, .noneV1, .noneV2, .noneV3, .noneV4, .noneV6, .noneV8] →
    i.opcode = 0 ∧ ∀ s : State, s.RowReady .none → s.RunsIn i →
      ∃ t, exec i s = .next t ∧ RowFrame s t ∧ CursorAdvanced s t ∧ KeepsWorking s t ∧ t.i = s.i ∧ t.mem = s.mem

/-- R122: SUB, of opcode 1, leaves bytes `0..bpp`, adds to each later byte the reconstructed byte `bpp` back, mod 256, so that every
byte is the prefix sum of its column; no other byte of memory and no working register but I changes. -/
def Obligations.SubRowAddsLeft : Prop :=
  Sys2Proof.Instr.sub.opcode = 1 ∧ ∀ s : State, s.RowReady .sub →
    ∃ t, exec .sub s = .next t ∧ RowFrame s t ∧ CursorAdvanced s t ∧ KeepsWorking s t ∧ OutsidePayloadKept s t ∧
      (∀ i < s.bpp.toNat, t.mem.read (s.p + i) = s.mem.read (s.p + i)) ∧
      (∀ i, s.bpp.toNat ≤ i → i < s.n → (t.mem.read (s.p + i)).toNat =
        ((s.mem.read (s.p + i)).toNat + (t.mem.read (s.p + (i - s.bpp.toNat))).toNat) % 256) ∧
      (∀ i < s.n, (t.mem.read (s.p + i)).toNat =
        ((List.range (i / s.bpp.toNat + 1)).map fun j => (s.mem.read (s.p + (i - j * s.bpp.toNat))).toNat).sum % 256)

/-- R123, R56: UP, of opcode 2, adds to each byte the byte above, 0 on row 0, mod 256; no other byte of memory and no working register
but I changes. -/
def Obligations.UpRowAddsAbove : Prop :=
  Sys2Proof.Instr.up.opcode = 2 ∧ ∀ s : State, s.RowReady .up →
    ∃ t, exec .up s = .next t ∧ RowFrame s t ∧ CursorAdvanced s t ∧ KeepsWorking s t ∧ OutsidePayloadKept s t ∧
      (∀ i < s.n, (t.mem.read (s.p + i)).toNat = ((s.mem.read (s.p + i)).toNat +
        (if s.y = 0 then 0 else (s.mem.read (s.u + i)).toNat)) % 256)

/-- R124: AVG, of opcode 3, adds half the byte above to bytes `0..bpp`, and to each later byte the floor mean of the reconstructed
byte `bpp` back and the byte above; no other byte of memory and no working register but I changes. -/
def Obligations.AvgRowAddsFloorMean : Prop :=
  Sys2Proof.Instr.avg.opcode = 3 ∧ ∀ s : State, s.RowReady .avg →
    ∃ t, exec .avg s = .next t ∧ RowFrame s t ∧ CursorAdvanced s t ∧ KeepsWorking s t ∧ OutsidePayloadKept s t ∧
      (∀ i < s.bpp.toNat, (t.mem.read (s.p + i)).toNat =
        ((s.mem.read (s.p + i)).toNat + (s.above i).toNat / 2) % 256) ∧
      (∀ i, s.bpp.toNat ≤ i → i < s.n → (t.mem.read (s.p + i)).toNat =
        ((s.mem.read (s.p + i)).toNat + ((t.mem.read (s.p + (i - s.bpp.toNat))).toNat + (s.above i).toNat) / 2) % 256)

/-- R125, R104: PAETH, of opcode 4, adds the byte above to bytes `0..bpp`, and to each later byte the predictor of the reconstructed
byte `bpp` back, the byte above and the byte above-left; no other byte of memory and no working register but I
changes. -/
def Obligations.PaethRowAddsPredictor : Prop :=
  Sys2Proof.Instr.paeth.opcode = 4 ∧ ∀ s : State, s.RowReady .paeth →
    ∃ t, exec .paeth s = .next t ∧ RowFrame s t ∧ CursorAdvanced s t ∧ KeepsWorking s t ∧ OutsidePayloadKept s t ∧
      (∀ i < s.bpp.toNat, (t.mem.read (s.p + i)).toNat = ((s.mem.read (s.p + i)).toNat + (s.above i).toNat) % 256) ∧
      (∀ i, s.bpp.toNat ≤ i → i < s.n → (t.mem.read (s.p + i)).toNat =
        ((s.mem.read (s.p + i)).toNat +
          paethRef (t.mem.read (s.p + (i - s.bpp.toNat))).toNat (s.above i).toNat (s.above (i - s.bpp.toNat)).toNat) % 256)

/-- R127, R188 to R198: the six SUB specializations complete in their mode and reconstruct the row as the unified form
says; the rolling words and T0 keep their values. -/
def Obligations.SubVectorRowsReconstruct : Prop :=
  ∀ i : Sys2Proof.Instr, i ∈ [Sys2Proof.Instr.subV1, .subV2, .subV3, .subV4, .subV6, .subV8] →
    ∀ s : State, s.RowReady .sub → s.RunsIn i →
      ∃ t, exec i s = .next t ∧ RowFrame s t ∧ CursorAdvanced s t ∧ KeepsRolling s t ∧ KeepsRunning s t ∧
        OutsidePayloadKept s t ∧ Reconstructed .sub s.bpp.toNat s t

/-- R127, R199 to R201: the six UP specializations; the carries, the rolling words and T0 keep their values. -/
def Obligations.UpVectorRowsReconstruct : Prop :=
  ∀ i : Sys2Proof.Instr, i ∈ [Sys2Proof.Instr.upV1, .upV2, .upV3, .upV4, .upV6, .upV8] →
    ∀ s : State, s.RowReady .up → s.RunsIn i →
      ∃ t, exec i s = .next t ∧ RowFrame s t ∧ CursorAdvanced s t ∧ KeepsCarry s t ∧ KeepsRolling s t ∧
        KeepsRunning s t ∧ OutsidePayloadKept s t ∧ Reconstructed .up s.bpp.toNat s t

/-- R127, R212 to R219: the six AVG specializations; the rolling words keep their values, and the registers a path does
not use: the carries and the vectors at 2 and 3 bytes per pixel, T0 at all but 1. -/
def Obligations.AvgVectorRowsReconstruct : Prop :=
  ∀ i : Sys2Proof.Instr, i ∈ [Sys2Proof.Instr.avgV1, .avgV2, .avgV3, .avgV4, .avgV6, .avgV8] →
    ∀ s : State, s.RowReady .avg → s.RunsIn i →
      ∃ t, exec i s = .next t ∧ RowFrame s t ∧ CursorAdvanced s t ∧ KeepsRolling s t ∧
        (i = .avgV2 ∨ i = .avgV3 → KeepsCarry s t ∧ KeepsVectors s t) ∧
        (i ≠ .avgV1 → KeepsRunning s t) ∧
        OutsidePayloadKept s t ∧ Reconstructed .avg s.bpp.toNat s t

/-- R127, R232 to R240: the six PAETH specializations; T0 keeps its value, and the registers a path does not use: the
vectors and the carries at 1 and 2 bytes per pixel, the rolling words at all but 1. -/
def Obligations.PaethVectorRowsReconstruct : Prop :=
  ∀ i : Sys2Proof.Instr, i ∈ [Sys2Proof.Instr.paethV1, .paethV2, .paethV3, .paethV4, .paethV6, .paethV8] →
    ∀ s : State, s.RowReady .paeth → s.RunsIn i →
      ∃ t, exec i s = .next t ∧ RowFrame s t ∧ CursorAdvanced s t ∧ KeepsRunning s t ∧
        (i = .paethV1 ∨ i = .paethV2 → KeepsVectors s t ∧ KeepsCarry s t) ∧ (i ≠ .paethV1 → KeepsRolling s t) ∧
        OutsidePayloadKept s t ∧ Reconstructed .paeth s.bpp.toNat s t

/-- R186, R133, R254: each of the thirty specializations leaves exactly the memory its base row leaves, the whole of it,
and the same cursor and status. -/
def Obligations.VectorRowEqualsBaseRow : Prop :=
  ∀ (f : Sys2Proof.Filter) (b : Sys2Proof.Bpp) (s : State), s.RowReady f → s.mode = some ⟨.simd, b⟩ →
    ∃ t t', exec (Sys2Proof.Instr.special f b) s = .next t ∧ exec (Sys2Proof.Instr.base f) s = .next t' ∧
      t.mem = t'.mem ∧ t.status = t'.status ∧ t.y = t'.y ∧ t.p = t'.p ∧ t.u = t'.u

/-- R126, R56: a row executed as row 0 leaves the memory that it leaves under a previous row of zeros: for every
instruction, whatever U held on row 0. -/
def Obligations.FirstRowSeesZeroRow : Prop :=
  ∀ (i : Sys2Proof.Instr) (s s' : State), s.RowReady i.filter → s'.RowReady i.filter → s.RunsIn i →
    s.y = 0 → s'.y ≠ 0 → s'.mem = s.mem → s'.p = s.p → s'.bpp = s.bpp → s'.bpl = s.bpl → s'.ksel = s.ksel →
    (∀ j < s.n, s'.mem.read (s'.u + j) = 0) →
    ∃ t t', exec i s = .next t ∧ exec i s' = .next t' ∧ t.mem = t'.mem

/-- R126: the substitution table of row 0: UP is NONE, PAETH is SUB, AVG leaves bytes `0..bpp` and adds half the
reconstructed byte `bpp` back to each later one. -/
def Obligations.FirstRowSubstitution : Prop :=
  ∀ s : State, s.RowReady .paeth → s.y = 0 →
    (∃ t, exec .up s = .next t ∧ t.mem = s.mem) ∧
    (∃ t t', exec .paeth s = .next t ∧ exec .sub s = .next t' ∧ t.mem = t'.mem) ∧
    (∃ t, exec .avg s = .next t ∧ (∀ i < s.bpp.toNat, t.mem.read (s.p + i) = s.mem.read (s.p + i)) ∧
      (∀ i, s.bpp.toNat ≤ i → i < s.n → (t.mem.read (s.p + i)).toNat =
        ((s.mem.read (s.p + i)).toNat + (t.mem.read (s.p + (i - s.bpp.toNat))).toNat / 2) % 256))

/-- R131: after every row instruction, whatever its opcode, U is the payload start of the row just finished, P the next
row's and Y one more; in a running invocation with rows left, that is `U = BUF + (Y − 1)·BPL + 1` and
`P = BUF + Y·BPL + 1`. -/
def Obligations.EveryRowAdvancesCursor : Prop :=
  ∀ (i : Sys2Proof.Instr) (s t : State), exec i s = .next t →
    CursorAdvanced s t ∧
    (s.Running → s.y.toNat + 1 < s.h.toNat →
      t.u = s.buf + (t.y.toNat - 1) * s.bpl.toNat + 1 ∧ t.p = s.buf + t.y.toNat * s.bpl.toNat + 1 ∧
      t.y.toNat = s.y.toNat + 1 ∧ t.status = .busy)

/-- Logs 15 and 16, the model's stops: a specialization outside its mode is refused; in its mode, a row under parameters
that violate P1 or P2 is refused with that precondition; a row of which a byte cannot be accessed (outside the address
space, or no ordinary memory) is that fault; every other row completes. -/
def Obligations.RowStopsExactlyWhen : Prop :=
  ∀ (i : Sys2Proof.Instr) (s : State),
    (¬s.RunsIn i → exec i s = .refused .wrongMode) ∧
    (s.RunsIn i → ∀ q, s.geometry? = some q → exec i s = .refused (.precondition q)) ∧
    (s.RunsIn i → s.geometry? = none → ∀ e, s.footprintFault i.filter = some e → exec i s = .fault e) ∧
    (s.RunsIn i → s.geometry? = none → s.footprintFault i.filter = none → ∃ t, exec i s = .next t)

end
end

