-- ==== Sys2Proof/Laws/Access.lean ====
section
/-! SUPPORT. Which bytes can be accessed: what the tests over the address space and its holes mean. -/

namespace Sys2Proof.Machine

/-- Clear of every region: no byte of the range is a byte of one. -/
theorem clearOf_iff {regions : List Region} {a n : Nat} : clearOf regions a n = true ↔
    ∀ x, a ≤ x → x < a + n → ∀ r ∈ regions, ¬(r.base ≤ x ∧ x < r.base + r.size) := by
  simp only [clearOf, List.all_eq_true, Bool.or_eq_true, beq_iff_eq, decide_eq_true_eq]
  constructor
  · intro h x h1 h2 r hr
    have := h r hr
    omega
  · intro h r hr
    have h1 := h a
    have h2 := h r.base
    have h1 := fun p q => h1 p q r hr
    have h2 := fun p q => h2 p q r hr
    omega

/-- A part of a clear range is clear. -/
theorem clearOf_part {regions : List Region} {a n b k : Nat} (h : clearOf regions a n = true) (h1 : a ≤ b)
    (h2 : b + k ≤ a + n) : clearOf regions b k = true :=
  clearOf_iff.2 fun x hx hk => clearOf_iff.1 h x (by omega) (by omega)

/-- Bytes can be accessed where they lie in the address space and clear of its holes. -/
theorem State.accessFault_none {s : State} {a n : Nat} :
    s.accessFault a n = none ↔ a + n ≤ 2 ^ s.addrW ∧ clearOf s.holes a n = true := by
  rw [State.accessFault]
  split
  · simp; omega
  · split <;> simp_all

/-- Why bytes cannot be accessed: they leave the address space, or one lies in a hole. -/
theorem State.accessFault_some {s : State} {a n : Nat} {e : Fault} (h : s.accessFault a n = some e) :
    (e = .outsideAddressSpace ∧ 2 ^ s.addrW < a + n) ∨
    (e = .noOrdinaryMemory ∧ a + n ≤ 2 ^ s.addrW ∧ clearOf s.holes a n = false) := by
  rw [State.accessFault] at h
  split at h
  · cases h; exact .inl ⟨rfl, ‹_›⟩
  · split at h
    · cases h
    · cases h; exact .inr ⟨rfl, by omega, Bool.eq_false_iff.2 ‹_›⟩

/-- A row can be accessed where its payload and, for a filter that reads it, the row above can. -/
theorem State.footprintFault_none {s : State} {f : Filter} : s.footprintFault f = none ↔
    (touchesPayload f = true → s.accessFault s.p s.n = none) ∧
    (readsAbove f = true → s.y ≠ 0#32 → s.accessFault s.u s.n = none) := by
  rw [State.footprintFault]
  cases ht : touchesPayload f <;> cases hr : readsAbove f <;> by_cases hy : s.y = 0#32 <;>
    cases hp : s.accessFault s.p s.n <;> simp [hy]

/-- The filter byte can be read where the cursor is not 0 and the byte before it can be accessed. -/
theorem State.fetchFault_none {s : State} :
    s.fetchFault = none ↔ 1 ≤ s.p ∧ s.accessFault (s.p - 1) 1 = none := by
  rw [State.fetchFault]
  split
  · simp; omega
  · simp; omega

end Sys2Proof.Machine
end

