-- ==== Sys2Proof/Laws/Coding.lean ====
section
/-! SUPPORT. Small laws of the instruction names, the opcode map and the decoder. -/

namespace Sys2Proof

/-- Every instruction is the base row of its filter or a specialization of it. -/
theorem Instr.base_or_special (i : Instr) :
    (i.bpp? = Option.none ∧ i = Instr.base i.filter) ∨ ∃ b, i.bpp? = some b ∧ i = Instr.special i.filter b := by
  cases i <;> first
    | exact .inl ⟨rfl, rfl⟩
    | exact .inr ⟨_, rfl, rfl⟩

@[simp] theorem Instr.filter_base (f : Filter) : (Instr.base f).filter = f := by cases f <;> rfl

@[simp] theorem Instr.filter_special (f : Filter) (b : Bpp) : (Instr.special f b).filter = f := by
  cases f <;> cases b <;> rfl

@[simp] theorem Instr.bpp?_base (f : Filter) : (Instr.base f).bpp? = Option.none := by cases f <;> rfl

@[simp] theorem Instr.bpp?_special (f : Filter) (b : Bpp) : (Instr.special f b).bpp? = some b := by
  cases f <;> cases b <;> rfl

theorem Bpp.ofNat?_eq_some {k : Nat} {b : Bpp} (h : Bpp.ofNat? k = some b) : b.toNat = k := by
  unfold Bpp.ofNat? at h
  split at h <;> first
    | (cases h; rfl)
    | cases h

theorem Bpp.toNat_pos (b : Bpp) : 0 < b.toNat := by cases b <;> decide

theorem Bpp.toNat_le (b : Bpp) : b.toNat ≤ 8 := by cases b <;> decide

theorem bplOk_iff {bpp bpl : Nat} : bplOk bpp bpl = true ↔ bpp + 1 ≤ bpl ∧ (bpl - 1) % bpp = 0 := by
  simp [bplOk]


theorem Filter.ofByte?_toByte (f : Filter) : Filter.ofByte? f.toByte = some f := by cases f <;> rfl

theorem Filter.toByte_of_ofByte? {b : Byte} {f : Filter} (h : Filter.ofByte? b = some f) : f.toByte = b := by
  rw [Filter.ofByte?] at h
  apply BitVec.eq_of_toNat_eq
  split at h <;> cases h <;> (rename_i h0; rw [h0]; rfl)

/-- The opcode bytes from 5 on are the reserved ones (R87). -/
theorem Filter.ofByte?_eq_none {b : Byte} : Filter.ofByte? b = Option.none ↔ 5 ≤ b.toNat := by
  constructor
  · intro h
    by_contra hlt
    obtain hb | hb | hb | hb | hb : b.toNat = 0 ∨ b.toNat = 1 ∨ b.toNat = 2 ∨ b.toNat = 3 ∨ b.toNat = 4 := by omega
    all_goals
      rw [Filter.ofByte?, hb] at h
      cases h
  · intro h
    rw [Filter.ofByte?]
    split
    case h_6 => rfl
    all_goals omega

theorem Filter.ofByte?_of_lt {b : Byte} (h : b.toNat < 5) : ∃ f, Filter.ofByte? b = some f := by
  cases hf : Filter.ofByte? b with
  | some f => exact ⟨f, rfl⟩
  | none => have := Filter.ofByte?_eq_none.1 hf; omega

/-- A mode runs what it selects. -/
theorem Instr.wf_select (m : Mode) (f : Filter) : (Instr.select m f).wf m = true := by
  obtain ⟨k, b⟩ := m
  cases k <;> cases f <;> cases b <;> rfl

@[simp] theorem Instr.filter_select (m : Mode) (f : Filter) : (Instr.select m f).filter = f := by
  cases m with | mk k b => cases k <;> simp [Instr.select]

/-- What a mode runs is what it selects for the instruction's filter. -/
theorem Instr.select_of_wf {m : Mode} {i : Instr} (h : i.wf m = true) : Instr.select m i.filter = i := by
  obtain ⟨k, b⟩ := m
  cases k <;> cases i <;> cases b <;> first
    | rfl
    | exact absurd h (by decide)

theorem decodeOpcode_ok {m : Mode} {b : Byte} {f : Filter} (h : Filter.ofByte? b = some f) :
    decodeOpcode m b = .ok (Instr.select m f) := by rw [decodeOpcode, h]

theorem decodeOpcode_reserved {m : Mode} {b : Byte} (h : 5 ≤ b.toNat) :
    decodeOpcode m b = .error (.reservedOpcode b) := by rw [decodeOpcode, Filter.ofByte?_eq_none.2 h]

/-- The opcode byte of a decoded row decides its instruction. -/
theorem decode_head {m : Mode} {bpl : Nat} {ft : Byte} {bytes : List Byte} {r : Row} {rest : List Byte}
    (h : decode m bpl (ft :: bytes) = .ok (r, rest)) : decodeOpcode m ft = .ok r.op := by
  rw [decode] at h
  cases hd : decodeOpcode m ft with
  | error e => rw [hd] at h; cases h
  | ok i =>
    rw [hd] at h
    simp only at h
    split at h
    · cases h
    · split at h
      · cases h
      · cases h; rfl

end Sys2Proof
end

