-- ==== Sys2Proof/Laws/Memory.lean ====
section
/-! SUPPORT. Memory: a read after a write, the canonical form, and equality of memories that read alike. -/

namespace Sys2Proof.Machine

/-- Every listed address is below a limit. -/
abbrev Memory.below (m : Memory) (limit : Nat) : Prop := ∀ x ∈ m, x.1 < limit

theorem Memory.read_nil (a : Nat) : Memory.read [] a = Config.unlistedByte := rfl

theorem Memory.read_cons (k : Nat) (x : Byte) (m : Memory) (a : Nat) :
    Memory.read ((k, x) :: m) a = if k = a then x else Memory.read m a := rfl

theorem Memory.read_of_forall_ne {m : Memory} {a : Nat} (h : ∀ x ∈ m, x.1 ≠ a) :
    m.read a = Config.unlistedByte := by
  induction m with
  | nil => rfl
  | cons c m ih =>
    rw [Memory.read_cons, if_neg (h c (by simp)), ih fun x hx => h x (by simp [hx])]

theorem Memory.wf_nil : Memory.wf [] := by simp [Memory.wf]

theorem Memory.wf.tail {c : Host.Cell} {m : Memory} (h : Memory.wf (c :: m)) : Memory.wf m :=
  ⟨(List.pairwise_cons.1 h.1).2, fun x hx => h.2 x (by simp [hx])⟩

theorem Memory.wf.head_lt {c : Host.Cell} {m : Memory} (h : Memory.wf (c :: m)) : ∀ x ∈ m, c.1 < x.1 :=
  (List.pairwise_cons.1 h.1).1

/-- An address below every listed one reads as unlisted. -/
theorem Memory.wf.read_head {c : Host.Cell} {m : Memory} (h : Memory.wf (c :: m)) {a : Nat} (ha : a ≤ c.1) :
    m.read a = Config.unlistedByte :=
  Memory.read_of_forall_ne fun x hx => by have := h.head_lt x hx; omega

/-- What is listed after a write was listed before, or is the byte written. -/
theorem Memory.mem_write {m : Memory} {a : Nat} {b : Byte} {x : Host.Cell} (h : x ∈ m.write a b) :
    x ∈ m ∨ (x = (a, b) ∧ b ≠ Config.unlistedByte) := by
  induction m with
  | nil =>
    by_cases hb : b = Config.unlistedByte <;> simp [Memory.write, hb] at h
    exact .inr ⟨h, hb⟩
  | cons c m ih =>
    obtain ⟨k, y⟩ := c
    rw [Memory.write] at h
    split at h
    · rcases List.mem_cons.1 h with h | h
      · simp [h]
      · rcases ih h with h | h <;> simp [h]
    · split at h
      · split at h
        · simp [h]
        · rename_i hb
          rcases List.mem_cons.1 h with h | h
          · exact .inr ⟨h, hb⟩
          · simp [h]
      · split at h
        · exact .inl h
        · rename_i hb
          rcases List.mem_cons.1 h with h | h
          · exact .inr ⟨h, hb⟩
          · exact .inl h

/-- A write keeps the canonical form. -/
theorem Memory.wf_write {m : Memory} (h : m.wf) (a : Nat) (b : Byte) : (m.write a b).wf := by
  induction m with
  | nil =>
    rw [Memory.write]
    split
    · exact Memory.wf_nil
    · rename_i hb
      exact ⟨by simp, by simpa using hb⟩
  | cons c m ih =>
    obtain ⟨k, y⟩ := c
    have hl := h.head_lt
    rw [Memory.write]
    split
    · rename_i hka
      refine ⟨List.pairwise_cons.2 ⟨fun x hx => ?_, (ih h.tail).1⟩, fun x hx => ?_⟩
      · rcases Memory.mem_write hx with hx | hx
        · exact hl x hx
        · simpa [hx.1] using hka
      · rcases List.mem_cons.1 hx with hx | hx
        · exact h.2 x (by simp [hx])
        · exact (ih h.tail).2 x hx
    · split
      · rename_i hka
        split
        · exact h.tail
        · rename_i hb
          refine ⟨List.pairwise_cons.2 ⟨fun x hx => ?_, h.tail.1⟩, fun x hx => ?_⟩
          · simpa [← hka] using hl x hx
          · rcases List.mem_cons.1 hx with hx | hx
            · simpa [hx] using hb
            · exact h.tail.2 x hx
      · split
        · exact h
        · rename_i hka hne hb
          refine ⟨List.pairwise_cons.2 ⟨fun x hx => ?_, h.1⟩, fun x hx => ?_⟩
          · rcases List.mem_cons.1 hx with hx | hx
            · simp [hx]; omega
            · have := hl x hx
              simp at this ⊢; omega
          · rcases List.mem_cons.1 hx with hx | hx
            · simpa [hx] using hb
            · exact h.2 x hx

/-- A read elsewhere than at the byte written sees what it saw before. -/
theorem Memory.read_write_ne {m : Memory} {a x : Nat} (b : Byte) (h : x ≠ a) : (m.write a b).read x = m.read x := by
  induction m with
  | nil =>
    rw [Memory.write]
    split
    · rfl
    · rw [Memory.read_cons, if_neg (Ne.symm h)]
  | cons c m ih =>
    obtain ⟨k, y⟩ := c
    rw [Memory.write]
    split
    · rw [Memory.read_cons, Memory.read_cons, ih]
    · split
      · rename_i hka
        split
        · rw [Memory.read_cons, if_neg (by omega)]
        · rw [Memory.read_cons, if_neg (Ne.symm h), Memory.read_cons, if_neg (by omega)]
      · split
        · rfl
        · rw [Memory.read_cons, if_neg (Ne.symm h)]

/-- A read at the byte written sees it. -/
theorem Memory.read_write_same {m : Memory} (h : m.wf) (a : Nat) (b : Byte) : (m.write a b).read a = b := by
  induction m with
  | nil =>
    rw [Memory.write]
    split
    · rename_i hb; exact hb.symm
    · rw [Memory.read_cons, if_pos rfl]
  | cons c m ih =>
    obtain ⟨k, y⟩ := c
    rw [Memory.write]
    split
    · rw [Memory.read_cons, if_neg (by omega), ih h.tail]
    · split
      · rename_i hka
        split
        · rename_i hb
          rw [hb, h.read_head (by simp [hka])]
        · rw [Memory.read_cons, if_pos rfl]
      · split
        · rename_i hka hne hb
          rw [hb, Memory.read_cons, if_neg hne, h.read_head (by simp; omega)]
        · rw [Memory.read_cons, if_pos rfl]

theorem Memory.read_write {m : Memory} (h : m.wf) (a : Nat) (b : Byte) (x : Nat) :
    (m.write a b).read x = if x = a then b else m.read x := by
  split
  · rename_i hx; rw [hx, Memory.read_write_same h]
  · rename_i hx; rw [Memory.read_write_ne b hx]

theorem Memory.below_write {m : Memory} {limit a : Nat} (h : m.below limit) (ha : a < limit) (b : Byte) :
    (m.write a b).below limit := fun x hx => by
  rcases Memory.mem_write hx with hx | hx
  · exact h x hx
  · simpa [hx.1] using ha

theorem Memory.wf_writeBytes {m : Memory} (h : m.wf) (a : Nat) (f : Nat → Byte) (k : Nat) :
    (m.writeBytes a f k).wf := by
  induction k with
  | zero => exact h
  | succ k ih => exact Memory.wf_write ih _ _

theorem Memory.below_writeBytes {m : Memory} {limit a k : Nat} (h : m.below limit) (ha : a + k ≤ limit)
    (f : Nat → Byte) : (m.writeBytes a f k).below limit := by
  induction k with
  | zero => exact h
  | succ k ih => exact Memory.below_write (ih (by omega)) (by omega) _

/-- A read after a store of several bytes. -/
theorem Memory.read_writeBytes {m : Memory} (h : m.wf) (a : Nat) (f : Nat → Byte) (k x : Nat) :
    (m.writeBytes a f k).read x = if a ≤ x ∧ x < a + k then f (x - a) else m.read x := by
  induction k with
  | zero => rw [if_neg (by omega)]; rfl
  | succ k ih =>
    rw [Memory.writeBytes, Memory.read_write (Memory.wf_writeBytes h a f k), ih]
    by_cases h1 : x = a + k
    · rw [if_pos h1, if_pos (by omega), h1, Nat.add_sub_cancel_left]
    · rw [if_neg h1]
      by_cases h2 : a ≤ x ∧ x < a + k
      · rw [if_pos h2, if_pos (by omega)]
      · rw [if_neg h2, if_neg (by omega)]

/-- A listed byte of a memory in canonical form is what its address reads as. -/
theorem Memory.wf.read_of_mem {m : Memory} (h : m.wf) {x : Host.Cell} (hx : x ∈ m) : m.read x.1 = x.2 := by
  induction m with
  | nil => simp at hx
  | cons c m ih =>
    obtain ⟨k, y⟩ := c
    rcases List.mem_cons.1 hx with hx | hx
    · rw [hx, Memory.read_cons, if_pos rfl]
    · have := h.head_lt x hx
      rw [Memory.read_cons, if_neg (by simp at this; omega), ih h.tail hx]

/-- Memories in canonical form that read alike are equal. -/
theorem Memory.ext_read {m m' : Memory} (h : m.wf) (h' : m'.wf) (he : ∀ a, m.read a = m'.read a) : m = m' := by
  induction m generalizing m' with
  | nil =>
    cases m' with
    | nil => rfl
    | cons c m' =>
      have := he c.1
      rw [h'.read_of_mem (by simp), Memory.read_nil] at this
      exact absurd this.symm (h'.2 c (by simp))
  | cons c m ih =>
    cases m' with
    | nil =>
      have := he c.1
      rw [h.read_of_mem (by simp), Memory.read_nil] at this
      exact absurd this (h.2 c (by simp))
    | cons c' m' =>
      obtain ⟨k, y⟩ := c
      obtain ⟨k', y'⟩ := c'
      have hk : k = k' := by
        rcases Nat.lt_trichotomy k k' with hlt | heq | hgt
        · have h1 := he k
          rw [Memory.read_cons, if_pos rfl, Memory.read_cons, if_neg (by omega), h'.read_head (by simp; omega)] at h1
          exact absurd h1 (h.2 (k, y) (by simp))
        · exact heq
        · have h1 := he k'
          rw [Memory.read_cons, if_neg (by omega), h.read_head (by simp; omega), Memory.read_cons, if_pos rfl] at h1
          exact absurd h1.symm (h'.2 (k', y') (by simp))
      subst hk
      have hy : y = y' := by
        have h1 := he k
        rwa [Memory.read_cons, if_pos rfl, Memory.read_cons, if_pos rfl] at h1
      subst hy
      congr 1
      refine ih h.tail h'.tail fun a => ?_
      by_cases ha : k = a
      · subst ha
        rw [h.read_head (by simp), h'.read_head (by simp)]
      · have h1 := he a
        rwa [Memory.read_cons, if_neg ha, Memory.read_cons, if_neg ha] at h1

/-- After a reset during BUSY: what an address reads as (R292). -/
theorem read_scramblePayload {m : Memory} (h : m.wf) (buf bpl k count x : Nat) :
    (scramblePayload buf bpl k m count).wf ∧
      (scramblePayload buf bpl k m count).read x =
        if buf ≤ x ∧ x < buf + count ∧ (x - buf) % bpl ≠ 0 then Config.freeValue 8 (.payload x) k else m.read x := by
  induction count with
  | zero => exact ⟨h, by rw [if_neg (by omega)]; rfl⟩
  | succ o ih =>
    rw [scramblePayload]
    by_cases ho : o % bpl = 0
    · rw [if_pos ho]
      refine ⟨ih.1, ih.2.trans ?_⟩
      by_cases hx : x = buf + o
      · rw [if_neg (by omega), if_neg (by simp [hx, ho])]
      · exact if_congr ⟨fun h => ⟨h.1, by omega, h.2.2⟩, fun h => ⟨h.1, by omega, h.2.2⟩⟩ rfl rfl
    · rw [if_neg ho]
      refine ⟨Memory.wf_write ih.1 _ _, ?_⟩
      rw [Memory.read_write ih.1, ih.2]
      by_cases hx : x = buf + o
      · rw [if_pos hx, if_pos ⟨by omega, by omega, by simpa [hx] using ho⟩, hx]
      · rw [if_neg hx]
        exact if_congr ⟨fun h => ⟨h.1, by omega, h.2.2⟩, fun h => ⟨h.1, by omega, h.2.2⟩⟩ rfl rfl

theorem below_scramblePayload {m : Memory} {limit : Nat} (h : m.below limit) {buf count : Nat}
    (hb : buf + count ≤ limit) (bpl k : Nat) : (scramblePayload buf bpl k m count).below limit := by
  induction count with
  | zero => exact h
  | succ o ih =>
    rw [scramblePayload]
    split
    · exact ih (by omega)
    · exact Memory.below_write (ih (by omega)) (by omega) _

end Sys2Proof.Machine
end

