-- ==== Sys2Proof/Laws/State.lean ====
section
/-! SUPPORT. What each update of the state leaves in each field: one lemma for each update and field. -/

namespace Sys2Proof.Machine

/-! ### advance -/

@[simp] theorem State.advance_addrW (s : State) : (s.advance).addrW = s.addrW := rfl
@[simp] theorem State.advance_holes (s : State) : (s.advance).holes = s.holes := rfl
@[simp] theorem State.advance_buf (s : State) : (s.advance).buf = s.buf := rfl
@[simp] theorem State.advance_h (s : State) : (s.advance).h = s.h := rfl
@[simp] theorem State.advance_bpp (s : State) : (s.advance).bpp = s.bpp := rfl
@[simp] theorem State.advance_bpl (s : State) : (s.advance).bpl = s.bpl := rfl
@[simp] theorem State.advance_ksel (s : State) : (s.advance).ksel = s.ksel := rfl
@[simp] theorem State.advance_written (s : State) : (s.advance).written = s.written := rfl
@[simp] theorem State.advance_status (s : State) : (s.advance).status = if s.y + 1#32 = s.h then .done else s.status := rfl
@[simp] theorem State.advance_fcause (s : State) : (s.advance).fcause = s.fcause := rfl
@[simp] theorem State.advance_frow (s : State) : (s.advance).frow = s.frow := rfl
@[simp] theorem State.advance_fbyte (s : State) : (s.advance).fbyte = s.fbyte := rfl
@[simp] theorem State.advance_y (s : State) : (s.advance).y = s.y + 1#32 := rfl
@[simp] theorem State.advance_p (s : State) : (s.advance).p = fitAddr s .p (s.p + s.bpl.toNat) := rfl
@[simp] theorem State.advance_u (s : State) : (s.advance).u = s.p := rfl
@[simp] theorem State.advance_ft (s : State) : (s.advance).ft = s.ft := rfl
@[simp] theorem State.advance_i (s : State) : (s.advance).i = s.i := rfl
@[simp] theorem State.advance_v (s : State) : (s.advance).v = s.v := rfl
@[simp] theorem State.advance_c (s : State) : (s.advance).c = s.c := rfl
@[simp] theorem State.advance_cw (s : State) : (s.advance).cw = s.cw := rfl
@[simp] theorem State.advance_pz (s : State) : (s.advance).pz = s.pz := rfl
@[simp] theorem State.advance_uz (s : State) : (s.advance).uz = s.uz := rfl
@[simp] theorem State.advance_t0 (s : State) : (s.advance).t0 = s.t0 := rfl
@[simp] theorem State.advance_mem (s : State) : (s.advance).mem = s.mem := rfl
@[simp] theorem State.advance_inputs (s : State) : (s.advance).inputs = s.inputs := rfl
@[simp] theorem State.advance_readData (s : State) : (s.advance).readData = s.readData := rfl
@[simp] theorem State.advance_fresh (s : State) : (s.advance).fresh = s.fresh + 1 := rfl
@[simp] theorem State.advance_n (s : State) : (s.advance).n = s.n := rfl

/-! ### dropIndex -/

@[simp] theorem State.dropIndex_addrW (s : State) : (s.dropIndex).addrW = s.addrW := rfl
@[simp] theorem State.dropIndex_holes (s : State) : (s.dropIndex).holes = s.holes := rfl
@[simp] theorem State.dropIndex_buf (s : State) : (s.dropIndex).buf = s.buf := rfl
@[simp] theorem State.dropIndex_h (s : State) : (s.dropIndex).h = s.h := rfl
@[simp] theorem State.dropIndex_bpp (s : State) : (s.dropIndex).bpp = s.bpp := rfl
@[simp] theorem State.dropIndex_bpl (s : State) : (s.dropIndex).bpl = s.bpl := rfl
@[simp] theorem State.dropIndex_ksel (s : State) : (s.dropIndex).ksel = s.ksel := rfl
@[simp] theorem State.dropIndex_written (s : State) : (s.dropIndex).written = s.written := rfl
@[simp] theorem State.dropIndex_status (s : State) : (s.dropIndex).status = s.status := rfl
@[simp] theorem State.dropIndex_fcause (s : State) : (s.dropIndex).fcause = s.fcause := rfl
@[simp] theorem State.dropIndex_frow (s : State) : (s.dropIndex).frow = s.frow := rfl
@[simp] theorem State.dropIndex_fbyte (s : State) : (s.dropIndex).fbyte = s.fbyte := rfl
@[simp] theorem State.dropIndex_y (s : State) : (s.dropIndex).y = s.y := rfl
@[simp] theorem State.dropIndex_p (s : State) : (s.dropIndex).p = s.p := rfl
@[simp] theorem State.dropIndex_u (s : State) : (s.dropIndex).u = s.u := rfl
@[simp] theorem State.dropIndex_ft (s : State) : (s.dropIndex).ft = s.ft := rfl
@[simp] theorem State.dropIndex_i (s : State) : (s.dropIndex).i = Config.freeValue 32 .i s.fresh := rfl
@[simp] theorem State.dropIndex_v (s : State) : (s.dropIndex).v = s.v := rfl
@[simp] theorem State.dropIndex_c (s : State) : (s.dropIndex).c = s.c := rfl
@[simp] theorem State.dropIndex_cw (s : State) : (s.dropIndex).cw = s.cw := rfl
@[simp] theorem State.dropIndex_pz (s : State) : (s.dropIndex).pz = s.pz := rfl
@[simp] theorem State.dropIndex_uz (s : State) : (s.dropIndex).uz = s.uz := rfl
@[simp] theorem State.dropIndex_t0 (s : State) : (s.dropIndex).t0 = s.t0 := rfl
@[simp] theorem State.dropIndex_mem (s : State) : (s.dropIndex).mem = s.mem := rfl
@[simp] theorem State.dropIndex_inputs (s : State) : (s.dropIndex).inputs = s.inputs := rfl
@[simp] theorem State.dropIndex_readData (s : State) : (s.dropIndex).readData = s.readData := rfl
@[simp] theorem State.dropIndex_fresh (s : State) : (s.dropIndex).fresh = s.fresh := rfl
@[simp] theorem State.dropIndex_n (s : State) : (s.dropIndex).n = s.n := rfl

/-! ### dropVectors -/

@[simp] theorem State.dropVectors_addrW (s : State) : (s.dropVectors).addrW = s.addrW := by simp only [State.dropVectors]
@[simp] theorem State.dropVectors_holes (s : State) : (s.dropVectors).holes = s.holes := by simp only [State.dropVectors]
@[simp] theorem State.dropVectors_buf (s : State) : (s.dropVectors).buf = s.buf := by simp only [State.dropVectors]
@[simp] theorem State.dropVectors_h (s : State) : (s.dropVectors).h = s.h := by simp only [State.dropVectors]
@[simp] theorem State.dropVectors_bpp (s : State) : (s.dropVectors).bpp = s.bpp := by simp only [State.dropVectors]
@[simp] theorem State.dropVectors_bpl (s : State) : (s.dropVectors).bpl = s.bpl := by simp only [State.dropVectors]
@[simp] theorem State.dropVectors_ksel (s : State) : (s.dropVectors).ksel = s.ksel := by simp only [State.dropVectors]
@[simp] theorem State.dropVectors_written (s : State) : (s.dropVectors).written = s.written := by simp only [State.dropVectors]
@[simp] theorem State.dropVectors_status (s : State) : (s.dropVectors).status = s.status := by simp only [State.dropVectors]
@[simp] theorem State.dropVectors_fcause (s : State) : (s.dropVectors).fcause = s.fcause := by simp only [State.dropVectors]
@[simp] theorem State.dropVectors_frow (s : State) : (s.dropVectors).frow = s.frow := by simp only [State.dropVectors]
@[simp] theorem State.dropVectors_fbyte (s : State) : (s.dropVectors).fbyte = s.fbyte := by simp only [State.dropVectors]
@[simp] theorem State.dropVectors_y (s : State) : (s.dropVectors).y = s.y := by simp only [State.dropVectors]
@[simp] theorem State.dropVectors_p (s : State) : (s.dropVectors).p = s.p := by simp only [State.dropVectors]
@[simp] theorem State.dropVectors_u (s : State) : (s.dropVectors).u = s.u := by simp only [State.dropVectors]
@[simp] theorem State.dropVectors_ft (s : State) : (s.dropVectors).ft = s.ft := by simp only [State.dropVectors]
@[simp] theorem State.dropVectors_i (s : State) : (s.dropVectors).i = s.i := by simp only [State.dropVectors]
@[simp] theorem State.dropVectors_v (s : State) : (s.dropVectors).v = Vector.ofFn fun j => Config.freeValue 128 (.v j.val) s.fresh := by simp only [State.dropVectors]
@[simp] theorem State.dropVectors_c (s : State) : (s.dropVectors).c = s.c := by simp only [State.dropVectors]
@[simp] theorem State.dropVectors_cw (s : State) : (s.dropVectors).cw = s.cw := by simp only [State.dropVectors]
@[simp] theorem State.dropVectors_pz (s : State) : (s.dropVectors).pz = s.pz := by simp only [State.dropVectors]
@[simp] theorem State.dropVectors_uz (s : State) : (s.dropVectors).uz = s.uz := by simp only [State.dropVectors]
@[simp] theorem State.dropVectors_t0 (s : State) : (s.dropVectors).t0 = s.t0 := by simp only [State.dropVectors]
@[simp] theorem State.dropVectors_mem (s : State) : (s.dropVectors).mem = s.mem := by simp only [State.dropVectors]
@[simp] theorem State.dropVectors_inputs (s : State) : (s.dropVectors).inputs = s.inputs := by simp only [State.dropVectors]
@[simp] theorem State.dropVectors_readData (s : State) : (s.dropVectors).readData = s.readData := by simp only [State.dropVectors]
@[simp] theorem State.dropVectors_fresh (s : State) : (s.dropVectors).fresh = s.fresh := by simp only [State.dropVectors]
@[simp] theorem State.dropVectors_n (s : State) : (s.dropVectors).n = s.n := by simp only [State.n, State.dropVectors]

/-! ### dropCarry -/

@[simp] theorem State.dropCarry_addrW (s : State) : (s.dropCarry).addrW = s.addrW := rfl
@[simp] theorem State.dropCarry_holes (s : State) : (s.dropCarry).holes = s.holes := rfl
@[simp] theorem State.dropCarry_buf (s : State) : (s.dropCarry).buf = s.buf := rfl
@[simp] theorem State.dropCarry_h (s : State) : (s.dropCarry).h = s.h := rfl
@[simp] theorem State.dropCarry_bpp (s : State) : (s.dropCarry).bpp = s.bpp := rfl
@[simp] theorem State.dropCarry_bpl (s : State) : (s.dropCarry).bpl = s.bpl := rfl
@[simp] theorem State.dropCarry_ksel (s : State) : (s.dropCarry).ksel = s.ksel := rfl
@[simp] theorem State.dropCarry_written (s : State) : (s.dropCarry).written = s.written := rfl
@[simp] theorem State.dropCarry_status (s : State) : (s.dropCarry).status = s.status := rfl
@[simp] theorem State.dropCarry_fcause (s : State) : (s.dropCarry).fcause = s.fcause := rfl
@[simp] theorem State.dropCarry_frow (s : State) : (s.dropCarry).frow = s.frow := rfl
@[simp] theorem State.dropCarry_fbyte (s : State) : (s.dropCarry).fbyte = s.fbyte := rfl
@[simp] theorem State.dropCarry_y (s : State) : (s.dropCarry).y = s.y := rfl
@[simp] theorem State.dropCarry_p (s : State) : (s.dropCarry).p = s.p := rfl
@[simp] theorem State.dropCarry_u (s : State) : (s.dropCarry).u = s.u := rfl
@[simp] theorem State.dropCarry_ft (s : State) : (s.dropCarry).ft = s.ft := rfl
@[simp] theorem State.dropCarry_i (s : State) : (s.dropCarry).i = s.i := rfl
@[simp] theorem State.dropCarry_v (s : State) : (s.dropCarry).v = s.v := rfl
@[simp] theorem State.dropCarry_c (s : State) : (s.dropCarry).c = Config.freeValue 128 .c s.fresh := rfl
@[simp] theorem State.dropCarry_cw (s : State) : (s.dropCarry).cw = Config.freeValue 128 .cw s.fresh := rfl
@[simp] theorem State.dropCarry_pz (s : State) : (s.dropCarry).pz = s.pz := rfl
@[simp] theorem State.dropCarry_uz (s : State) : (s.dropCarry).uz = s.uz := rfl
@[simp] theorem State.dropCarry_t0 (s : State) : (s.dropCarry).t0 = s.t0 := rfl
@[simp] theorem State.dropCarry_mem (s : State) : (s.dropCarry).mem = s.mem := rfl
@[simp] theorem State.dropCarry_inputs (s : State) : (s.dropCarry).inputs = s.inputs := rfl
@[simp] theorem State.dropCarry_readData (s : State) : (s.dropCarry).readData = s.readData := rfl
@[simp] theorem State.dropCarry_fresh (s : State) : (s.dropCarry).fresh = s.fresh := rfl
@[simp] theorem State.dropCarry_n (s : State) : (s.dropCarry).n = s.n := rfl

/-! ### dropRolling -/

@[simp] theorem State.dropRolling_addrW (s : State) : (s.dropRolling).addrW = s.addrW := rfl
@[simp] theorem State.dropRolling_holes (s : State) : (s.dropRolling).holes = s.holes := rfl
@[simp] theorem State.dropRolling_buf (s : State) : (s.dropRolling).buf = s.buf := rfl
@[simp] theorem State.dropRolling_h (s : State) : (s.dropRolling).h = s.h := rfl
@[simp] theorem State.dropRolling_bpp (s : State) : (s.dropRolling).bpp = s.bpp := rfl
@[simp] theorem State.dropRolling_bpl (s : State) : (s.dropRolling).bpl = s.bpl := rfl
@[simp] theorem State.dropRolling_ksel (s : State) : (s.dropRolling).ksel = s.ksel := rfl
@[simp] theorem State.dropRolling_written (s : State) : (s.dropRolling).written = s.written := rfl
@[simp] theorem State.dropRolling_status (s : State) : (s.dropRolling).status = s.status := rfl
@[simp] theorem State.dropRolling_fcause (s : State) : (s.dropRolling).fcause = s.fcause := rfl
@[simp] theorem State.dropRolling_frow (s : State) : (s.dropRolling).frow = s.frow := rfl
@[simp] theorem State.dropRolling_fbyte (s : State) : (s.dropRolling).fbyte = s.fbyte := rfl
@[simp] theorem State.dropRolling_y (s : State) : (s.dropRolling).y = s.y := rfl
@[simp] theorem State.dropRolling_p (s : State) : (s.dropRolling).p = s.p := rfl
@[simp] theorem State.dropRolling_u (s : State) : (s.dropRolling).u = s.u := rfl
@[simp] theorem State.dropRolling_ft (s : State) : (s.dropRolling).ft = s.ft := rfl
@[simp] theorem State.dropRolling_i (s : State) : (s.dropRolling).i = s.i := rfl
@[simp] theorem State.dropRolling_v (s : State) : (s.dropRolling).v = s.v := rfl
@[simp] theorem State.dropRolling_c (s : State) : (s.dropRolling).c = s.c := rfl
@[simp] theorem State.dropRolling_cw (s : State) : (s.dropRolling).cw = s.cw := rfl
@[simp] theorem State.dropRolling_pz (s : State) : (s.dropRolling).pz = Config.freeValue 32 .pz s.fresh := rfl
@[simp] theorem State.dropRolling_uz (s : State) : (s.dropRolling).uz = Config.freeValue 32 .uz s.fresh := rfl
@[simp] theorem State.dropRolling_t0 (s : State) : (s.dropRolling).t0 = s.t0 := rfl
@[simp] theorem State.dropRolling_mem (s : State) : (s.dropRolling).mem = s.mem := rfl
@[simp] theorem State.dropRolling_inputs (s : State) : (s.dropRolling).inputs = s.inputs := rfl
@[simp] theorem State.dropRolling_readData (s : State) : (s.dropRolling).readData = s.readData := rfl
@[simp] theorem State.dropRolling_fresh (s : State) : (s.dropRolling).fresh = s.fresh := rfl
@[simp] theorem State.dropRolling_n (s : State) : (s.dropRolling).n = s.n := rfl

/-! ### dropRunning -/

@[simp] theorem State.dropRunning_addrW (s : State) : (s.dropRunning).addrW = s.addrW := rfl
@[simp] theorem State.dropRunning_holes (s : State) : (s.dropRunning).holes = s.holes := rfl
@[simp] theorem State.dropRunning_buf (s : State) : (s.dropRunning).buf = s.buf := rfl
@[simp] theorem State.dropRunning_h (s : State) : (s.dropRunning).h = s.h := rfl
@[simp] theorem State.dropRunning_bpp (s : State) : (s.dropRunning).bpp = s.bpp := rfl
@[simp] theorem State.dropRunning_bpl (s : State) : (s.dropRunning).bpl = s.bpl := rfl
@[simp] theorem State.dropRunning_ksel (s : State) : (s.dropRunning).ksel = s.ksel := rfl
@[simp] theorem State.dropRunning_written (s : State) : (s.dropRunning).written = s.written := rfl
@[simp] theorem State.dropRunning_status (s : State) : (s.dropRunning).status = s.status := rfl
@[simp] theorem State.dropRunning_fcause (s : State) : (s.dropRunning).fcause = s.fcause := rfl
@[simp] theorem State.dropRunning_frow (s : State) : (s.dropRunning).frow = s.frow := rfl
@[simp] theorem State.dropRunning_fbyte (s : State) : (s.dropRunning).fbyte = s.fbyte := rfl
@[simp] theorem State.dropRunning_y (s : State) : (s.dropRunning).y = s.y := rfl
@[simp] theorem State.dropRunning_p (s : State) : (s.dropRunning).p = s.p := rfl
@[simp] theorem State.dropRunning_u (s : State) : (s.dropRunning).u = s.u := rfl
@[simp] theorem State.dropRunning_ft (s : State) : (s.dropRunning).ft = s.ft := rfl
@[simp] theorem State.dropRunning_i (s : State) : (s.dropRunning).i = s.i := rfl
@[simp] theorem State.dropRunning_v (s : State) : (s.dropRunning).v = s.v := rfl
@[simp] theorem State.dropRunning_c (s : State) : (s.dropRunning).c = s.c := rfl
@[simp] theorem State.dropRunning_cw (s : State) : (s.dropRunning).cw = s.cw := rfl
@[simp] theorem State.dropRunning_pz (s : State) : (s.dropRunning).pz = s.pz := rfl
@[simp] theorem State.dropRunning_uz (s : State) : (s.dropRunning).uz = s.uz := rfl
@[simp] theorem State.dropRunning_t0 (s : State) : (s.dropRunning).t0 = Config.freeValue 32 .t0 s.fresh := rfl
@[simp] theorem State.dropRunning_mem (s : State) : (s.dropRunning).mem = s.mem := rfl
@[simp] theorem State.dropRunning_inputs (s : State) : (s.dropRunning).inputs = s.inputs := rfl
@[simp] theorem State.dropRunning_readData (s : State) : (s.dropRunning).readData = s.readData := rfl
@[simp] theorem State.dropRunning_fresh (s : State) : (s.dropRunning).fresh = s.fresh := rfl
@[simp] theorem State.dropRunning_n (s : State) : (s.dropRunning).n = s.n := rfl

/-! ### dropFaultRecord -/

@[simp] theorem State.dropFaultRecord_addrW (s : State) : (s.dropFaultRecord).addrW = s.addrW := rfl
@[simp] theorem State.dropFaultRecord_holes (s : State) : (s.dropFaultRecord).holes = s.holes := rfl
@[simp] theorem State.dropFaultRecord_buf (s : State) : (s.dropFaultRecord).buf = s.buf := rfl
@[simp] theorem State.dropFaultRecord_h (s : State) : (s.dropFaultRecord).h = s.h := rfl
@[simp] theorem State.dropFaultRecord_bpp (s : State) : (s.dropFaultRecord).bpp = s.bpp := rfl
@[simp] theorem State.dropFaultRecord_bpl (s : State) : (s.dropFaultRecord).bpl = s.bpl := rfl
@[simp] theorem State.dropFaultRecord_ksel (s : State) : (s.dropFaultRecord).ksel = s.ksel := rfl
@[simp] theorem State.dropFaultRecord_written (s : State) : (s.dropFaultRecord).written = s.written := rfl
@[simp] theorem State.dropFaultRecord_status (s : State) : (s.dropFaultRecord).status = s.status := rfl
@[simp] theorem State.dropFaultRecord_fcause (s : State) : (s.dropFaultRecord).fcause = Config.freeValue 8 .fcause s.fresh := rfl
@[simp] theorem State.dropFaultRecord_frow (s : State) : (s.dropFaultRecord).frow = Config.freeValue 32 .frow s.fresh := rfl
@[simp] theorem State.dropFaultRecord_fbyte (s : State) : (s.dropFaultRecord).fbyte = Config.freeValue 8 .fbyte s.fresh := rfl
@[simp] theorem State.dropFaultRecord_y (s : State) : (s.dropFaultRecord).y = s.y := rfl
@[simp] theorem State.dropFaultRecord_p (s : State) : (s.dropFaultRecord).p = s.p := rfl
@[simp] theorem State.dropFaultRecord_u (s : State) : (s.dropFaultRecord).u = s.u := rfl
@[simp] theorem State.dropFaultRecord_ft (s : State) : (s.dropFaultRecord).ft = s.ft := rfl
@[simp] theorem State.dropFaultRecord_i (s : State) : (s.dropFaultRecord).i = s.i := rfl
@[simp] theorem State.dropFaultRecord_v (s : State) : (s.dropFaultRecord).v = s.v := rfl
@[simp] theorem State.dropFaultRecord_c (s : State) : (s.dropFaultRecord).c = s.c := rfl
@[simp] theorem State.dropFaultRecord_cw (s : State) : (s.dropFaultRecord).cw = s.cw := rfl
@[simp] theorem State.dropFaultRecord_pz (s : State) : (s.dropFaultRecord).pz = s.pz := rfl
@[simp] theorem State.dropFaultRecord_uz (s : State) : (s.dropFaultRecord).uz = s.uz := rfl
@[simp] theorem State.dropFaultRecord_t0 (s : State) : (s.dropFaultRecord).t0 = s.t0 := rfl
@[simp] theorem State.dropFaultRecord_mem (s : State) : (s.dropFaultRecord).mem = s.mem := rfl
@[simp] theorem State.dropFaultRecord_inputs (s : State) : (s.dropFaultRecord).inputs = s.inputs := rfl
@[simp] theorem State.dropFaultRecord_readData (s : State) : (s.dropFaultRecord).readData = s.readData := rfl
@[simp] theorem State.dropFaultRecord_fresh (s : State) : (s.dropFaultRecord).fresh = s.fresh := rfl
@[simp] theorem State.dropFaultRecord_n (s : State) : (s.dropFaultRecord).n = s.n := rfl

/-! ### raiseFormat -/

@[simp] theorem State.raiseFormat_addrW (s : State) : (s.raiseFormat).addrW = s.addrW := rfl
@[simp] theorem State.raiseFormat_holes (s : State) : (s.raiseFormat).holes = s.holes := rfl
@[simp] theorem State.raiseFormat_buf (s : State) : (s.raiseFormat).buf = s.buf := rfl
@[simp] theorem State.raiseFormat_h (s : State) : (s.raiseFormat).h = s.h := rfl
@[simp] theorem State.raiseFormat_bpp (s : State) : (s.raiseFormat).bpp = s.bpp := rfl
@[simp] theorem State.raiseFormat_bpl (s : State) : (s.raiseFormat).bpl = s.bpl := rfl
@[simp] theorem State.raiseFormat_ksel (s : State) : (s.raiseFormat).ksel = s.ksel := rfl
@[simp] theorem State.raiseFormat_written (s : State) : (s.raiseFormat).written = s.written := rfl
@[simp] theorem State.raiseFormat_status (s : State) : (s.raiseFormat).status = .fault := rfl
@[simp] theorem State.raiseFormat_fcause (s : State) : (s.raiseFormat).fcause = 1#8 := rfl
@[simp] theorem State.raiseFormat_frow (s : State) : (s.raiseFormat).frow = s.y := rfl
@[simp] theorem State.raiseFormat_fbyte (s : State) : (s.raiseFormat).fbyte = s.ft := rfl
@[simp] theorem State.raiseFormat_y (s : State) : (s.raiseFormat).y = s.y := rfl
@[simp] theorem State.raiseFormat_p (s : State) : (s.raiseFormat).p = s.p := rfl
@[simp] theorem State.raiseFormat_u (s : State) : (s.raiseFormat).u = s.u := rfl
@[simp] theorem State.raiseFormat_ft (s : State) : (s.raiseFormat).ft = s.ft := rfl
@[simp] theorem State.raiseFormat_i (s : State) : (s.raiseFormat).i = s.i := rfl
@[simp] theorem State.raiseFormat_v (s : State) : (s.raiseFormat).v = s.v := rfl
@[simp] theorem State.raiseFormat_c (s : State) : (s.raiseFormat).c = s.c := rfl
@[simp] theorem State.raiseFormat_cw (s : State) : (s.raiseFormat).cw = s.cw := rfl
@[simp] theorem State.raiseFormat_pz (s : State) : (s.raiseFormat).pz = s.pz := rfl
@[simp] theorem State.raiseFormat_uz (s : State) : (s.raiseFormat).uz = s.uz := rfl
@[simp] theorem State.raiseFormat_t0 (s : State) : (s.raiseFormat).t0 = s.t0 := rfl
@[simp] theorem State.raiseFormat_mem (s : State) : (s.raiseFormat).mem = s.mem := rfl
@[simp] theorem State.raiseFormat_inputs (s : State) : (s.raiseFormat).inputs = s.inputs := rfl
@[simp] theorem State.raiseFormat_readData (s : State) : (s.raiseFormat).readData = s.readData := rfl
@[simp] theorem State.raiseFormat_fresh (s : State) : (s.raiseFormat).fresh = s.fresh := rfl
@[simp] theorem State.raiseFormat_n (s : State) : (s.raiseFormat).n = s.n := rfl

/-! ### tick -/

@[simp] theorem State.tick_addrW (s : State) : (s.tick).addrW = s.addrW := rfl
@[simp] theorem State.tick_holes (s : State) : (s.tick).holes = s.holes := rfl
@[simp] theorem State.tick_buf (s : State) : (s.tick).buf = s.buf := rfl
@[simp] theorem State.tick_h (s : State) : (s.tick).h = s.h := rfl
@[simp] theorem State.tick_bpp (s : State) : (s.tick).bpp = s.bpp := rfl
@[simp] theorem State.tick_bpl (s : State) : (s.tick).bpl = s.bpl := rfl
@[simp] theorem State.tick_ksel (s : State) : (s.tick).ksel = s.ksel := rfl
@[simp] theorem State.tick_written (s : State) : (s.tick).written = s.written := rfl
@[simp] theorem State.tick_status (s : State) : (s.tick).status = s.status := rfl
@[simp] theorem State.tick_fcause (s : State) : (s.tick).fcause = s.fcause := rfl
@[simp] theorem State.tick_frow (s : State) : (s.tick).frow = s.frow := rfl
@[simp] theorem State.tick_fbyte (s : State) : (s.tick).fbyte = s.fbyte := rfl
@[simp] theorem State.tick_y (s : State) : (s.tick).y = s.y := rfl
@[simp] theorem State.tick_p (s : State) : (s.tick).p = s.p := rfl
@[simp] theorem State.tick_u (s : State) : (s.tick).u = s.u := rfl
@[simp] theorem State.tick_ft (s : State) : (s.tick).ft = s.ft := rfl
@[simp] theorem State.tick_i (s : State) : (s.tick).i = s.i := rfl
@[simp] theorem State.tick_v (s : State) : (s.tick).v = s.v := rfl
@[simp] theorem State.tick_c (s : State) : (s.tick).c = s.c := rfl
@[simp] theorem State.tick_cw (s : State) : (s.tick).cw = s.cw := rfl
@[simp] theorem State.tick_pz (s : State) : (s.tick).pz = s.pz := rfl
@[simp] theorem State.tick_uz (s : State) : (s.tick).uz = s.uz := rfl
@[simp] theorem State.tick_t0 (s : State) : (s.tick).t0 = s.t0 := rfl
@[simp] theorem State.tick_mem (s : State) : (s.tick).mem = s.mem := rfl
@[simp] theorem State.tick_inputs (s : State) : (s.tick).inputs = Sys2Proof.Machine.tick s.inputs := rfl
@[simp] theorem State.tick_readData (s : State) : (s.tick).readData = s.readData := rfl
@[simp] theorem State.tick_fresh (s : State) : (s.tick).fresh = s.fresh := rfl
@[simp] theorem State.tick_n (s : State) : (s.tick).n = s.n := rfl

/-! ### fetch -/

@[simp] theorem State.fetch_addrW (s : State) : (s.fetch).addrW = s.addrW := rfl
@[simp] theorem State.fetch_holes (s : State) : (s.fetch).holes = s.holes := rfl
@[simp] theorem State.fetch_buf (s : State) : (s.fetch).buf = s.buf := rfl
@[simp] theorem State.fetch_h (s : State) : (s.fetch).h = s.h := rfl
@[simp] theorem State.fetch_bpp (s : State) : (s.fetch).bpp = s.bpp := rfl
@[simp] theorem State.fetch_bpl (s : State) : (s.fetch).bpl = s.bpl := rfl
@[simp] theorem State.fetch_ksel (s : State) : (s.fetch).ksel = s.ksel := rfl
@[simp] theorem State.fetch_written (s : State) : (s.fetch).written = s.written := rfl
@[simp] theorem State.fetch_status (s : State) : (s.fetch).status = s.status := rfl
@[simp] theorem State.fetch_fcause (s : State) : (s.fetch).fcause = s.fcause := rfl
@[simp] theorem State.fetch_frow (s : State) : (s.fetch).frow = s.frow := rfl
@[simp] theorem State.fetch_fbyte (s : State) : (s.fetch).fbyte = s.fbyte := rfl
@[simp] theorem State.fetch_y (s : State) : (s.fetch).y = s.y := rfl
@[simp] theorem State.fetch_p (s : State) : (s.fetch).p = s.p := rfl
@[simp] theorem State.fetch_u (s : State) : (s.fetch).u = s.u := rfl
@[simp] theorem State.fetch_ft (s : State) : (s.fetch).ft = s.mem.read (s.p - 1) := rfl
@[simp] theorem State.fetch_i (s : State) : (s.fetch).i = s.i := rfl
@[simp] theorem State.fetch_v (s : State) : (s.fetch).v = s.v := rfl
@[simp] theorem State.fetch_c (s : State) : (s.fetch).c = s.c := rfl
@[simp] theorem State.fetch_cw (s : State) : (s.fetch).cw = s.cw := rfl
@[simp] theorem State.fetch_pz (s : State) : (s.fetch).pz = s.pz := rfl
@[simp] theorem State.fetch_uz (s : State) : (s.fetch).uz = s.uz := rfl
@[simp] theorem State.fetch_t0 (s : State) : (s.fetch).t0 = s.t0 := rfl
@[simp] theorem State.fetch_mem (s : State) : (s.fetch).mem = s.mem := rfl
@[simp] theorem State.fetch_inputs (s : State) : (s.fetch).inputs = s.inputs := rfl
@[simp] theorem State.fetch_readData (s : State) : (s.fetch).readData = s.readData := rfl
@[simp] theorem State.fetch_fresh (s : State) : (s.fetch).fresh = s.fresh := rfl
@[simp] theorem State.fetch_n (s : State) : (s.fetch).n = s.n := rfl

/-! ### started -/

@[simp] theorem State.started_addrW (s : State) : (s.started).addrW = s.addrW := by simp [State.started]
@[simp] theorem State.started_holes (s : State) : (s.started).holes = s.holes := by simp [State.started]
@[simp] theorem State.started_buf (s : State) : (s.started).buf = s.buf := by simp [State.started]
@[simp] theorem State.started_h (s : State) : (s.started).h = s.h := by simp [State.started]
@[simp] theorem State.started_bpp (s : State) : (s.started).bpp = s.bpp := by simp [State.started]
@[simp] theorem State.started_bpl (s : State) : (s.started).bpl = s.bpl := by simp [State.started]
@[simp] theorem State.started_ksel (s : State) : (s.started).ksel = s.ksel := by simp [State.started]
@[simp] theorem State.started_written (s : State) : (s.started).written = s.written := by simp [State.started]
@[simp] theorem State.started_status (s : State) : (s.started).status = .busy := by simp [State.started]
@[simp] theorem State.started_fcause (s : State) : (s.started).fcause = Config.freeValue 8 .fcause s.fresh := by simp [State.started]
@[simp] theorem State.started_frow (s : State) : (s.started).frow = Config.freeValue 32 .frow s.fresh := by simp [State.started]
@[simp] theorem State.started_fbyte (s : State) : (s.started).fbyte = Config.freeValue 8 .fbyte s.fresh := by simp [State.started]
@[simp] theorem State.started_y (s : State) : (s.started).y = 0#32 := by simp [State.started]
@[simp] theorem State.started_p (s : State) : (s.started).p = fitAddr s .p (s.buf + 1) := by simp [State.started]
@[simp] theorem State.started_u (s : State) : (s.started).u = (Config.freeValue s.addrW .u s.fresh).toNat := by simp [State.started]
@[simp] theorem State.started_ft (s : State) : (s.started).ft = Config.freeValue 8 .ft s.fresh := by simp [State.started]
@[simp] theorem State.started_i (s : State) : (s.started).i = Config.freeValue 32 .i s.fresh := by simp [State.started]
@[simp] theorem State.started_v (s : State) : (s.started).v = Vector.ofFn fun j => Config.freeValue 128 (.v j.val) s.fresh := by simp [State.started]
@[simp] theorem State.started_c (s : State) : (s.started).c = Config.freeValue 128 .c s.fresh := by simp [State.started]
@[simp] theorem State.started_cw (s : State) : (s.started).cw = Config.freeValue 128 .cw s.fresh := by simp [State.started]
@[simp] theorem State.started_pz (s : State) : (s.started).pz = Config.freeValue 32 .pz s.fresh := by simp [State.started]
@[simp] theorem State.started_uz (s : State) : (s.started).uz = Config.freeValue 32 .uz s.fresh := by simp [State.started]
@[simp] theorem State.started_t0 (s : State) : (s.started).t0 = Config.freeValue 32 .t0 s.fresh := by simp [State.started]
@[simp] theorem State.started_mem (s : State) : (s.started).mem = s.mem := by simp [State.started]
@[simp] theorem State.started_inputs (s : State) : (s.started).inputs = s.inputs := by simp [State.started]
@[simp] theorem State.started_readData (s : State) : (s.started).readData = s.readData := by simp [State.started]
@[simp] theorem State.started_fresh (s : State) : (s.started).fresh = s.fresh + 1 := by simp [State.started]
@[simp] theorem State.started_n (s : State) : (s.started).n = s.n := by simp only [State.n, State.started_bpl]

/-! ### resetMove -/

@[simp] theorem State.resetMove_addrW (s : State) : (s.resetMove).addrW = s.addrW := by simp only [State.resetMove, State.resetAt]
@[simp] theorem State.resetMove_holes (s : State) : (s.resetMove).holes = s.holes := by simp only [State.resetMove, State.resetAt]
@[simp] theorem State.resetMove_buf (s : State) : (s.resetMove).buf = (Config.freeValue s.addrW .buf s.fresh).toNat := by simp only [State.resetMove, State.resetAt]
@[simp] theorem State.resetMove_h (s : State) : (s.resetMove).h = Config.freeValue 32 .h s.fresh := by simp only [State.resetMove, State.resetAt]
@[simp] theorem State.resetMove_bpp (s : State) : (s.resetMove).bpp = Config.freeValue 32 .bpp s.fresh := by simp only [State.resetMove, State.resetAt]
@[simp] theorem State.resetMove_bpl (s : State) : (s.resetMove).bpl = Config.freeValue 32 .bpl s.fresh := by simp only [State.resetMove, State.resetAt]
@[simp] theorem State.resetMove_ksel (s : State) : (s.resetMove).ksel = Config.freeValue 2 .ksel s.fresh := by simp only [State.resetMove, State.resetAt]
@[simp] theorem State.resetMove_written (s : State) : (s.resetMove).written = ⟨false, false, false, false, false⟩ := by simp only [State.resetMove, State.resetAt]
@[simp] theorem State.resetMove_status (s : State) : (s.resetMove).status = .idle := by simp only [State.resetMove, State.resetAt]
@[simp] theorem State.resetMove_fcause (s : State) : (s.resetMove).fcause = Config.freeValue 8 .fcause s.fresh := by simp only [State.resetMove, State.resetAt]
@[simp] theorem State.resetMove_frow (s : State) : (s.resetMove).frow = Config.freeValue 32 .frow s.fresh := by simp only [State.resetMove, State.resetAt]
@[simp] theorem State.resetMove_fbyte (s : State) : (s.resetMove).fbyte = Config.freeValue 8 .fbyte s.fresh := by simp only [State.resetMove, State.resetAt]
@[simp] theorem State.resetMove_y (s : State) : (s.resetMove).y = Config.freeValue 32 .y s.fresh := by simp only [State.resetMove, State.resetAt]
@[simp] theorem State.resetMove_p (s : State) : (s.resetMove).p = (Config.freeValue s.addrW .p s.fresh).toNat := by simp only [State.resetMove, State.resetAt]
@[simp] theorem State.resetMove_u (s : State) : (s.resetMove).u = (Config.freeValue s.addrW .u s.fresh).toNat := by simp only [State.resetMove, State.resetAt]
@[simp] theorem State.resetMove_ft (s : State) : (s.resetMove).ft = Config.freeValue 8 .ft s.fresh := by simp only [State.resetMove, State.resetAt]
@[simp] theorem State.resetMove_i (s : State) : (s.resetMove).i = Config.freeValue 32 .i s.fresh := by simp only [State.resetMove, State.resetAt]
@[simp] theorem State.resetMove_v (s : State) : (s.resetMove).v = Vector.ofFn fun j => Config.freeValue 128 (.v j.val) s.fresh := by simp only [State.resetMove, State.resetAt]
@[simp] theorem State.resetMove_c (s : State) : (s.resetMove).c = Config.freeValue 128 .c s.fresh := by simp only [State.resetMove, State.resetAt]
@[simp] theorem State.resetMove_cw (s : State) : (s.resetMove).cw = Config.freeValue 128 .cw s.fresh := by simp only [State.resetMove, State.resetAt]
@[simp] theorem State.resetMove_pz (s : State) : (s.resetMove).pz = Config.freeValue 32 .pz s.fresh := by simp only [State.resetMove, State.resetAt]
@[simp] theorem State.resetMove_uz (s : State) : (s.resetMove).uz = Config.freeValue 32 .uz s.fresh := by simp only [State.resetMove, State.resetAt]
@[simp] theorem State.resetMove_t0 (s : State) : (s.resetMove).t0 = Config.freeValue 32 .t0 s.fresh := by simp only [State.resetMove, State.resetAt]
@[simp] theorem State.resetMove_mem (s : State) : (s.resetMove).mem = s.memAfterReset := by simp only [State.resetMove, State.resetAt]
@[simp] theorem State.resetMove_inputs (s : State) : (s.resetMove).inputs = s.inputs := by simp only [State.resetMove, State.resetAt]
@[simp] theorem State.resetMove_readData (s : State) : (s.resetMove).readData = s.readData := by simp only [State.resetMove, State.resetAt]
@[simp] theorem State.resetMove_fresh (s : State) : (s.resetMove).fresh = s.fresh + 1 := by simp only [State.resetMove, State.resetAt]

/-! ### setPayload -/

@[simp] theorem State.setPayload_addrW (s : State) (j e : Nat) : (s.setPayload j e).addrW = s.addrW := rfl
@[simp] theorem State.setPayload_holes (s : State) (j e : Nat) : (s.setPayload j e).holes = s.holes := rfl
@[simp] theorem State.setPayload_buf (s : State) (j e : Nat) : (s.setPayload j e).buf = s.buf := rfl
@[simp] theorem State.setPayload_h (s : State) (j e : Nat) : (s.setPayload j e).h = s.h := rfl
@[simp] theorem State.setPayload_bpp (s : State) (j e : Nat) : (s.setPayload j e).bpp = s.bpp := rfl
@[simp] theorem State.setPayload_bpl (s : State) (j e : Nat) : (s.setPayload j e).bpl = s.bpl := rfl
@[simp] theorem State.setPayload_ksel (s : State) (j e : Nat) : (s.setPayload j e).ksel = s.ksel := rfl
@[simp] theorem State.setPayload_written (s : State) (j e : Nat) : (s.setPayload j e).written = s.written := rfl
@[simp] theorem State.setPayload_status (s : State) (j e : Nat) : (s.setPayload j e).status = s.status := rfl
@[simp] theorem State.setPayload_fcause (s : State) (j e : Nat) : (s.setPayload j e).fcause = s.fcause := rfl
@[simp] theorem State.setPayload_frow (s : State) (j e : Nat) : (s.setPayload j e).frow = s.frow := rfl
@[simp] theorem State.setPayload_fbyte (s : State) (j e : Nat) : (s.setPayload j e).fbyte = s.fbyte := rfl
@[simp] theorem State.setPayload_y (s : State) (j e : Nat) : (s.setPayload j e).y = s.y := rfl
@[simp] theorem State.setPayload_p (s : State) (j e : Nat) : (s.setPayload j e).p = s.p := rfl
@[simp] theorem State.setPayload_u (s : State) (j e : Nat) : (s.setPayload j e).u = s.u := rfl
@[simp] theorem State.setPayload_ft (s : State) (j e : Nat) : (s.setPayload j e).ft = s.ft := rfl
@[simp] theorem State.setPayload_i (s : State) (j e : Nat) : (s.setPayload j e).i = BitVec.ofNat 32 (j + 1) := rfl
@[simp] theorem State.setPayload_v (s : State) (j e : Nat) : (s.setPayload j e).v = s.v := rfl
@[simp] theorem State.setPayload_c (s : State) (j e : Nat) : (s.setPayload j e).c = s.c := rfl
@[simp] theorem State.setPayload_cw (s : State) (j e : Nat) : (s.setPayload j e).cw = s.cw := rfl
@[simp] theorem State.setPayload_pz (s : State) (j e : Nat) : (s.setPayload j e).pz = s.pz := rfl
@[simp] theorem State.setPayload_uz (s : State) (j e : Nat) : (s.setPayload j e).uz = s.uz := rfl
@[simp] theorem State.setPayload_t0 (s : State) (j e : Nat) : (s.setPayload j e).t0 = s.t0 := rfl
@[simp] theorem State.setPayload_mem (s : State) (j e : Nat) : (s.setPayload j e).mem = s.mem.write (s.p + j) (BitVec.ofNat 8 e) := rfl
@[simp] theorem State.setPayload_inputs (s : State) (j e : Nat) : (s.setPayload j e).inputs = s.inputs := rfl
@[simp] theorem State.setPayload_readData (s : State) (j e : Nat) : (s.setPayload j e).readData = s.readData := rfl
@[simp] theorem State.setPayload_fresh (s : State) (j e : Nat) : (s.setPayload j e).fresh = s.fresh := rfl
@[simp] theorem State.setPayload_n (s : State) (j e : Nat) : (s.setPayload j e).n = s.n := rfl

/-! ### bumpIndex -/

@[simp] theorem State.bumpIndex_addrW (s : State) (k : Nat) : (s.bumpIndex k).addrW = s.addrW := rfl
@[simp] theorem State.bumpIndex_holes (s : State) (k : Nat) : (s.bumpIndex k).holes = s.holes := rfl
@[simp] theorem State.bumpIndex_buf (s : State) (k : Nat) : (s.bumpIndex k).buf = s.buf := rfl
@[simp] theorem State.bumpIndex_h (s : State) (k : Nat) : (s.bumpIndex k).h = s.h := rfl
@[simp] theorem State.bumpIndex_bpp (s : State) (k : Nat) : (s.bumpIndex k).bpp = s.bpp := rfl
@[simp] theorem State.bumpIndex_bpl (s : State) (k : Nat) : (s.bumpIndex k).bpl = s.bpl := rfl
@[simp] theorem State.bumpIndex_ksel (s : State) (k : Nat) : (s.bumpIndex k).ksel = s.ksel := rfl
@[simp] theorem State.bumpIndex_written (s : State) (k : Nat) : (s.bumpIndex k).written = s.written := rfl
@[simp] theorem State.bumpIndex_status (s : State) (k : Nat) : (s.bumpIndex k).status = s.status := rfl
@[simp] theorem State.bumpIndex_fcause (s : State) (k : Nat) : (s.bumpIndex k).fcause = s.fcause := rfl
@[simp] theorem State.bumpIndex_frow (s : State) (k : Nat) : (s.bumpIndex k).frow = s.frow := rfl
@[simp] theorem State.bumpIndex_fbyte (s : State) (k : Nat) : (s.bumpIndex k).fbyte = s.fbyte := rfl
@[simp] theorem State.bumpIndex_y (s : State) (k : Nat) : (s.bumpIndex k).y = s.y := rfl
@[simp] theorem State.bumpIndex_p (s : State) (k : Nat) : (s.bumpIndex k).p = s.p := rfl
@[simp] theorem State.bumpIndex_u (s : State) (k : Nat) : (s.bumpIndex k).u = s.u := rfl
@[simp] theorem State.bumpIndex_ft (s : State) (k : Nat) : (s.bumpIndex k).ft = s.ft := rfl
@[simp] theorem State.bumpIndex_i (s : State) (k : Nat) : (s.bumpIndex k).i = BitVec.ofNat 32 (s.i.toNat + k) := rfl
@[simp] theorem State.bumpIndex_v (s : State) (k : Nat) : (s.bumpIndex k).v = s.v := rfl
@[simp] theorem State.bumpIndex_c (s : State) (k : Nat) : (s.bumpIndex k).c = s.c := rfl
@[simp] theorem State.bumpIndex_cw (s : State) (k : Nat) : (s.bumpIndex k).cw = s.cw := rfl
@[simp] theorem State.bumpIndex_pz (s : State) (k : Nat) : (s.bumpIndex k).pz = s.pz := rfl
@[simp] theorem State.bumpIndex_uz (s : State) (k : Nat) : (s.bumpIndex k).uz = s.uz := rfl
@[simp] theorem State.bumpIndex_t0 (s : State) (k : Nat) : (s.bumpIndex k).t0 = s.t0 := rfl
@[simp] theorem State.bumpIndex_mem (s : State) (k : Nat) : (s.bumpIndex k).mem = s.mem := rfl
@[simp] theorem State.bumpIndex_inputs (s : State) (k : Nat) : (s.bumpIndex k).inputs = s.inputs := rfl
@[simp] theorem State.bumpIndex_readData (s : State) (k : Nat) : (s.bumpIndex k).readData = s.readData := rfl
@[simp] theorem State.bumpIndex_fresh (s : State) (k : Nat) : (s.bumpIndex k).fresh = s.fresh := rfl
@[simp] theorem State.bumpIndex_n (s : State) (k : Nat) : (s.bumpIndex k).n = s.n := rfl

/-! ### setCarry -/

@[simp] theorem State.setCarry_addrW (s : State) (c : V128) : (s.setCarry c).addrW = s.addrW := rfl
@[simp] theorem State.setCarry_holes (s : State) (c : V128) : (s.setCarry c).holes = s.holes := rfl
@[simp] theorem State.setCarry_buf (s : State) (c : V128) : (s.setCarry c).buf = s.buf := rfl
@[simp] theorem State.setCarry_h (s : State) (c : V128) : (s.setCarry c).h = s.h := rfl
@[simp] theorem State.setCarry_bpp (s : State) (c : V128) : (s.setCarry c).bpp = s.bpp := rfl
@[simp] theorem State.setCarry_bpl (s : State) (c : V128) : (s.setCarry c).bpl = s.bpl := rfl
@[simp] theorem State.setCarry_ksel (s : State) (c : V128) : (s.setCarry c).ksel = s.ksel := rfl
@[simp] theorem State.setCarry_written (s : State) (c : V128) : (s.setCarry c).written = s.written := rfl
@[simp] theorem State.setCarry_status (s : State) (c : V128) : (s.setCarry c).status = s.status := rfl
@[simp] theorem State.setCarry_fcause (s : State) (c : V128) : (s.setCarry c).fcause = s.fcause := rfl
@[simp] theorem State.setCarry_frow (s : State) (c : V128) : (s.setCarry c).frow = s.frow := rfl
@[simp] theorem State.setCarry_fbyte (s : State) (c : V128) : (s.setCarry c).fbyte = s.fbyte := rfl
@[simp] theorem State.setCarry_y (s : State) (c : V128) : (s.setCarry c).y = s.y := rfl
@[simp] theorem State.setCarry_p (s : State) (c : V128) : (s.setCarry c).p = s.p := rfl
@[simp] theorem State.setCarry_u (s : State) (c : V128) : (s.setCarry c).u = s.u := rfl
@[simp] theorem State.setCarry_ft (s : State) (c : V128) : (s.setCarry c).ft = s.ft := rfl
@[simp] theorem State.setCarry_i (s : State) (c : V128) : (s.setCarry c).i = s.i := rfl
@[simp] theorem State.setCarry_v (s : State) (c : V128) : (s.setCarry c).v = s.v := rfl
@[simp] theorem State.setCarry_c (s : State) (c : V128) : (s.setCarry c).c = c := rfl
@[simp] theorem State.setCarry_cw (s : State) (c : V128) : (s.setCarry c).cw = vunpklbw c zeroV := rfl
@[simp] theorem State.setCarry_pz (s : State) (c : V128) : (s.setCarry c).pz = s.pz := rfl
@[simp] theorem State.setCarry_uz (s : State) (c : V128) : (s.setCarry c).uz = s.uz := rfl
@[simp] theorem State.setCarry_t0 (s : State) (c : V128) : (s.setCarry c).t0 = s.t0 := rfl
@[simp] theorem State.setCarry_mem (s : State) (c : V128) : (s.setCarry c).mem = s.mem := rfl
@[simp] theorem State.setCarry_inputs (s : State) (c : V128) : (s.setCarry c).inputs = s.inputs := rfl
@[simp] theorem State.setCarry_readData (s : State) (c : V128) : (s.setCarry c).readData = s.readData := rfl
@[simp] theorem State.setCarry_fresh (s : State) (c : V128) : (s.setCarry c).fresh = s.fresh := rfl
@[simp] theorem State.setCarry_n (s : State) (c : V128) : (s.setCarry c).n = s.n := rfl

/-! ### setCarryWide -/

@[simp] theorem State.setCarryWide_addrW (s : State) (cw : V128) : (s.setCarryWide cw).addrW = s.addrW := rfl
@[simp] theorem State.setCarryWide_holes (s : State) (cw : V128) : (s.setCarryWide cw).holes = s.holes := rfl
@[simp] theorem State.setCarryWide_buf (s : State) (cw : V128) : (s.setCarryWide cw).buf = s.buf := rfl
@[simp] theorem State.setCarryWide_h (s : State) (cw : V128) : (s.setCarryWide cw).h = s.h := rfl
@[simp] theorem State.setCarryWide_bpp (s : State) (cw : V128) : (s.setCarryWide cw).bpp = s.bpp := rfl
@[simp] theorem State.setCarryWide_bpl (s : State) (cw : V128) : (s.setCarryWide cw).bpl = s.bpl := rfl
@[simp] theorem State.setCarryWide_ksel (s : State) (cw : V128) : (s.setCarryWide cw).ksel = s.ksel := rfl
@[simp] theorem State.setCarryWide_written (s : State) (cw : V128) : (s.setCarryWide cw).written = s.written := rfl
@[simp] theorem State.setCarryWide_status (s : State) (cw : V128) : (s.setCarryWide cw).status = s.status := rfl
@[simp] theorem State.setCarryWide_fcause (s : State) (cw : V128) : (s.setCarryWide cw).fcause = s.fcause := rfl
@[simp] theorem State.setCarryWide_frow (s : State) (cw : V128) : (s.setCarryWide cw).frow = s.frow := rfl
@[simp] theorem State.setCarryWide_fbyte (s : State) (cw : V128) : (s.setCarryWide cw).fbyte = s.fbyte := rfl
@[simp] theorem State.setCarryWide_y (s : State) (cw : V128) : (s.setCarryWide cw).y = s.y := rfl
@[simp] theorem State.setCarryWide_p (s : State) (cw : V128) : (s.setCarryWide cw).p = s.p := rfl
@[simp] theorem State.setCarryWide_u (s : State) (cw : V128) : (s.setCarryWide cw).u = s.u := rfl
@[simp] theorem State.setCarryWide_ft (s : State) (cw : V128) : (s.setCarryWide cw).ft = s.ft := rfl
@[simp] theorem State.setCarryWide_i (s : State) (cw : V128) : (s.setCarryWide cw).i = s.i := rfl
@[simp] theorem State.setCarryWide_v (s : State) (cw : V128) : (s.setCarryWide cw).v = s.v := rfl
@[simp] theorem State.setCarryWide_c (s : State) (cw : V128) : (s.setCarryWide cw).c = vpackuswb cw zeroV := rfl
@[simp] theorem State.setCarryWide_cw (s : State) (cw : V128) : (s.setCarryWide cw).cw = cw := rfl
@[simp] theorem State.setCarryWide_pz (s : State) (cw : V128) : (s.setCarryWide cw).pz = s.pz := rfl
@[simp] theorem State.setCarryWide_uz (s : State) (cw : V128) : (s.setCarryWide cw).uz = s.uz := rfl
@[simp] theorem State.setCarryWide_t0 (s : State) (cw : V128) : (s.setCarryWide cw).t0 = s.t0 := rfl
@[simp] theorem State.setCarryWide_mem (s : State) (cw : V128) : (s.setCarryWide cw).mem = s.mem := rfl
@[simp] theorem State.setCarryWide_inputs (s : State) (cw : V128) : (s.setCarryWide cw).inputs = s.inputs := rfl
@[simp] theorem State.setCarryWide_readData (s : State) (cw : V128) : (s.setCarryWide cw).readData = s.readData := rfl
@[simp] theorem State.setCarryWide_fresh (s : State) (cw : V128) : (s.setCarryWide cw).fresh = s.fresh := rfl
@[simp] theorem State.setCarryWide_n (s : State) (cw : V128) : (s.setCarryWide cw).n = s.n := rfl

/-! ### seedCarry -/

@[simp] theorem State.seedCarry_addrW (s : State) (b : Bpp) : (s.seedCarry b).addrW = s.addrW := by simp only [State.seedCarry, State.setCarry]
@[simp] theorem State.seedCarry_holes (s : State) (b : Bpp) : (s.seedCarry b).holes = s.holes := by simp only [State.seedCarry, State.setCarry]
@[simp] theorem State.seedCarry_buf (s : State) (b : Bpp) : (s.seedCarry b).buf = s.buf := by simp only [State.seedCarry, State.setCarry]
@[simp] theorem State.seedCarry_h (s : State) (b : Bpp) : (s.seedCarry b).h = s.h := by simp only [State.seedCarry, State.setCarry]
@[simp] theorem State.seedCarry_bpp (s : State) (b : Bpp) : (s.seedCarry b).bpp = s.bpp := by simp only [State.seedCarry, State.setCarry]
@[simp] theorem State.seedCarry_bpl (s : State) (b : Bpp) : (s.seedCarry b).bpl = s.bpl := by simp only [State.seedCarry, State.setCarry]
@[simp] theorem State.seedCarry_ksel (s : State) (b : Bpp) : (s.seedCarry b).ksel = s.ksel := by simp only [State.seedCarry, State.setCarry]
@[simp] theorem State.seedCarry_written (s : State) (b : Bpp) : (s.seedCarry b).written = s.written := by simp only [State.seedCarry, State.setCarry]
@[simp] theorem State.seedCarry_status (s : State) (b : Bpp) : (s.seedCarry b).status = s.status := by simp only [State.seedCarry, State.setCarry]
@[simp] theorem State.seedCarry_fcause (s : State) (b : Bpp) : (s.seedCarry b).fcause = s.fcause := by simp only [State.seedCarry, State.setCarry]
@[simp] theorem State.seedCarry_frow (s : State) (b : Bpp) : (s.seedCarry b).frow = s.frow := by simp only [State.seedCarry, State.setCarry]
@[simp] theorem State.seedCarry_fbyte (s : State) (b : Bpp) : (s.seedCarry b).fbyte = s.fbyte := by simp only [State.seedCarry, State.setCarry]
@[simp] theorem State.seedCarry_y (s : State) (b : Bpp) : (s.seedCarry b).y = s.y := by simp only [State.seedCarry, State.setCarry]
@[simp] theorem State.seedCarry_p (s : State) (b : Bpp) : (s.seedCarry b).p = s.p := by simp only [State.seedCarry, State.setCarry]
@[simp] theorem State.seedCarry_u (s : State) (b : Bpp) : (s.seedCarry b).u = s.u := by simp only [State.seedCarry, State.setCarry]
@[simp] theorem State.seedCarry_ft (s : State) (b : Bpp) : (s.seedCarry b).ft = s.ft := by simp only [State.seedCarry, State.setCarry]
@[simp] theorem State.seedCarry_i (s : State) (b : Bpp) : (s.seedCarry b).i = s.i := by simp only [State.seedCarry, State.setCarry]
@[simp] theorem State.seedCarry_v (s : State) (b : Bpp) : (s.seedCarry b).v = s.v := by simp only [State.seedCarry, State.setCarry]
@[simp] theorem State.seedCarry_c (s : State) (b : Bpp) : (s.seedCarry b).c = s.seedC b := by simp only [State.seedCarry, State.setCarry]
@[simp] theorem State.seedCarry_cw (s : State) (b : Bpp) : (s.seedCarry b).cw = vunpklbw (s.seedC b) zeroV := by simp only [State.seedCarry, State.setCarry]
@[simp] theorem State.seedCarry_pz (s : State) (b : Bpp) : (s.seedCarry b).pz = s.pz := by simp only [State.seedCarry, State.setCarry]
@[simp] theorem State.seedCarry_uz (s : State) (b : Bpp) : (s.seedCarry b).uz = s.uz := by simp only [State.seedCarry, State.setCarry]
@[simp] theorem State.seedCarry_t0 (s : State) (b : Bpp) : (s.seedCarry b).t0 = s.t0 := by simp only [State.seedCarry, State.setCarry]
@[simp] theorem State.seedCarry_mem (s : State) (b : Bpp) : (s.seedCarry b).mem = s.mem := by simp only [State.seedCarry, State.setCarry]
@[simp] theorem State.seedCarry_inputs (s : State) (b : Bpp) : (s.seedCarry b).inputs = s.inputs := by simp only [State.seedCarry, State.setCarry]
@[simp] theorem State.seedCarry_readData (s : State) (b : Bpp) : (s.seedCarry b).readData = s.readData := by simp only [State.seedCarry, State.setCarry]
@[simp] theorem State.seedCarry_fresh (s : State) (b : Bpp) : (s.seedCarry b).fresh = s.fresh := by simp only [State.seedCarry, State.setCarry]
@[simp] theorem State.seedCarry_n (s : State) (b : Bpp) : (s.seedCarry b).n = s.n := by simp only [State.n, State.seedCarry, State.setCarry]

end Sys2Proof.Machine
end

