-- ==== Sys2Proof/Laws/Loops.lean ====
section
/-! SUPPORT. Induction over the payload loops, and what a scalar stretch of a row does. -/

namespace Sys2Proof.Machine

/-- Induction over an ascending loop: `P k` holds after `k` passes. -/
theorem forUp_induct {f : Nat → State → State} {lo count : Nat} {s : State} {P : Nat → State → Prop}
    (h0 : P 0 s) (hs : ∀ k < count, ∀ t, P k t → P (k + 1) (f (lo + k) t)) : P count (forUp f lo count s) := by
  induction count with
  | zero => exact h0
  | succ k ih => exact hs k (by omega) _ (ih fun j hj t ht => hs j (by omega) t ht)

/-- Induction over repetition. -/
theorem repeatN_induct {f : State → State} {count : Nat} {s : State} {P : Nat → State → Prop}
    (h0 : P 0 s) (hs : ∀ k < count, ∀ t, P k t → P (k + 1) (f t)) : P count (repeatN f count s) := by
  induction count with
  | zero => exact h0
  | succ k ih => exact hs k (by omega) _ (ih fun j hj t ht => hs j (by omega) t ht)

/-- The fields that stay fixed while a row's payload is being reconstructed: all but memory and the working registers. -/
structure SameRow (s t : State) : Prop extends RowFrame s t where
  status : t.status = s.status
  y : t.y = s.y
  p : t.p = s.p
  u : t.u = s.u
  fresh : t.fresh = s.fresh

theorem SameRow.refl (s : State) : SameRow s s :=
  { addrW := rfl, holes := rfl, buf := rfl, h := rfl, bpp := rfl, bpl := rfl, ksel := rfl, written := rfl, fcause := rfl,
    frow := rfl, fbyte := rfl, ft := rfl, inputs := rfl, readData := rfl, status := rfl, y := rfl, p := rfl,
    u := rfl, fresh := rfl }

theorem SameRow.trans {s t r : State} (h1 : SameRow s t) (h2 : SameRow t r) : SameRow s r where
  addrW := h2.addrW.trans h1.addrW
  holes := h2.holes.trans h1.holes
  buf := h2.buf.trans h1.buf
  h := h2.h.trans h1.h
  bpp := h2.bpp.trans h1.bpp
  bpl := h2.bpl.trans h1.bpl
  ksel := h2.ksel.trans h1.ksel
  written := h2.written.trans h1.written
  fcause := h2.fcause.trans h1.fcause
  frow := h2.frow.trans h1.frow
  fbyte := h2.fbyte.trans h1.fbyte
  ft := h2.ft.trans h1.ft
  inputs := h2.inputs.trans h1.inputs
  readData := h2.readData.trans h1.readData
  status := h2.status.trans h1.status
  y := h2.y.trans h1.y
  p := h2.p.trans h1.p
  u := h2.u.trans h1.u
  fresh := h2.fresh.trans h1.fresh

theorem SameRow.n_eq {s t : State} (h : SameRow s t) : t.n = s.n := by rw [State.n, State.n, h.bpl]

theorem sameRow_setPayload (s : State) (i e : Nat) : SameRow s (s.setPayload i e) :=
  { SameRow.refl s with }

theorem sameRow_addPayload (s : State) (i e : Nat) : SameRow s (s.addPayload i e) :=
  sameRow_setPayload _ _ _

theorem sameRow_bumpIndex (s : State) (k : Nat) : SameRow s (s.bumpIndex k) := { SameRow.refl s with }

theorem sameRow_seedCarry (s : State) (b : Bpp) : SameRow s (s.seedCarry b) := { SameRow.refl s with }

/-- `t` is `s` with the first `k` payload bytes of the row reconstructed (R127) and no other byte of memory changed. -/
structure Progress (f : Filter) (bpp k : Nat) (s t : State) : Prop where
  same : SameRow s t
  memWf : t.mem.wf
  outside : ∀ a, ¬(s.p ≤ a ∧ a < s.p + k) → t.mem.read a = s.mem.read a
  done : ∀ i < k, (t.mem.read (s.p + i)).toNat =
    recon f (s.payload i).toNat (if bpp ≤ i then (t.mem.read (s.p + (i - bpp))).toNat else 0) (s.above i).toNat
      (if bpp ≤ i then (s.above (i - bpp)).toNat else 0)

theorem Progress.start {f : Filter} {bpp : Nat} {s : State} (h : s.mem.wf) : Progress f bpp 0 s s :=
  ⟨SameRow.refl s, h, fun _ _ => rfl, fun i hi => absurd hi (Nat.not_lt_zero i)⟩

theorem Progress.payload {f : Filter} {bpp k : Nat} {s t : State} (h : Progress f bpp k s t) (i : Nat) :
    t.payload i = t.mem.read (s.p + i) := by rw [State.payload, h.same.p]

/-- A payload byte not yet reached is raw. -/
theorem Progress.payload_raw {f : Filter} {bpp k : Nat} {s t : State} (h : Progress f bpp k s t) {i : Nat}
    (hi : k ≤ i) : t.payload i = s.payload i := by
  rw [h.payload, h.outside _ (by omega), State.payload]

/-- The previous row reads as before. -/
theorem Progress.above {f : Filter} {bpp k : Nat} {s t : State} (h : Progress f bpp k s t)
    (ha : s.y = 0#32 ∨ s.u + s.n ≤ s.p) {i : Nat} (hi : i < s.n) : t.above i = s.above i := by
  rw [State.above, State.above, h.same.y, h.same.u]
  split
  · rfl
  · rename_i hy
    have : s.u + s.n ≤ s.p := ha.resolve_left hy
    rw [h.outside _ (by omega)]

/-- A fixed point of the working registers: another state with the same memory and row. -/
theorem Progress.congr {f : Filter} {bpp k : Nat} {s t r : State} (h : Progress f bpp k s t) (hs : SameRow t r)
    (hm : r.mem = t.mem) : Progress f bpp k s r :=
  ⟨h.same.trans hs, hm ▸ h.memWf, by rw [hm]; exact h.outside, by rw [hm]; exact h.done⟩

theorem recon_lt (f : Filter) {x : Nat} (hx : x < 256) (a b c : Nat) : recon f x a b c < 256 := by
  cases f <;> simp only [recon, sumMod256]
  · exact hx
  all_goals exact Nat.lt_of_le_of_lt Nat.and_le_right (by decide)

/-- A store of `size` bytes after the `k` finished ones, each the reconstruction of its raw byte from the neighbours
as the rule has them, finishes them. -/
theorem Progress.store {f : Filter} {bpp k size : Nat} {s t r : State} (h : Progress f bpp k s t) (hb : 0 < bpp)
    (hsame : SameRow t r) {out : Nat → Byte}
    (hmem : r.mem = t.mem.writeBytes (t.p + k) out size)
    (hout : ∀ j < size, (out j).toNat =
      recon f (s.payload (k + j)).toNat
        (if bpp ≤ k + j then (if bpp ≤ j then out (j - bpp) else t.payload (k + j - bpp)).toNat else 0)
        (s.above (k + j)).toNat (if bpp ≤ k + j then (s.above (k + j - bpp)).toNat else 0)) :
    Progress f bpp (k + size) s r := by
  have hp : t.p = s.p := h.same.p
  have hread : ∀ x, r.mem.read x = if s.p + k ≤ x ∧ x < s.p + k + size then out (x - (s.p + k)) else t.mem.read x := by
    intro x
    rw [hmem, hp, Memory.read_writeBytes h.memWf]
  refine ⟨h.same.trans hsame, ?_, fun a ha => ?_, fun i hi => ?_⟩
  · rw [hmem]; exact Memory.wf_writeBytes h.memWf _ _ _
  · rw [hread, if_neg (by omega), h.outside _ (by omega)]
  · by_cases hik : i < k
    · rw [hread, if_neg (by omega), h.done i hik]
      by_cases hbi : bpp ≤ i
      · rw [if_pos hbi, if_pos hbi, if_pos hbi, hread, if_neg (by omega)]
      · rw [if_neg hbi, if_neg hbi, if_neg hbi]
    · obtain ⟨j, rfl⟩ : ∃ j, i = k + j := ⟨i - k, by omega⟩
      rw [hread, if_pos (by omega), show s.p + (k + j) - (s.p + k) = j by omega, hout j (by omega)]
      by_cases hbi : bpp ≤ k + j
      · rw [if_pos hbi, if_pos hbi, if_pos hbi]
        congr 2
        by_cases hbj : bpp ≤ j
        · rw [if_pos hbj, hread, if_pos (by omega), show s.p + (k + j - bpp) - (s.p + k) = j - bpp by omega]
        · rw [if_neg hbj, hread, if_neg (by omega), h.payload]
      · rw [if_neg hbi, if_neg hbi, if_neg hbi]

/-- One byte of a row reconstructed in place. -/
theorem Progress.byte {f : Filter} {bpp k e : Nat} {s t r : State} (h : Progress f bpp k s t) (hb : 0 < bpp)
    (hsame : SameRow t r) (hmem : r.mem = t.mem.write (t.p + k) (BitVec.ofNat 8 e))
    (he : e = recon f (s.payload k).toNat (if bpp ≤ k then (t.payload (k - bpp)).toNat else 0)
      (s.above k).toNat (if bpp ≤ k then (s.above (k - bpp)).toNat else 0)) :
    Progress f bpp (k + 1) s r := by
  have hlt : e < 256 := he ▸ recon_lt f (s.payload k).isLt _ _ _
  refine h.store hb hsame (out := fun _ => BitVec.ofNat 8 e) hmem fun j hj => ?_
  obtain rfl : j = 0 := by omega
  rw [BitVec.toNat_ofNat, Nat.mod_eq_of_lt hlt, he]
  simp only [Nat.add_zero, if_neg (show ¬bpp ≤ 0 by omega)]

/-- A scalar stretch of a row (R181): `scalar(k, hi)` after the first `k` bytes finishes `hi` bytes. -/
theorem Progress.scalar {f : Filter} {bpp k hi : Nat} {s t : State} (h : Progress f bpp k s t) (hb : 0 < bpp)
    (ha : s.y = 0#32 ∨ s.u + s.n ≤ s.p) (hk : k ≤ hi) (hn : hi ≤ s.n) :
    Progress f bpp hi s (scalar f bpp k hi t) := by
  rw [Sys2Proof.Machine.scalar, forRange]
  have : Progress f bpp (k + (hi - k)) s
      (forUp (fun i s => s.setPayload i (s.reconAt f bpp i)) k (hi - k) t) := by
    refine forUp_induct (P := fun j r => Progress f bpp (k + j) s r) h fun j hj r hr => ?_
    refine hr.byte hb (sameRow_setPayload _ _ _) rfl ?_
    rw [State.reconAt, State.left, State.aboveLeft, hr.payload_raw (Nat.le_refl _), hr.above ha (by omega)]
    by_cases hbk : bpp ≤ k + j
    · simp only [if_pos hbk]
      rw [hr.above ha (by omega)]
    · simp only [if_neg hbk]
  rwa [Nat.add_sub_cancel' hk] at this

/-- Two states that both finish the row from `s` have the same memory. -/
theorem Progress.mem_unique {f : Filter} {bpp k : Nat} {s t r : State} (hb : 0 < bpp) (h1 : Progress f bpp k s t)
    (h2 : Progress f bpp k s r) : t.mem = r.mem := by
  refine Memory.ext_read h1.memWf h2.memWf fun a => ?_
  by_cases ha : s.p ≤ a ∧ a < s.p + k
  · obtain ⟨i, rfl⟩ : ∃ i, a = s.p + i := ⟨a - s.p, by omega⟩
    have key : ∀ i, i < k → t.mem.read (s.p + i) = r.mem.read (s.p + i) := by
      intro i
      induction i using Nat.strong_induction_on with
      | _ i ih =>
        intro hi
        apply BitVec.eq_of_toNat_eq
        rw [h1.done i hi, h2.done i hi]
        by_cases hbi : bpp ≤ i
        · simp only [if_pos hbi]
          rw [ih (i - bpp) (by omega) (by omega)]
        · simp only [if_neg hbi]
    exact key i (by omega)
  · rw [h1.outside a ha, h2.outside a ha]

/-- What a scalar stretch does to the index. -/
theorem forUp_setPayload_i (g : Nat → State → Nat) (lo count : Nat) (s : State) (hc : 0 < count) :
    (forUp (fun i s => s.setPayload i (g i s)) lo count s).i = BitVec.ofNat 32 (lo + count) := by
  cases count with
  | zero => omega
  | succ k => rfl

/-- A loop of payload writes keeps the working registers other than I. -/
theorem forUp_setPayload_working (g : Nat → State → Nat) (lo count : Nat) (s : State) :
    KeepsWorking s (forUp (fun i s => s.setPayload i (g i s)) lo count s) :=
  forUp_induct (P := fun _ t => KeepsWorking s t) ⟨rfl, ⟨rfl, rfl⟩, ⟨rfl, rfl⟩, rfl⟩ fun _ _ _ ht => ht

theorem scalar_working (f : Filter) (bpp lo hi : Nat) (s : State) : KeepsWorking s (scalar f bpp lo hi s) :=
  forUp_setPayload_working _ _ _ _

end Sys2Proof.Machine
end

