-- ==== Sys2Proof/Laws/Rows.lean ====
section
/-! SUPPORT. Every row instruction as one shared operation over its body, and what that operation can answer. -/

namespace Sys2Proof.Machine

/-- The body of each row instruction: what it does before the cursor advances. -/
def bodyOf : Instr → State → State
  | .none | .noneV1 | .noneV2 | .noneV3 | .noneV4 | .noneV6 | .noneV8 => id
  | .sub => fun s => (subLoop s.bpp.toNat s).dropIndex
  | .subV1 => subRow .b1
  | .subV2 => subRow .b2
  | .subV3 => subRow .b3
  | .subV4 => subRow .b4
  | .subV6 => subRow .b6
  | .subV8 => subRow .b8
  | .up => fun s => (upLoop s).dropIndex
  | .upV1 => upRow .b1
  | .upV2 => upRow .b2
  | .upV3 => upRow .b3
  | .upV4 => upRow .b4
  | .upV6 => upRow .b6
  | .upV8 => upRow .b8
  | .avg => fun s => (avgLoop s.bpp.toNat s).dropIndex
  | .avgV1 => avgRow1
  | .avgV2 => avgRowScalar .b2
  | .avgV3 => avgRowScalar .b3
  | .avgV4 => avgRow16 .b4
  | .avgV6 => avgRow16 .b6
  | .avgV8 => avgRow16 .b8
  | .paeth => fun s => (paethLoop s.bpp.toNat s).dropIndex
  | .paethV1 => paethRow1
  | .paethV2 => paethRow2
  | .paethV3 => paethRow3
  | .paethV4 => paethRow16 .b4
  | .paethV6 => paethRow16 .b6
  | .paethV8 => paethRow16 .b8

/-- The base row of a filter runs its body as a row of that filter. -/
theorem exec_base (f : Filter) (s : State) :
    exec (Instr.base f) s = runRow f (bodyOf (Instr.base f)) s := by cases f <;> rfl

/-- A specialization runs its body as a row of its filter, in its own mode alone. -/
theorem exec_special (f : Filter) (b : Bpp) (s : State) :
    exec (Instr.special f b) s = runSpecial f b (bodyOf (Instr.special f b)) s := by cases f <;> cases b <;> rfl

/-- What a row instruction of any kind can answer. -/
theorem runRow_cases (f : Filter) (body : State → State) (s : State) :
    (∃ q, s.geometry? = some q ∧ runRow f body s = .refused (.precondition q)) ∨
    (∃ e, s.geometry? = none ∧ s.footprintFault f = some e ∧ runRow f body s = .fault e) ∨
    (s.geometry? = none ∧ s.footprintFault f = none ∧ runRow f body s = .next (body s).advance) := by
  unfold runRow
  cases hg : s.geometry? with
  | some q => exact .inl ⟨q, rfl, rfl⟩
  | none =>
    cases hf : s.footprintFault f with
    | some e => exact .inr (.inl ⟨e, rfl, rfl, rfl⟩)
    | none => exact .inr (.inr ⟨rfl, rfl, rfl⟩)

theorem runRow_ready {f : Filter} {s : State} (h : s.RowReady f) (body : State → State) :
    runRow f body s = .next (body s).advance := by
  rw [runRow, h.geometry]
  simp only [h.footprint]

theorem runRow_next {f : Filter} {body : State → State} {s t : State} (h : runRow f body s = .next t) :
    s.geometry? = none ∧ s.footprintFault f = none ∧ t = (body s).advance := by
  rcases runRow_cases f body s with ⟨q, _, h'⟩ | ⟨_, _, _, h'⟩ | ⟨hg, hf, h'⟩
  · rw [h'] at h; cases h
  · rw [h'] at h; cases h
  · rw [h'] at h; cases h; exact ⟨hg, hf, rfl⟩

theorem runSpecial_ready {f : Filter} {b : Bpp} {s : State} (h : s.RowReady f) (hm : s.mode = some ⟨.simd, b⟩)
    (body : State → State) : runSpecial f b body s = .next (body s).advance := by
  rw [runSpecial, if_pos hm, runRow_ready h]

theorem runSpecial_next {f : Filter} {b : Bpp} {body : State → State} {s t : State}
    (h : runSpecial f b body s = .next t) :
    s.mode = some ⟨.simd, b⟩ ∧ s.geometry? = none ∧ s.footprintFault f = none ∧ t = (body s).advance := by
  rw [runSpecial] at h
  split at h
  · exact ⟨‹_›, runRow_next h⟩
  · cases h

/-- The bytes per pixel of a state whose geometry has a meaning. -/
theorem State.geometry_bpp {s : State} (h : s.geometry? = none) :
    ∃ b, Bpp.ofNat? s.bpp.toNat = some b ∧ bplOk s.bpp.toNat s.bpl.toNat = true := by
  rw [State.geometry?] at h
  split at h
  · cases h
  · rename_i h1
    split at h
    · cases h
    · rename_i h2
      cases hb : Bpp.ofNat? s.bpp.toNat with
      | none => rw [hb] at h1; exact absurd rfl h1
      | some b => exact ⟨b, rfl, by simpa using h2⟩

/-- The mode of a state fixes its bytes per pixel. -/
theorem State.mode_bpp {s : State} {m : Mode} (h : s.mode = some m) :
    m.bpp.toNat = s.bpp.toNat ∧ Kernel.ofBits? s.ksel = some m.kernel := by
  rw [State.mode] at h
  split at h
  · rename_i k b hk hb
    cases h
    exact ⟨Bpp.ofNat?_eq_some hb, hk⟩
  · cases h

/-- The payload of a row whose parameters have a meaning: at least one pixel, and it fits a 32-bit index. -/
theorem State.geometry_n {s : State} (h : s.geometry? = none) :
    0 < s.bpp.toNat ∧ s.bpp.toNat ≤ s.n ∧ s.n + 1 = s.bpl.toNat ∧ s.n < 2 ^ 32 - 1 := by
  obtain ⟨b, hb, hl⟩ := State.geometry_bpp h
  have h1 := Bpp.toNat_pos b
  rw [Bpp.ofNat?_eq_some hb] at h1
  have h2 := (bplOk_iff.1 hl).1
  have h3 := s.bpl.isLt
  rw [State.n]
  omega

/-- The end of a row instruction: the cursor and nothing else (R131, R132). -/
theorem cursorAdvanced_advance {s t : State} (h : SameRow s t) : CursorAdvanced s t.advance where
  u := by rw [State.advance_u, h.p]
  p := fun hp => by rw [State.advance_p, h.p, h.bpl, fitAddr, h.addrW, if_pos hp]
  y := by rw [State.advance_y, h.y]
  status := by rw [State.advance_status, h.y, h.h, h.status]

theorem rowFrame_advance {s t : State} (h : SameRow s t) : RowFrame s t.advance :=
  { h.toRowFrame with }

end Sys2Proof.Machine
end

