-- ==== Sys2Proof/Laws/Vector.lean ====
section
/-! SUPPORT. The lanes of each V-op's result, and equality of vectors that have equal lanes. -/

namespace Sys2Proof.Machine

/-- The bits of a packed vector. -/
theorem getLsbD_packLanes (w : Nat) (hw : 0 < w) (f : Nat → BitVec w) (n : Nat) (hn : w * n ≤ 128) (j : Nat) :
    (packLanes w f n).getLsbD j = (decide (j < w * n) && (f (j / w)).getLsbD (j % w)) := by
  induction n with
  | zero => simp [packLanes]
  | succ n ih =>
    have hm : w * (n + 1) = w * n + w := Nat.mul_succ w n
    rw [packLanes, BitVec.getLsbD_or, ih (by omega), BitVec.getLsbD_shiftLeft, BitVec.getLsbD_setWidth]
    by_cases h1 : j < w * n
    · simp [h1, show j < w * (n + 1) by omega]
    · by_cases h2 : j < w * (n + 1)
      · have hd : j / w = n := by
          apply Nat.div_eq_of_lt_le
          · rw [Nat.mul_comm]; omega
          · rw [Nat.mul_comm, Nat.mul_succ]; omega
        have hj : j % w = j - w * n := by
          have := Nat.div_add_mod j w
          rw [hd] at this
          omega
        simp [h1, h2, hd, hj, show j < 128 by omega, show j - w * n < 128 by omega]
      · have hg : (f n).getLsbD (j - w * n) = false := BitVec.getLsbD_of_ge _ _ (by omega)
        simp [h1, h2, hg]

theorem extract_packLanes (w : Nat) (hw : 0 < w) (f : Nat → BitVec w) (n : Nat) (hn : w * n ≤ 128) {k : Nat}
    (hk : k < n) : (packLanes w f n).extractLsb' (w * k) w = f k := by
  apply BitVec.eq_of_getLsbD_eq
  intro j hj
  have h1 : w * k + j < w * n := by
    calc w * k + j < w * k + w := by omega
      _ = w * (k + 1) := (Nat.mul_succ w k).symm
      _ ≤ w * n := Nat.mul_le_mul_left w hk
  have h2 : (w * k + j) / w = k := by
    rw [Nat.mul_add_div hw, Nat.div_eq_of_lt hj, Nat.add_zero]
  have h3 : (w * k + j) % w = j := by
    rw [Nat.mul_add_mod, Nat.mod_eq_of_lt hj]
  rw [BitVec.getLsbD_extractLsb', getLsbD_packLanes w hw f n hn, h2, h3]
  simp [h1, hj]

@[simp] theorem lane8_ofLanes8 (f : Nat → Byte) {k : Nat} (hk : k < 16) : lane8 (ofLanes8 f) k = f k :=
  extract_packLanes 8 (by decide) f 16 (by decide) hk

@[simp] theorem lane16_ofLanes16 (f : Nat → Half) {k : Nat} (hk : k < 8) : lane16 (ofLanes16 f) k = f k :=
  extract_packLanes 16 (by decide) f 8 (by decide) hk

@[simp] theorem lane32_ofLanes32 (f : Nat → Word) {k : Nat} (hk : k < 4) : lane32 (ofLanes32 f) k = f k :=
  extract_packLanes 32 (by decide) f 4 (by decide) hk

/-- A byte lane past the last is 0. -/
theorem lane8_of_ge (v : V128) {k : Nat} (hk : 16 ≤ k) : lane8 v k = 0#8 := by
  apply BitVec.eq_of_getLsbD_eq
  intro j hj
  rw [lane8, BitVec.getLsbD_extractLsb', BitVec.getLsbD_of_ge v _ (by omega)]
  simp

theorem lane16_of_ge (v : V128) {k : Nat} (hk : 8 ≤ k) : lane16 v k = 0#16 := by
  apply BitVec.eq_of_getLsbD_eq
  intro j hj
  rw [lane16, BitVec.getLsbD_extractLsb', BitVec.getLsbD_of_ge v _ (by omega)]
  simp

/-- Vectors with equal byte lanes are equal. -/
theorem ext_lane8 {a b : V128} (h : ∀ k < 16, lane8 a k = lane8 b k) : a = b := by
  apply BitVec.eq_of_getLsbD_eq
  intro j hj
  have h1 := congrArg (fun x => x.getLsbD (j % 8)) (h (j / 8) (by omega))
  simp only [lane8, BitVec.getLsbD_extractLsb'] at h1
  rw [Nat.div_add_mod] at h1
  simpa [Nat.mod_lt] using h1

/-- Vectors with equal 16-bit lanes are equal. -/
theorem ext_lane16 {a b : V128} (h : ∀ k < 8, lane16 a k = lane16 b k) : a = b := by
  apply BitVec.eq_of_getLsbD_eq
  intro j hj
  have h1 := congrArg (fun x => x.getLsbD (j % 16)) (h (j / 16) (by omega))
  simp only [lane16, BitVec.getLsbD_extractLsb'] at h1
  rw [Nat.div_add_mod] at h1
  simpa [Nat.mod_lt] using h1

/-- The low byte of a 16-bit lane is an even byte lane. -/
theorem lane8_even (v : V128) (k : Nat) : lane8 v (2 * k) = (lane16 v k).setWidth 8 := by
  apply BitVec.eq_of_getLsbD_eq
  intro j hj
  rw [lane8, lane16, BitVec.getLsbD_extractLsb', BitVec.getLsbD_setWidth, BitVec.getLsbD_extractLsb']
  simp [hj, show j < 16 by omega, show 8 * (2 * k) + j = 16 * k + j by omega]

/-- The high byte of a 16-bit lane is an odd byte lane. -/
theorem lane8_odd (v : V128) (k : Nat) : lane8 v (2 * k + 1) = (lane16 v k).extractLsb' 8 8 := by
  apply BitVec.eq_of_getLsbD_eq
  intro j hj
  rw [lane8, lane16, BitVec.getLsbD_extractLsb', BitVec.getLsbD_extractLsb', BitVec.getLsbD_extractLsb']
  simp [hj, show 8 + j < 16 by omega, show 8 * (2 * k + 1) + j = 16 * k + (8 + j) by omega]

/-- A 16-bit lane as the number its two byte lanes make. -/
theorem lane16_toNat (v : V128) (k : Nat) :
    (lane16 v k).toNat = (lane8 v (2 * k)).toNat + 256 * (lane8 v (2 * k + 1)).toNat := by
  rw [lane8_even, lane8_odd]
  simp only [BitVec.toNat_setWidth, BitVec.extractLsb'_toNat, Nat.shiftRight_eq_div_pow]
  have := (lane16 v k).isLt
  omega

/-- A 16-bit lane whose high byte is 0. -/
theorem lane16_of_high_zero {v : V128} {k : Nat} (h : lane8 v (2 * k + 1) = 0#8) :
    lane16 v k = (lane8 v (2 * k)).setWidth 16 := by
  apply BitVec.eq_of_toNat_eq
  rw [lane16_toNat, h]
  have := (lane8 v (2 * k)).isLt
  simp only [BitVec.toNat_setWidth, BitVec.toNat_ofNat]
  omega

/-! ### Constants -/

@[simp] theorem lane8_zeroV (k : Nat) : lane8 zeroV k = 0#8 := by simp [lane8, zeroV]

@[simp] theorem lane16_zeroV (k : Nat) : lane16 zeroV k = 0#16 := by simp [lane16, zeroV]

@[simp] theorem lane16_k5580 {k : Nat} (hk : k < 8) : lane16 k5580 k = 0x5580#16 := by simp [k5580, hk]

@[simp] theorem lane16_m00FF {k : Nat} (hk : k < 8) : lane16 m00FF k = 0x00FF#16 := by simp [m00FF, hk]

/-! ### Loads and stores -/

@[simp] theorem lane8_vld16a (m : Memory) (a : Nat) {k : Nat} (hk : k < 16) : lane8 (vld16a m a) k = m.read (a + k) := by
  simp [vld16a, hk]

@[simp] theorem lane8_vld16u (m : Memory) (a : Nat) {k : Nat} (hk : k < 16) : lane8 (vld16u m a) k = m.read (a + k) := by
  simp [vld16u, hk]

@[simp] theorem lane8_vld8 (m : Memory) (a : Nat) {k : Nat} (hk : k < 16) :
    lane8 (vld8 m a) k = if k < 8 then m.read (a + k) else 0#8 := by
  simp [vld8, hk]

/-! ### Lane arithmetic -/

@[simp] theorem lane8_vaddb (a b : V128) {k : Nat} (hk : k < 16) : lane8 (vaddb a b) k = lane8 a k + lane8 b k := by
  simp [vaddb, hk]

@[simp] theorem lane16_vaddw (a b : V128) {k : Nat} (hk : k < 8) :
    lane16 (vaddw a b) k = lane16 a k + lane16 b k := by
  simp [vaddw, hk]

@[simp] theorem lane16_vsubw (a b : V128) {k : Nat} (hk : k < 8) :
    lane16 (vsubw a b) k = lane16 a k - lane16 b k := by
  simp [vsubw, hk]

@[simp] theorem lane16_vminsw (a b : V128) {k : Nat} (hk : k < 8) :
    lane16 (vminsw a b) k = if (lane16 a k).toInt ≤ (lane16 b k).toInt then lane16 a k else lane16 b k := by
  simp [vminsw, hk]

@[simp] theorem lane16_vmaxsw (a b : V128) {k : Nat} (hk : k < 8) :
    lane16 (vmaxsw a b) k = if (lane16 b k).toInt ≤ (lane16 a k).toInt then lane16 a k else lane16 b k := by
  simp [vmaxsw, hk]

@[simp] theorem lane16_vmulhuw (a b : V128) {k : Nat} (hk : k < 8) :
    lane16 (vmulhuw a b) k = BitVec.ofNat 16 (((lane16 a k).toNat * (lane16 b k).toNat) >>> 16) := by
  rw [vmulhuw, lane16_ofLanes16 _ hk]

@[simp] theorem lane16_vsraw (a : V128) (n : Nat) {k : Nat} (hk : k < 8) :
    lane16 (vsraw a n) k = (lane16 a k).sshiftRight n := by
  simp [vsraw, hk]

@[simp] theorem lane16_vsrlw (a : V128) (n : Nat) {k : Nat} (hk : k < 8) :
    lane16 (vsrlw a n) k = lane16 a k >>> n := by
  simp [vsrlw, hk]

@[simp] theorem lane16_vsllw (a : V128) (n : Nat) {k : Nat} (hk : k < 8) :
    lane16 (vsllw a n) k = lane16 a k <<< n := by
  simp [vsllw, hk]

@[simp] theorem lane16_vand (a b : V128) (k : Nat) : lane16 (vand a b) k = lane16 a k &&& lane16 b k := by
  apply BitVec.eq_of_getLsbD_eq
  intro j hj
  simp [lane16, vand, hj]

@[simp] theorem lane16_vandn (m v : V128) {k : Nat} (hk : k < 8) :
    lane16 (vandn m v) k = ~~~lane16 m k &&& lane16 v k := by
  apply BitVec.eq_of_getLsbD_eq
  intro j hj
  simp [lane16, vandn, hj, show 16 * k + j < 128 by omega]

/-! ### Lane movement -/

@[simp] theorem lane8_vslldq (a : V128) (n : Nat) {k : Nat} (hk : k < 16) :
    lane8 (vslldq a n) k = if n ≤ k then lane8 a (k - n) else 0#8 := by
  simp [vslldq, hk]

@[simp] theorem lane8_vsrldq (a : V128) (n : Nat) {k : Nat} (hk : k < 16) :
    lane8 (vsrldq a n) k = lane8 a (k + n) := by
  rw [vsrldq, lane8_ofLanes8 _ hk]
  split
  · rfl
  · rw [lane8_of_ge a (by omega)]

theorem lane8_vunpklbw (a b : V128) {k : Nat} (hk : k < 16) :
    lane8 (vunpklbw a b) k = if k % 2 = 0 then lane8 a (k / 2) else lane8 b (k / 2) := by
  rw [vunpklbw, lane8_ofLanes8 _ hk]

theorem lane8_vunpkhbw (a b : V128) {k : Nat} (hk : k < 16) :
    lane8 (vunpkhbw a b) k = if k % 2 = 0 then lane8 a (8 + k / 2) else lane8 b (8 + k / 2) := by
  rw [vunpkhbw, lane8_ofLanes8 _ hk]

/-- Unpacking with ZERO widens the low eight bytes (R159). -/
@[simp] theorem lane16_vunpklbw_zero (a : V128) {k : Nat} (hk : k < 8) :
    lane16 (vunpklbw a zeroV) k = (lane8 a k).setWidth 16 := by
  have h : lane8 (vunpklbw a zeroV) (2 * k + 1) = 0#8 := by
    rw [lane8_vunpklbw _ _ (by omega), if_neg (by omega), lane8_zeroV]
  rw [lane16_of_high_zero h, lane8_vunpklbw _ _ (by omega), if_pos (by omega), show 2 * k / 2 = k by omega]

/-- Unpacking with ZERO widens the high eight bytes (R160). -/
@[simp] theorem lane16_vunpkhbw_zero (a : V128) {k : Nat} (hk : k < 8) :
    lane16 (vunpkhbw a zeroV) k = (lane8 a (8 + k)).setWidth 16 := by
  have h : lane8 (vunpkhbw a zeroV) (2 * k + 1) = 0#8 := by
    rw [lane8_vunpkhbw _ _ (by omega), if_neg (by omega), lane8_zeroV]
  rw [lane16_of_high_zero h, lane8_vunpkhbw _ _ (by omega), if_pos (by omega), show 2 * k / 2 = k by omega]

/-- A byte shift by an even count moves whole 16-bit lanes up. -/
@[simp] theorem lane16_vslldq_even (a : V128) (n : Nat) {k : Nat} (hk : k < 8) :
    lane16 (vslldq a (2 * n)) k = if n ≤ k then lane16 a (k - n) else 0#16 := by
  apply BitVec.eq_of_toNat_eq
  rw [lane16_toNat, lane8_vslldq _ _ (by omega), lane8_vslldq _ _ (by omega)]
  split
  · rename_i h
    rw [if_pos (by omega), if_pos (by omega), lane16_toNat, show 2 * k - 2 * n = 2 * (k - n) by omega,
      show 2 * k + 1 - 2 * n = 2 * (k - n) + 1 by omega]
  · rename_i h
    rw [if_neg (by omega), if_neg (by omega)]; rfl

/-- A byte shift by an even count moves whole 16-bit lanes down. -/
@[simp] theorem lane16_vsrldq_even (a : V128) (n : Nat) {k : Nat} (hk : k < 8) :
    lane16 (vsrldq a (2 * n)) k = lane16 a (k + n) := by
  apply BitVec.eq_of_toNat_eq
  rw [lane16_toNat, lane8_vsrldq _ _ (by omega), lane8_vsrldq _ _ (by omega), lane16_toNat,
    show 2 * k + 2 * n = 2 * (k + n) by omega, show 2 * k + 1 + 2 * n = 2 * (k + n) + 1 by omega]

theorem lane8_vpackuswb (a b : V128) {k : Nat} (hk : k < 16) :
    lane8 (vpackuswb a b) k = if k < 8 then sat8 (lane16 a k) else sat8 (lane16 b (k - 8)) := by
  rw [vpackuswb, lane8_ofLanes8 _ hk]

/-- The pack passes a value of `[0, 255]` unchanged (R161). -/
theorem sat8_of_lt {x : Half} (h : x.toNat < 256) : sat8 x = x.setWidth 8 := by
  have h1 : x.toInt = x.toNat := by rw [BitVec.toInt_eq_toNat_of_lt (by omega)]
  apply BitVec.eq_of_toNat_eq
  rw [sat8, h1, show min (255 : Int) (max 0 (x.toNat : Int)) = ((x.toNat : Nat) : Int) by omega, BitVec.ofInt_natCast]
  simp

@[simp] theorem lane32_vshufd (a : V128) (imm : Byte) {k : Nat} (hk : k < 4) :
    lane32 (vshufd a imm) k = lane32 a (shufSel imm k) := by
  rw [vshufd, lane32_ofLanes32 _ hk]

@[simp] theorem lane16_vshuflw (a : V128) (imm : Byte) {k : Nat} (hk : k < 8) :
    lane16 (vshuflw a imm) k = if k < 4 then lane16 a (shufSel imm k) else lane16 a k := by
  rw [vshuflw, lane16_ofLanes16 _ hk]

@[simp] theorem lane16_vshufhw (a : V128) (imm : Byte) {k : Nat} (hk : k < 8) :
    lane16 (vshufhw a imm) k = if k < 4 then lane16 a k else lane16 a (4 + shufSel imm (k - 4)) := by
  rw [vshufhw, lane16_ofLanes16 _ hk]

@[simp] theorem lane32_vcvt32 (x : Word) {k : Nat} (hk : k < 4) :
    lane32 (vcvt32 x) k = if k = 0 then x else 0#32 := by
  rw [vcvt32, lane32_ofLanes32 _ hk]

/-- A byte lane is a byte of a 32-bit lane. -/
theorem lane8_of_lane32 (v : V128) (k : Nat) : lane8 v k = (lane32 v (k / 4)).extractLsb' (8 * (k % 4)) 8 := by
  apply BitVec.eq_of_getLsbD_eq
  intro j hj
  rw [lane8, lane32, BitVec.getLsbD_extractLsb', BitVec.getLsbD_extractLsb', BitVec.getLsbD_extractLsb']
  have h1 : 8 * (k % 4) + j < 32 := by omega
  have h2 : 32 * (k / 4) + (8 * (k % 4) + j) = 8 * k + j := by omega
  simp [hj, h1, h2]

/-- The byte lanes of the little-endian 32-bit load brought into a vector (R165, R168). -/
theorem lane8_vcvt32_ld32le (m : Memory) (a : Nat) {k : Nat} (hk : k < 16) :
    lane8 (vcvt32 (ld32le m a)) k = if k < 4 then m.read (a + k) else 0#8 := by
  rw [lane8_of_lane32, lane32_vcvt32 _ (by omega)]
  by_cases h : k < 4
  · rw [if_pos (by omega), if_pos h]
    apply BitVec.eq_of_getLsbD_eq
    intro j hj
    rw [BitVec.getLsbD_extractLsb', ld32le]
    simp only [hj, decide_true, Bool.true_and, BitVec.getLsbD_or, BitVec.getLsbD_shiftLeft,
      BitVec.getLsbD_setWidth]
    rcases (show k = 0 ∨ k = 1 ∨ k = 2 ∨ k = 3 by omega) with rfl | rfl | rfl | rfl
    · simp [show j < 8 by omega, show j < 16 by omega, show j < 24 by omega, show j < 32 by omega]
    · simp [show 8 + j < 16 by omega, show 8 + j < 24 by omega, show 8 + j < 32 by omega,
        show j < 32 by omega]
    · simp [show 16 + j < 24 by omega, show 16 + j < 32 by omega, show j < 32 by omega,
        BitVec.getLsbD_of_ge (m.read a) (16 + j) (by omega),
        BitVec.getLsbD_of_ge (m.read (a + 1)) (16 + j - 8) (by omega)]
    · simp [show 24 + j < 32 by omega, show j < 32 by omega,
        BitVec.getLsbD_of_ge (m.read a) (24 + j) (by omega),
        BitVec.getLsbD_of_ge (m.read (a + 1)) (24 + j - 8) (by omega),
        BitVec.getLsbD_of_ge (m.read (a + 2)) (24 + j - 16) (by omega)]
  · rw [if_neg h]
    by_cases h0 : k / 4 = 0
    · omega
    · rw [if_neg h0]
      apply BitVec.eq_of_getLsbD_eq
      intro j hj
      simp

end Sys2Proof.Machine
end

