-- ==== Sys2Proof/Laws/Blocks.lean ====
section
/-! SUPPORT. What the block functions and the register drops touch, the lanes of a register pair, the stages of a
16-byte block, the carry seed, and induction over the block loops and the frame of a SIMD row. -/

namespace Sys2Proof.Machine

/-! ### Sums mod 256 and the literal loops -/

theorem and_255 (x : Nat) : x &&& 255 = x % 256 := Nat.and_two_pow_sub_one_eq_mod x 8

theorem sumMod256_lt (x y : Nat) : sumMod256 x y < 256 := Nat.lt_of_le_of_lt Nat.and_le_right (by decide)

theorem sumMod256_zero (x : Byte) : sumMod256 x.toNat 0 = x.toNat := by
  rw [sumMod256, Nat.add_zero, and_255, Nat.mod_eq_of_lt x.isLt]

/-- A literal loop whose addend is the filter's finishes the stretch. -/
theorem Progress.addLoop {f : Filter} {bpp lo hi : Nat} {s t : State} {g : Nat → State → Nat}
    (h : Progress f bpp lo s t) (hb : 0 < bpp) (hlo : lo ≤ hi)
    (hg : ∀ i r, lo ≤ i → i < hi → Progress f bpp i s r → sumMod256 (s.payload i).toNat (g i r) =
      recon f (s.payload i).toNat (if bpp ≤ i then (r.payload (i - bpp)).toNat else 0)
      (s.above i).toNat (if bpp ≤ i then (s.above (i - bpp)).toNat else 0)) :
    Progress f bpp hi s (forRange lo hi (fun i s => s.addPayload i (g i s)) t) := by
  have : Progress f bpp (lo + (hi - lo)) s (forUp (fun i s => s.addPayload i (g i s)) lo (hi - lo) t) := by
    refine forUp_induct (P := fun j r => Progress f bpp (lo + j) s r) h fun j hj r hr => ?_
    refine hr.byte hb (sameRow_addPayload _ _ _) rfl ?_
    rw [hr.payload_raw (Nat.le_refl _)]
    exact hg _ _ (by omega) (by omega) hr
  rwa [Nat.add_sub_cancel' hlo] at this

/-! ### What each block touches: memory, its carry and I -/

theorem subBlock16_mem (b : Bpp) (s : State) : (subBlock16 b s).mem =
    s.mem.writeBytes (s.p + s.i.toNat) (lane8 (subOut b (vld16a s.mem (s.p + s.i.toNat)) s.c)) 16 := rfl

theorem subBlock16_c (b : Bpp) (s : State) :
    (subBlock16 b s).c = vsrldq (subOut b (vld16a s.mem (s.p + s.i.toNat)) s.c) (16 - b.toNat) := rfl

theorem subBlock16_cw (b : Bpp) (s : State) : (subBlock16 b s).cw = vunpklbw (subBlock16 b s).c zeroV := rfl

theorem subBlock16_i (b : Bpp) (s : State) : (subBlock16 b s).i = BitVec.ofNat 32 (s.i.toNat + 16) := rfl

theorem sameRow_subBlock16 (b : Bpp) (s : State) : SameRow s (subBlock16 b s) := by
  unfold subBlock16
  exact ⟨⟨rfl, rfl, rfl, rfl, rfl, rfl, rfl, rfl, rfl, rfl, rfl, rfl, rfl, rfl⟩, rfl, rfl, rfl, rfl, rfl⟩

theorem upStore16_mem (r : Nat) (s : State) : (upStore16 r s).mem =
    s.mem.writeBytes (s.p + (s.i.toNat + 16 * r))
      (lane8 (vaddb (vld16a s.mem (s.p + (s.i.toNat + 16 * r))) (s.uvec16 (s.i.toNat + 16 * r)))) 16 := rfl

theorem upStore16_i (r : Nat) (s : State) : (upStore16 r s).i = s.i := by simp only [upStore16]

theorem sameRow_upStore16 (r : Nat) (s : State) : SameRow s (upStore16 r s) := by
  unfold upStore16
  exact ⟨⟨rfl, rfl, rfl, rfl, rfl, rfl, rfl, rfl, rfl, rfl, rfl, rfl, rfl, rfl⟩, rfl, rfl, rfl, rfl, rfl⟩

theorem upBlock8_mem (s : State) : (upBlock8 s).mem =
    s.mem.writeBytes (s.p + s.i.toNat) (lane8 (vaddb (vld8 s.mem (s.p + s.i.toNat)) (s.uvec8 s.i.toNat))) 8 := rfl

theorem upBlock8_i (s : State) : (upBlock8 s).i = BitVec.ofNat 32 (s.i.toNat + 8) := rfl

theorem sameRow_upBlock8 (s : State) : SameRow s (upBlock8 s) := by
  unfold upBlock8
  exact ⟨⟨rfl, rfl, rfl, rfl, rfl, rfl, rfl, rfl, rfl, rfl, rfl, rfl, rfl, rfl⟩, rfl, rfl, rfl, rfl, rfl⟩

theorem avgBlock16_mem (b : Bpp) (s : State) : (avgBlock16 b s).mem =
    s.mem.writeBytes (s.p + s.i.toNat)
      (lane8 (vpackuswb (avgOut b (vld16a s.mem (s.p + s.i.toNat)) (s.uvec16 s.i.toNat) s.cw).1
        (avgOut b (vld16a s.mem (s.p + s.i.toNat)) (s.uvec16 s.i.toNat) s.cw).2)) 16 := rfl

theorem avgBlock16_cw (b : Bpp) (s : State) : (avgBlock16 b s).cw =
    vsrldq (avgOut b (vld16a s.mem (s.p + s.i.toNat)) (s.uvec16 s.i.toNat) s.cw).2 (16 - 2 * b.toNat) := rfl

theorem avgBlock16_c (b : Bpp) (s : State) : (avgBlock16 b s).c = vpackuswb (avgBlock16 b s).cw zeroV := rfl

theorem avgBlock16_i (b : Bpp) (s : State) : (avgBlock16 b s).i = BitVec.ofNat 32 (s.i.toNat + 16) := rfl

theorem sameRow_avgBlock16 (b : Bpp) (s : State) : SameRow s (avgBlock16 b s) := by
  unfold avgBlock16
  exact ⟨⟨rfl, rfl, rfl, rfl, rfl, rfl, rfl, rfl, rfl, rfl, rfl, rfl, rfl, rfl⟩, rfl, rfl, rfl, rfl, rfl⟩

theorem paethBlock16_mem (b : Bpp) (s : State) : (paethBlock16 b s).mem =
    s.mem.writeBytes (s.p + s.i.toNat)
      (lane8 (vpackuswb
        (paethOut b (vld16a s.mem (s.p + s.i.toNat)) (s.uvec16 s.i.toNat) (s.uvec16 (s.i.toNat - b.toNat)) s.cw).1
        (paethOut b (vld16a s.mem (s.p + s.i.toNat)) (s.uvec16 s.i.toNat) (s.uvec16 (s.i.toNat - b.toNat)) s.cw).2))
      16 := rfl

theorem paethBlock16_cw (b : Bpp) (s : State) : (paethBlock16 b s).cw =
    vsrldq (paethOut b (vld16a s.mem (s.p + s.i.toNat)) (s.uvec16 s.i.toNat) (s.uvec16 (s.i.toNat - b.toNat)) s.cw).2
      (16 - 2 * b.toNat) := rfl

theorem paethBlock16_c (b : Bpp) (s : State) : (paethBlock16 b s).c = vpackuswb (paethBlock16 b s).cw zeroV := rfl

theorem paethBlock16_i (b : Bpp) (s : State) : (paethBlock16 b s).i = BitVec.ofNat 32 (s.i.toNat + 16) := rfl

theorem sameRow_paethBlock16 (b : Bpp) (s : State) : SameRow s (paethBlock16 b s) := by
  unfold paethBlock16
  exact ⟨⟨rfl, rfl, rfl, rfl, rfl, rfl, rfl, rfl, rfl, rfl, rfl, rfl, rfl, rfl⟩, rfl, rfl, rfl, rfl, rfl⟩

theorem paethBlock8_mem (s : State) : (paethBlock8 s).mem =
    s.mem.writeBytes (s.p + s.i.toNat)
      (lane8 (vpackuswb
        (paethOut3 (vunpklbw (vld8 s.mem (s.p + s.i.toNat)) zeroV) (vunpklbw (s.uvec8 s.i.toNat) zeroV)
          (vunpklbw (s.uvec8 (s.i.toNat - 3)) zeroV) s.cw 3)
        (paethOut3 (vunpklbw (vld8 s.mem (s.p + s.i.toNat)) zeroV) (vunpklbw (s.uvec8 s.i.toNat) zeroV)
          (vunpklbw (s.uvec8 (s.i.toNat - 3)) zeroV) s.cw 3))) 8 := rfl

theorem paethBlock8_cw (s : State) : (paethBlock8 s).cw =
    vsrldq (paethOut3 (vunpklbw (vld8 s.mem (s.p + s.i.toNat)) zeroV) (vunpklbw (s.uvec8 s.i.toNat) zeroV)
          (vunpklbw (s.uvec8 (s.i.toNat - 3)) zeroV) s.cw 3) 10 := rfl

theorem paethBlock8_c (s : State) : (paethBlock8 s).c = vpackuswb (paethBlock8 s).cw zeroV := rfl

theorem paethBlock8_i (s : State) : (paethBlock8 s).i = BitVec.ofNat 32 (s.i.toNat + 8) := rfl

theorem sameRow_paethBlock8 (s : State) : SameRow s (paethBlock8 s) := by
  unfold paethBlock8
  exact ⟨⟨rfl, rfl, rfl, rfl, rfl, rfl, rfl, rfl, rfl, rfl, rfl, rfl, rfl, rfl⟩, rfl, rfl, rfl, rfl, rfl⟩

/-! ### Dropped registers -/

theorem sameRow_dropIndex (s : State) : SameRow s s.dropIndex := by
  unfold State.dropIndex
  exact ⟨⟨rfl, rfl, rfl, rfl, rfl, rfl, rfl, rfl, rfl, rfl, rfl, rfl, rfl, rfl⟩, rfl, rfl, rfl, rfl, rfl⟩

theorem sameRow_dropVectors (s : State) : SameRow s s.dropVectors := by
  unfold State.dropVectors
  exact ⟨⟨rfl, rfl, rfl, rfl, rfl, rfl, rfl, rfl, rfl, rfl, rfl, rfl, rfl, rfl⟩, rfl, rfl, rfl, rfl, rfl⟩

theorem sameRow_dropCarry (s : State) : SameRow s s.dropCarry := by
  unfold State.dropCarry
  exact ⟨⟨rfl, rfl, rfl, rfl, rfl, rfl, rfl, rfl, rfl, rfl, rfl, rfl, rfl, rfl⟩, rfl, rfl, rfl, rfl, rfl⟩

theorem sameRow_dropRolling (s : State) : SameRow s s.dropRolling := by
  unfold State.dropRolling
  exact ⟨⟨rfl, rfl, rfl, rfl, rfl, rfl, rfl, rfl, rfl, rfl, rfl, rfl, rfl, rfl⟩, rfl, rfl, rfl, rfl, rfl⟩

theorem sameRow_dropRunning (s : State) : SameRow s s.dropRunning := by
  unfold State.dropRunning
  exact ⟨⟨rfl, rfl, rfl, rfl, rfl, rfl, rfl, rfl, rfl, rfl, rfl, rfl, rfl, rfl⟩, rfl, rfl, rfl, rfl, rfl⟩

/-! ### The register pair of a 16-byte block -/

/-- 16-bit lane `k` of a register pair, `k` from 0 to 15. -/
def wide (o : V128 × V128) (k : Nat) : Half := if k < 8 then lane16 o.1 k else lane16 o.2 (k - 8)

/-- The left neighbours of a stage: the carry below, the pair moved up by `bpp` above it (R216, R239). -/
theorem wide_shiftPair {b : Bpp} {ol oh cw : V128}
    (hcw : ∀ j, b.toNat ≤ j → lane16 cw j = 0#16) {k : Nat} (hk : k < 16) :
    wide (shiftPair b ol oh cw) k = if k < b.toNat then lane16 cw k else wide (ol, oh) (k - b.toNat) := by
  have hle := Bpp.toNat_le b
  unfold shiftPair
  by_cases hb : b.toNat < 8
  · simp only [if_pos hb, wide]
    by_cases h8 : k < 8
    · rw [if_pos h8, lane16_vaddw _ _ h8, lane16_vslldq_even _ _ h8]
      by_cases hkb : k < b.toNat
      · rw [if_neg (by omega), if_pos hkb, BitVec.zero_add]
      · rw [if_pos (by omega), if_neg hkb, if_pos (by omega), hcw k (by omega), BitVec.add_zero]
    · rw [if_neg h8, if_neg (by omega), lane16_vaddw _ _ (by omega), lane16_vslldq_even _ _ (by omega),
        show 16 - 2 * b.toNat = 2 * (8 - b.toNat) by omega, lane16_vsrldq_even _ _ (by omega)]
      by_cases hkb : b.toNat ≤ k - 8
      · rw [if_pos hkb, if_neg (by omega), lane16_of_ge ol (by omega), BitVec.add_zero]
        congr 1; omega
      · rw [if_neg hkb, if_pos (by omega), BitVec.zero_add]
        congr 1; omega
  · have : b.toNat = 8 := by omega
    simp only [wide, this]
    by_cases h8 : k < 8
    · simp [h8]
    · simp [h8, show k - 8 < 8 by omega]

theorem stageCount_covers (b : Bpp) : 16 ≤ stageCount b * b.toNat := by cases b <;> decide

theorem lane16_and_00FF (x : Half) : x &&& 0x00FF#16 = BitVec.ofNat 16 (x.toNat % 256) := by
  apply BitVec.eq_of_toNat_eq
  rw [BitVec.toNat_and]
  simp only [BitVec.toNat_ofNat]
  rw [show 255 % 2^16 = 2^8 - 1 from rfl, Nat.and_two_pow_sub_one_eq_mod]
  omega

/-- The bytes a pair packs to (R161), when its lanes are of byte range. -/
theorem lane8_pack {o : V128 × V128} (h : ∀ k < 16, (wide o k).toNat < 256) {k : Nat} (hk : k < 16) :
    (lane8 (vpackuswb o.1 o.2) k).toNat = (wide o k).toNat := by
  have := h k hk
  rw [lane8_vpackuswb _ _ hk]
  unfold wide at *
  split
  · rename_i h8
    rw [if_pos h8] at this
    rw [sat8_of_lt this, BitVec.toNat_setWidth]; omega
  · rename_i h8
    rw [if_neg h8] at this
    rw [sat8_of_lt this, BitVec.toNat_setWidth]; omega

/-- Unpacking with ZERO widens a byte vector to a pair (R159, R160). -/
theorem wide_unpack (x : V128) {k : Nat} (hk : k < 16) :
    wide (vunpklbw x zeroV, vunpkhbw x zeroV) k = (lane8 x k).setWidth 16 := by
  unfold wide
  split
  · rename_i h; simp [h]
  · rename_i h
    simp only [lane16_vunpkhbw_zero _ (show k - 8 < 8 by omega), show 8 + (k - 8) = k by omega]

/-- The lanes of every stage are of byte range. -/
theorem stages_lt {b : Bpp} {cw : V128} {stage : V128 × V128 → V128 × V128}
    (hcw : ∀ j, b.toNat ≤ j → lane16 cw j = 0#16) (hcl : ∀ j, (lane16 cw j).toNat < 256)
    (hst : ∀ l, (∀ k < 16, (wide l k).toNat < 256) → ∀ k < 16, (wide (stage l) k).toNat < 256) (m : Nat) :
    ∀ k < 16, (wide (stages b cw stage m) k).toNat < 256 := by
  induction m with
  | zero => intro k _; simp [stages, wide]
  | succ m ih =>
    rw [stages]
    refine hst _ fun k hk => ?_
    rw [wide_shiftPair hcw hk]
    split
    · exact hcl k
    · exact ih _ (by omega)

/-- The pair after `m` stages: its first `m·bpp` lanes are the recurrence of the block, each from the lane `bpp` before
it, the first `bpp` from the carry (R216, R239). -/
theorem stages_recNat {b : Bpp} {cw : V128} {stage : V128 × V128 → V128 × V128} {F : Nat → Nat → Nat}
    (hcw : ∀ j, b.toNat ≤ j → lane16 cw j = 0#16) (hcl : ∀ j, (lane16 cw j).toNat < 256) (hF : ∀ k x, F k x < 256)
    (hst : ∀ l, (∀ k < 16, (wide l k).toNat < 256) → ∀ k < 16, (wide (stage l) k).toNat = F k (wide l k).toNat)
    (m : Nat) :
    (∀ k < 16, (wide (stages b cw stage m) k).toNat < 256) ∧
    ∀ k < 16, k < m * b.toNat → (wide (stages b cw stage m) k).toNat =
      F k (if k < b.toNat then (lane16 cw k).toNat else (wide (stages b cw stage m) (k - b.toNat)).toNat) := by
  have hb := Bpp.toNat_pos b
  have hlt : ∀ m, ∀ k < 16, (wide (stages b cw stage m) k).toNat < 256 :=
    stages_lt hcw hcl fun l hl k hk => by rw [hst l hl k hk]; exact hF _ _
  have hsh : ∀ m, ∀ k < 16,
      (wide (shiftPair b (stages b cw stage m).1 (stages b cw stage m).2 cw) k).toNat < 256 := by
    intro m k hk
    rw [wide_shiftPair hcw hk]
    split
    · exact hcl k
    · exact hlt m _ (by omega)
  have hsucc : ∀ m k, k < 16 → (wide (stages b cw stage (m + 1)) k).toNat =
      F k (if k < b.toNat then (lane16 cw k).toNat else (wide (stages b cw stage m) (k - b.toNat)).toNat) := by
    intro m k hk
    rw [stages, hst _ (hsh m) _ hk, wide_shiftPair hcw hk]
    split <;> rfl
  have stable : ∀ m k, k < 16 → k < m * b.toNat →
      (wide (stages b cw stage (m + 1)) k).toNat = (wide (stages b cw stage m) k).toNat := by
    intro m
    induction m with
    | zero => intro k _ h; omega
    | succ m ih =>
      intro k hk h
      rw [hsucc (m + 1) k hk, hsucc m k hk]
      by_cases hkb : k < b.toNat
      · rw [if_pos hkb, if_pos hkb]
      · rw [if_neg hkb, if_neg hkb, ih (k - b.toNat) (by omega) (by rw [Nat.succ_mul] at h; omega)]
  refine ⟨hlt m, fun k hk hm => ?_⟩
  cases m with
  | zero => omega
  | succ m =>
    rw [hsucc m k hk]
    by_cases hkb : k < b.toNat
    · rw [if_pos hkb, if_pos hkb]
    · rw [if_neg hkb, if_neg hkb, stable m _ (by omega) (by rw [Nat.succ_mul] at hm; omega)]

/-! ### The carry seed and the previous-row vectors (R185, R199, R200) -/

theorem lane8_seedC {b : Bpp} {s : State} (hb : b.toNat ≤ s.i.toNat) {j : Nat} (hj : j < 16) :
    lane8 (s.seedC b) j = if j < b.toNat then s.payload (s.i.toNat - b.toNat + j) else 0#8 := by
  cases b <;> simp only [State.seedC, Bpp.toNat] at hb ⊢
  case b4 =>
    rw [lane8_vcvt32_ld32le _ _ hj, State.payload]
    congr 2; omega
  case b8 =>
    rw [lane8_vld8 _ _ hj, State.payload]
    congr 2; omega
  all_goals rw [lane8_ofLanes8 _ hj]

theorem lane8_seedC_zero {b : Bpp} {s : State} (hb : b.toNat ≤ s.i.toNat) {j : Nat} (hj : b.toNat ≤ j) :
    lane8 (s.seedC b) j = 0#8 := by
  by_cases h : j < 16
  · rw [lane8_seedC hb h, if_neg (by omega)]
  · exact lane8_of_ge _ (by omega)

theorem lane8_uvec16 {s : State} {i k : Nat} (hk : k < 16) : lane8 (s.uvec16 i) k = s.above (i + k) := by
  rw [State.uvec16, State.above]
  split
  · simp
  · rw [lane8_vld16u _ _ hk, Nat.add_assoc]

theorem lane8_uvec8 {s : State} {i k : Nat} (hk : k < 8) : lane8 (s.uvec8 i) k = s.above (i + k) := by
  rw [State.uvec8, State.above]
  split
  · simp
  · rw [lane8_vld8 _ _ (by omega), if_pos hk, Nat.add_assoc]

/-- C holds the last `bpp` reconstructed bytes and nothing above them (R38). -/
structure Carry (b : Bpp) (s : State) : Prop where
  c : ∀ j < b.toNat, lane8 s.c j = s.payload (s.i.toNat - b.toNat + j)
  cz : ∀ j, b.toNat ≤ j → lane8 s.c j = 0#8

/-- CW holds the last `bpp` reconstructed bytes, widened, and nothing above them (R38). -/
structure CarryW (b : Bpp) (s : State) : Prop where
  cw : ∀ j < b.toNat, lane16 s.cw j = (s.payload (s.i.toNat - b.toNat + j)).setWidth 16
  cwz : ∀ j, b.toNat ≤ j → lane16 s.cw j = 0#16

/-- The narrow form of a widened carry: the bytes of the lanes, zero above them (R38). -/
theorem lane8_packCarry {cw : V128} (h : ∀ j < 8, (lane16 cw j).toNat < 256) {j : Nat} (hj : j < 16) :
    lane8 (vpackuswb cw zeroV) j = (lane16 cw j).setWidth 8 := by
  rw [lane8_vpackuswb _ _ hj]
  split
  · rename_i h8
    exact sat8_of_lt (h j h8)
  · rw [lane16_of_ge cw (by omega), show lane16 zeroV (j - 8) = 0#16 by simp [lane16, zeroV]]; rfl

/-- The narrow form carries what the wide form carries. -/
theorem CarryW.carry {b : Bpp} {s : State} (h : CarryW b s) (hc : s.c = vpackuswb s.cw zeroV) : Carry b s := by
  have hlt : ∀ j < 8, (lane16 s.cw j).toNat < 256 := fun j hj => by
    by_cases hb : j < b.toNat
    · rw [h.cw j hb, BitVec.toNat_setWidth]; have := (s.payload (s.i.toNat - b.toNat + j)).isLt; omega
    · rw [h.cwz j (by omega)]; decide
  have := Bpp.toNat_le b
  refine ⟨fun j hj => ?_, fun j hj => ?_⟩
  · rw [hc, lane8_packCarry hlt (by omega), h.cw j hj]
    exact BitVec.eq_of_toNat_eq (by simp)
  · by_cases h16 : j < 16
    · rw [hc, lane8_packCarry hlt h16, h.cwz j hj]; rfl
    · exact lane8_of_ge _ (by omega)

/-- The wide form carries what the narrow form carries. -/
theorem Carry.carryW {b : Bpp} {s : State} (h : Carry b s) (hc : s.cw = vunpklbw s.c zeroV) : CarryW b s := by
  have := Bpp.toNat_le b
  refine ⟨fun j hj => by rw [hc, lane16_vunpklbw_zero _ (by omega), h.c j hj], fun j hj => ?_⟩
  by_cases h8 : j < 8
  · rw [hc, lane16_vunpklbw_zero _ h8, h.cz j hj]; rfl
  · exact lane16_of_ge _ (by omega)

theorem carry_seed {b : Bpp} {s : State} (hb : b.toNat ≤ s.i.toNat) : Carry b (s.seedCarry b) where
  c := fun j hj => by
    have := Bpp.toNat_le b
    show lane8 (s.seedC b) j = _
    rw [lane8_seedC hb (by omega), if_pos hj]; rfl
  cz := fun j hj => lane8_seedC_zero hb hj

theorem carryW_seed {b : Bpp} {s : State} (hb : b.toNat ≤ s.i.toNat) : CarryW b (s.seedCarry b) :=
  (carry_seed hb).carryW rfl

/-! ### Block loops and SIMD rows -/

/-- The row of `s` being reconstructed by a body, with its first `k` bytes finished and I at `k`. -/
structure RowAt (f : Filter) (b : Bpp) (k : Nat) (s t : State) : Prop where
  prog : Progress f b.toNat k s t
  i : t.i.toNat = k
  ge : b.toNat ≤ k
  le : k ≤ s.n

/-- A block loop whose block finishes `size` bytes finishes bytes, and keeps what every block keeps (R184). -/
theorem blocks_at {f : Filter} {b : Bpp} {k size : Nat} {s t : State} {block : State → State} {J : State → Prop}
    (h : RowAt f b k s t) (hJ : J t) (_ : 0 < size)
    (hs : ∀ k t, RowAt f b k s t → J t → k + size ≤ s.n → RowAt f b (k + size) s (block t) ∧ J (block t)) :
    ∃ k', RowAt f b k' s (blocks size block t) ∧ J (blocks size block t) := by
  rw [blocks]
  have hn : t.n = s.n := h.prog.same.n_eq
  rw [hn, h.i]
  have : ∃ k', k' = k + size * ((s.n - k) / size) ∧ RowAt f b k' s (repeatN block ((s.n - k) / size) t) ∧
      J (repeatN block ((s.n - k) / size) t) := by
    refine ⟨_, rfl, ?_⟩
    refine repeatN_induct (P := fun j r => RowAt f b (k + size * j) s r ∧ J r) ⟨by simpa using h, hJ⟩ ?_
    rintro j hj r ⟨hr, hJr⟩
    have hle : size * (j + 1) ≤ s.n - k := Nat.le_trans (Nat.mul_le_mul_left _ hj) (Nat.mul_div_le _ _)
    have := h.le
    rw [Nat.mul_succ] at hle ⊢
    rw [← Nat.add_assoc]
    exact hs _ _ hr hJr (by omega)
  obtain ⟨k', _, h'⟩ := this
  exact ⟨k', h'⟩

theorem bump_toNat {s : State} {size n : Nat} (h : s.i.toNat + size ≤ n) (hn : n < 2 ^ 32 - 1) :
    (s.bumpIndex size).i.toNat = s.i.toNat + size := by
  rw [State.bumpIndex_i, BitVec.toNat_ofNat, Nat.mod_eq_of_lt]; omega

/-- A SIMD row is reconstructed when its body keeps the row on the way (R181). -/
theorem simdRow_progress {f : Filter} {b : Bpp} {body : State → State} {s : State} (hr : s.RowReady f)
    (hb : b.toNat = s.bpp.toNat)
    (hbody : ∀ k t, RowAt f b k s t → k < s.n → ∃ k', RowAt f b k' s (body t)) :
    Progress f b.toNat s.n s (simdRow f b body s) := by
  have hn := State.geometry_n hr.geometry
  rw [← hb] at hn
  unfold simdRow
  simp only
  set i0 := min s.n (b.toNat + alignDiff (s.p + b.toNat) 16) with hi0
  have hle : i0 ≤ s.n := by omega
  have hge : b.toNat ≤ i0 := by omega
  have p1 := (Progress.start (f := f) (bpp := b.toNat) hr.memWf).scalar hn.1 hr.apart (Nat.zero_le b.toNat) hn.2.1
  have p2 := p1.scalar hn.1 hr.apart hge hle
  set s1 := scalar f b.toNat b.toNat i0 (scalar f b.toNat 0 b.toNat s) with hs1
  have a2 : RowAt f b i0 s { s1 with i := BitVec.ofNat 32 i0 } :=
    ⟨p2.congr { SameRow.refl s1 with } rfl, by
      show (BitVec.ofNat 32 i0).toNat = _
      rw [BitVec.toNat_ofNat]; omega, hge, hle⟩
  set s2 : State := { s1 with i := BitVec.ofNat 32 i0 } with hs2
  have : ∃ k', RowAt f b k' s (if i0 < s.n then body s2 else s2) := by
    split
    · exact hbody _ _ a2 ‹_›
    · exact ⟨_, a2⟩
  obtain ⟨k', h'⟩ := this
  rw [h'.i]
  exact h'.prog.scalar hn.1 hr.apart h'.le (Nat.le_refl _)

/-- What every payload write, every setting of I and the body keep, a SIMD row keeps. -/
theorem simdRow_keeps {R : State → State → Prop} {f : Filter} {b : Bpp} {body : State → State} {s : State}
    (htrans : ∀ a b c, R a b → R b c → R a c) (hset : ∀ (s : State) i e, R s (s.setPayload i e))
    (hi : ∀ (s : State) i, R s { s with i := i })
    (hbody : ∀ t, R t (body t)) : R s (simdRow f b body s) := by
  have hrefl : ∀ s : State, R s s := fun s => hi s s.i
  have hsc : ∀ f bpp lo hi t, R t (Machine.scalar f bpp lo hi t) := by
    intro f bpp lo hi t
    unfold Machine.scalar forRange
    refine forUp_induct (P := fun _ r => R t r) (hrefl t) fun k _ r hr => htrans _ _ _ hr (hset _ _ _)
  unfold simdRow
  simp only
  refine htrans _ _ _ ?_ (hsc _ _ _ _ _)
  split
  · exact htrans _ _ _ (htrans _ _ _ (htrans _ _ _ (hsc _ _ _ _ _) (hsc _ _ _ _ _)) (hi _ _)) (hbody _)
  · exact htrans _ _ _ (htrans _ _ _ (hsc _ _ _ _ _) (hsc _ _ _ _ _)) (hi _ _)

/-- What the block keeps, a loop of blocks keeps. -/
theorem blocks_keeps {R : State → State → Prop} {size : Nat} {block : State → State} {s : State}
    (hrefl : ∀ a, R a a) (htrans : ∀ a b c, R a b → R b c → R a c) (h : ∀ t, R t (block t)) :
    R s (blocks size block s) := by
  rw [blocks]
  exact repeatN_induct (P := fun _ r => R s r) (hrefl s) fun k _ t ht => htrans _ _ _ ht (h t)

end Sys2Proof.Machine
end

