-- ==== Sys2Proof/Laws/Steps.lean ====
section
/-! SUPPORT. What one step of the machine can be. -/

namespace Sys2Proof.Machine

/-- A row of the bytes at the cursor has the filter byte first. -/
theorem State.rowBytes_cons {s : State} (h : 0 < s.bpl.toNat) :
    ∃ more, s.rowBytes = s.mem.read (s.p - 1) :: more := by
  obtain ⟨k, hk⟩ : ∃ k, s.bpl.toNat = k + 1 := ⟨s.bpl.toNat - 1, by omega⟩
  refine ⟨(List.range k).map fun j => s.mem.read (s.p - 1 + (j + 1)), ?_⟩
  rw [State.rowBytes, hk, List.range_succ_eq_map]
  simp [Function.comp_def]

theorem step_due {s : State} {v : HostMove} {rest : List HostInput} (h : s.inputs = ⟨0, v⟩ :: rest) :
    step s = hostMove v { s with inputs := rest } := by
  rw [step, stepAll]
  split
  · rename_i h'; rw [h] at h'; cases h'; rfl
  all_goals rename_i h'; rw [h] at h'; cases h'

/-- With no move due the engine steps, and the next move comes one step nearer. -/
theorem step_noMoveDue {s : State} (h : s.NoMoveDue) : step s = engineStep s.tick := by
  rw [step, stepAll]
  split
  · rename_i h'; exact absurd h' (h _ _)
  all_goals rfl

/-- A move is due, or the engine steps next. -/
theorem State.due_or_not (s : State) : (∃ v rest, s.inputs = ⟨0, v⟩ :: rest) ∨ s.NoMoveDue := by
  by_cases h : ∃ v rest, s.inputs = ⟨0, v⟩ :: rest
  · exact .inl h
  · exact .inr fun v rest h' => h ⟨v, rest, h'⟩

theorem engineStep_stopped {s : State} (h : s.status ≠ .busy) : engineStep s = .next s := by
  rw [engineStep]
  split
  · exact absurd ‹_› h
  all_goals rfl

theorem engineStep_busy {s : State} {m : Mode} (hb : s.status = .busy) (hm : s.mode = some m)
    (hf : s.fetchFault = none) : engineStep s = runFetched m s.fetch := by
  rw [engineStep, hb]
  simp only [busyStep, hm, hf]

/-- A fetched opcode runs its instruction or takes the FORMAT fault. -/
theorem runFetched_ok {m : Mode} {s : State} {i : Instr} (h : decodeOpcode m s.ft = .ok i) :
    runFetched m s = exec i s := by rw [runFetched, h]

theorem runFetched_reserved {m : Mode} {s : State} (h : 5 ≤ s.ft.toNat) : runFetched m s = .next s.raiseFormat := by
  rw [runFetched, decodeOpcode_reserved h]

/-- What the engine's step from a BUSY state can answer when it answers a next state: a row of the fetched filter, or
the FORMAT fault taken. -/
theorem engineStep_busy_cases {s t : State} (hb : s.status = .busy) (h : engineStep s = .next t) :
    ∃ m, s.mode = some m ∧ s.fetchFault = none ∧
      ((∃ f, Filter.ofByte? (s.mem.read (s.p - 1)) = some f ∧ exec (Instr.select m f) s.fetch = .next t) ∨
        (5 ≤ (s.mem.read (s.p - 1)).toNat ∧ t = s.fetch.raiseFormat)) := by
  rw [engineStep, hb] at h
  simp only [busyStep] at h
  split at h
  · cases h
  · rename_i m hm
    split at h
    · cases h
    · rename_i hf
      refine ⟨m, hm, hf, ?_⟩
      rw [runFetched, show s.fetch.ft = s.mem.read (s.p - 1) from rfl, decodeOpcode] at h
      cases ho : Filter.ofByte? (s.mem.read (s.p - 1)) with
      | some f => rw [ho] at h; exact .inl ⟨f, rfl, h⟩
      | none => rw [ho] at h; cases h; exact .inr ⟨Filter.ofByte?_eq_none.1 ho, rfl⟩

/-- A host access to a byte goes on where the byte can be accessed and is none of a running invocation's buffer. -/
theorem hostMem_next {a : Nat} {s r t : State} (h : hostMem a s r = .next t) :
    s.accessFault a 1 = none ∧ (s.status = .busy → s.inBuffer a = false) ∧ t = r := by
  rw [hostMem] at h
  split at h
  · cases h
  · rename_i h1
    split at h
    · cases h
    · cases h
      exact ⟨‹_›, fun hb => by simpa [hb] using h1, rfl⟩

/-- What a move of the host can do when it answers a next state. -/
theorem hostMove_cases {v : HostMove} {s t : State} (h : hostMove v s = .next t) :
    (s.status ≠ .busy ∧ ∃ r x, v = .writeReg r x ∧ hostWrite r x s = .next t) ∨
    (∃ r, v = .readReg r ∧ t = { s with readData := regValue r s, fresh := s.fresh + 1 }) ∨
    (∃ a b, v = .writeMem a b ∧ s.accessFault a 1 = none ∧ (s.status = .busy → s.inBuffer a = false) ∧
      t = { s with mem := s.mem.write a b }) ∨
    (∃ a, v = .readMem a ∧ s.accessFault a 1 = none ∧ t = { s with readData := (s.mem.read a).toNat }) ∨
    (v = .reset ∧ t = s.resetMove) := by
  cases v with
  | writeReg r x =>
    refine .inl ⟨fun hb => ?_, r, x, rfl, h⟩
    simp [hostMove, hostWrite, hb] at h
  | readReg r =>
    simp only [hostMove, hostRead] at h
    split at h
    · cases h
    · cases h; exact .inr (.inl ⟨r, rfl, rfl⟩)
  | writeMem a b =>
    obtain ⟨h1, h2, rfl⟩ := hostMem_next h
    exact .inr (.inr (.inl ⟨a, b, rfl, h1, h2, rfl⟩))
  | readMem a =>
    obtain ⟨h1, _, rfl⟩ := hostMem_next h
    exact .inr (.inr (.inr (.inl ⟨a, rfl, h1, rfl⟩)))
  | reset => cases h; exact .inr (.inr (.inr (.inr ⟨rfl, rfl⟩)))

/-- What a register write can do when it answers a next state: one parameter register, a write of 0 to CTRL that does
nothing, or START. -/
theorem hostWrite_cases {r : HostReg} {x : Nat} {s t : State} (h : hostWrite r x s = .next t) :
    s.status ≠ .busy ∧
    ((x < 2 ^ s.addrW ∧ t = { s with buf := x, written := { s.written with buf := true } }) ∨
      (∃ x', t = { s with h := x', written := { s.written with h := true } }) ∨
      (∃ x', t = { s with bpp := x', written := { s.written with bpp := true } }) ∨
      (∃ x', t = { s with bpl := x', written := { s.written with bpl := true } }) ∨
      (∃ x', t = { s with ksel := x', written := { s.written with ksel := true } }) ∨
      t = s ∨ (s.startViolation = none ∧ t = s.started)) := by
  rw [hostWrite.eq_def] at h
  split at h
  · cases h
  · refine ⟨‹_›, ?_⟩
    cases r <;> simp only at h
    · split at h
      · cases h; exact .inl ⟨‹_›, rfl⟩
      · cases h
    · split at h
      · cases h; exact .inr (.inl ⟨_, rfl⟩)
      · cases h
    · split at h
      · cases h; exact .inr (.inr (.inl ⟨_, rfl⟩))
      · cases h
    · split at h
      · cases h; exact .inr (.inr (.inr (.inl ⟨_, rfl⟩)))
      · cases h
    · split at h
      · cases h; exact .inr (.inr (.inr (.inr (.inl ⟨_, rfl⟩))))
      · cases h
    · split at h
      · cases h; exact .inr (.inr (.inr (.inr (.inr (.inl rfl)))))
      · split at h
        · rw [State.start] at h
          split at h
          · cases h
          · cases h; exact .inr (.inr (.inr (.inr (.inr (.inr ⟨‹_›, rfl⟩)))))
        · cases h
    all_goals cases h

end Sys2Proof.Machine
end

