-- ==== Sys2Proof/Laws/Runs.lean ====
section
/-! SUPPORT. Runs in parts, and what the polls of the host do to a run: they land between the engine's steps and change
nothing that the engine reads. -/

namespace Sys2Proof.Machine

/-- A run in two parts. -/
theorem runFor_add {j k : Nat} {s t : State} (h : runFor j s = .next t) : runFor (j + k) s = runFor k t := by
  induction k with
  | zero => exact h
  | succ k ih => rw [← Nat.add_assoc, runFor, ih, runFor]

/-- A run by its first step. -/
theorem runFor_succ {k : Nat} {s t : State} (h : step s = .next t) : runFor (k + 1) s = runFor k t := by
  rw [Nat.add_comm]
  exact runFor_add (j := 1) h

theorem length_tick (l : List HostInput) : (tick l).length = l.length := by cases l <;> rfl

/-- A poll that is due lands and changes what the host has read, nothing else. -/
theorem step_poll {s : State} {r : HostReg} {rest : List HostInput} (h : s.inputs = ⟨0, .readReg r⟩ :: rest)
    (hr : r.isParameter = false) :
    step s = .next
      { s with inputs := rest, readData := regValue r { s with inputs := rest }, fresh := s.fresh + 1 } := by
  rw [step_due h, hostMove, hostRead, hr]
  rfl

/-- Where only polls land within the next `n` engine steps, those that are due land, and then the engine steps. -/
theorem run_to_engine {n : Nat} (hn : 0 < n) : ∀ (l : List HostInput) (s : State), s.inputs = l → OnlyPollsWithin n l →
    ∃ j r d g, runFor j s = .next r ∧ j + r.inputs.length = l.length ∧
      r = { s with inputs := r.inputs, readData := d, fresh := g } ∧ r.NoMoveDue ∧
      OnlyPollsWithin (n - 1) (tick r.inputs) := by
  intro l
  induction l with
  | nil =>
    intro s h _
    exact ⟨0, s, s.readData, s.fresh, rfl, (by rw [h]; rfl), rfl, (fun v rest h' => by rw [h] at h'; cases h'),
      (by rw [h]; trivial)⟩
  | cons x rest ih =>
    intro s h ho
    obtain ⟨k, v⟩ := x
    cases k with
    | zero =>
      rcases ho with ho | ⟨hp, ho⟩
      · exact absurd ho (Nat.not_le_of_lt hn)
      · cases v with
        | readReg r =>
          obtain ⟨j, r', d, g, h1, h2, h3, h4, h5⟩ :=
            ih { s with inputs := rest, readData := regValue r { s with inputs := rest }, fresh := s.fresh + 1 } rfl ho
          exact ⟨j + 1, r', d, g, by rw [runFor_succ (step_poll h hp)]; exact h1,
            by rw [List.length_cons, ← h2]; omega, h3, h4, h5⟩
        | _ => exact absurd hp id
    | succ k =>
      refine ⟨0, s, s.readData, s.fresh, rfl, (by rw [h, Nat.zero_add]), rfl,
        (fun v rest h' => by rw [h] at h'; cases h'), ?_⟩
      rw [h]
      rcases ho with ho | ⟨hp, ho⟩
      · exact .inl (Nat.sub_le_sub_right ho 1)
      · refine .inr ⟨hp, ?_⟩
        show OnlyPollsWithin (n - 1 - k) rest
        rw [show n - 1 - k = n - (k + 1) by omega]
        exact ho

/-- One engine step with the polls before it: a property that polls keep is carried by it as by the engine's step. -/
theorem run_engine_step {P Q : State → Prop} {n : Nat} {s : State} (hs : P s) (ho : OnlyPollsWithin (n + 1) s.inputs)
    (hP : ∀ s l d g, P s → P { s with inputs := l, readData := d, fresh := g })
    (hQ : ∀ s, P s → ∃ r, engineStep s = .next r ∧ Q r ∧ r.inputs = s.inputs) :
    ∃ j r, runFor j s = .next r ∧ j + r.inputs.length = 1 + s.inputs.length ∧ Q r ∧ OnlyPollsWithin n r.inputs := by
  obtain ⟨j, r, d, g, h1, h2, h3, h4, h5⟩ := run_to_engine (Nat.succ_pos n) _ s rfl ho
  have hr : P r := by rw [h3]; exact hP _ _ _ _ hs
  obtain ⟨q, e1, e2, e3⟩ := hQ r.tick (hP r (tick r.inputs) r.readData r.fresh hr)
  have e3 : q.inputs = tick r.inputs := e3
  exact ⟨j + 1, q, by rw [runFor_add h1]; show step r = _; rw [step_noMoveDue h4, e1],
    by rw [e3, length_tick]; omega, e2, by rw [e3]; exact h5⟩

/-- A running invocation is one by its parameters and its cursor alone. -/
theorem State.Running.polled {s : State} (h : s.Running) (l : List HostInput) (d g : Nat) :
    ({ s with inputs := l, readData := d, fresh := g } : State).Running :=
  ⟨h.busy, h.written, h.wf, h.row, h.cursor, h.above⟩

/-- What a poll and the passing of time for the host do keeps the invariant. -/
theorem State.Inv.polled {s : State} (h : s.Inv) (l : List HostInput) (d g : Nat) :
    ({ s with inputs := l, readData := d, fresh := g } : State).Inv :=
  ⟨h.memWf, h.memBelow, h.bufBelow, h.cursorBelow, h.aboveBelow, fun hb => (h.running hb).polled l d g, h.faultRecord⟩

end Sys2Proof.Machine
end

