-- ==== Sys2Proof/Tests/Slice0.lean ====
section
/-! SUPPORT. Tests: ill-formed terms, opcode words written out from the spec, one row instruction on a small state with
the spec's own numbers, host moves, and for every obligation with hypotheses a witness that meets them. -/

namespace Sys2Proof.Tests

open Sys2Proof.Machine

set_option Elab.async false

/-! ### Small states -/

/-- Bytes of a list of numbers. -/
def bs (l : List Nat) : List Byte := l.map (BitVec.ofNat 8)

/-- Bytes in memory at an address. -/
def put (m : Memory) (a : Nat) (l : List Nat) : Memory := m.writeBytes a (fun k => (bs l).getD k 0) l.length

/-- A state with its parameters written, the cursor at row 0 of the image at `buf`, and zeros elsewhere. -/
def image (k : Kernel) (b : Bpp) (bpl h buf : Nat) (rows : List Nat) : State where
  addrW := 16
  holes := []
  buf := buf
  h := BitVec.ofNat 32 h
  bpp := BitVec.ofNat 32 b.toNat
  bpl := BitVec.ofNat 32 bpl
  ksel := k.toBits
  written := ⟨true, true, true, true, true⟩
  status := .busy
  fcause := 0
  frow := 0
  fbyte := 0
  y := 0
  p := buf + 1
  u := 0
  ft := 0
  i := 0
  v := Vector.replicate 16 0
  c := 0
  cw := 0
  pz := 0
  uz := 0
  t0 := 0
  mem := put [] buf rows
  inputs := []
  readData := 0
  fresh := 0

/-- A row with the row above it, at a place where the body of the SIMD kernel starts right after the first pixel
(`P + bpp` is a multiple of 16). -/
def row1 (k : Kernel) (b : Bpp) (op : Nat) (above cur : List Nat) : State :=
  { image k b (cur.length + 1) 2 0x0800 [] with
    y := 1
    p := 0x1010 - b.toNat
    u := 0x0801
    mem := put (put [] 0x0801 above) (0x100F - b.toNat) (op :: cur) }

/-- The same row as row 0. -/
def row0 (k : Kernel) (b : Bpp) (op : Nat) (cur : List Nat) : State :=
  { row1 k b op [] cur with y := 0 }

/-- What a next state holds. -/
def got {α : Type} (o : Host.Outcome State Fault Refusal) (f : State → α) : Option α :=
  match o with
  | .next t => some (f t)
  | .fault _ => none
  | .refused _ => none

/-- Why a step is refused. -/
def refusal (o : Host.Outcome State Fault Refusal) : Option Refusal :=
  match o with
  | .refused r => some r
  | .next _ => none
  | .fault _ => none

/-- Why a step faults. -/
def faultOf (o : Host.Outcome State Fault Refusal) : Option Fault :=
  match o with
  | .fault r => some r
  | .next _ => none
  | .refused _ => none

/-- `n` bytes of a memory. -/
def bytesAt (m : Memory) (a n : Nat) : List Nat := (List.range n).map fun k => (m.read (a + k)).toNat

/-- The row an instruction leaves: after the cursor's advance it is the previous row. -/
def rowAfter (i : Instr) (s : State) : Option (List Nat) := got (exec i s) fun t => bytesAt t.mem t.u s.n

/-- A vector from its byte lanes, and back. -/
def ofBytes (l : List Nat) : V128 := ofLanes8 fun k => (bs l).getD k 0

def toBytes (v : V128) : List Nat := (List.range 16).map fun k => (lane8 v k).toNat

/-- A vector from its 16-bit lanes, and back. -/
def ofHalves (l : List Nat) : V128 := ofLanes16 fun k => BitVec.ofNat 16 (l.getD k 0)

def toHalves (v : V128) : List Nat := (List.range 8).map fun k => (lane16 v k).toNat

/-! ### Ill-formed terms are refused, well-formed ones are not -/

theorem test_bplOk : bplOk 4 6 = false ∧ bplOk 3 3 = false ∧ bplOk 3 4 = true ∧ bplOk 8 513 = true := by decide

theorem test_instr_wf : Instr.wf ⟨.simd, .b3⟩ .sub = false ∧ Instr.wf ⟨.simd, .b3⟩ .subV4 = false ∧
    Instr.wf ⟨.ref, .b3⟩ .subV3 = false ∧ Instr.wf ⟨.simd, .b3⟩ .subV3 = true ∧ Instr.wf ⟨.opt, .b3⟩ .sub = true := by
  decide

theorem test_row_wf_op : Row.wf ⟨.simd, .b1⟩ 3 ⟨.up, [1, 2]⟩ = false := by decide

theorem test_row_wf_length : Row.wf ⟨.ref, .b2⟩ 4 ⟨.up, [1, 2, 3]⟩ = false := by decide

theorem test_row_wf_payload : Row.wf ⟨.ref, .b2⟩ 5 ⟨.up, [1, 2, 3]⟩ = false := by decide

theorem test_row_wf_good : Row.wf ⟨.ref, .b2⟩ 5 ⟨.up, [1, 2, 3, 4]⟩ = true := by decide

/-- R252: one violating invocation for each precondition, and one that meets them up to the top of the space (P5). -/
theorem test_violation_p1 : Invocation.violation 16 [] ⟨0, 0, 1, 5, 6⟩ = some .p1 := by decide

theorem test_violation_p2 : Invocation.violation 16 [] ⟨0, 0, 1, 4, 6⟩ = some .p2 ∧
    Invocation.violation 16 [] ⟨0, 0, 1, 4, 1⟩ = some .p2 := by decide

theorem test_violation_p3 : Invocation.violation 16 [] ⟨0, 0, 0, 4, 5⟩ = some .p3 := by decide

/-- A hole at the last byte of the buffer; holes that touch it at both ends. -/
theorem test_violation_p4 : Invocation.violation 16 [⟨0, 16⟩, ⟨20, 1⟩] ⟨0, 16, 1, 4, 5⟩ = some .p4 ∧
    Invocation.wf 16 [⟨0, 16⟩, ⟨18, 0⟩, ⟨21, 9⟩] ⟨0, 16, 1, 4, 5⟩ := by decide

theorem test_violation_p5 : Invocation.violation 16 [] ⟨0, 65532, 1, 4, 5⟩ = some .p5 ∧
    Invocation.wf 16 [] ⟨0, 65531, 1, 4, 5⟩ := by decide

theorem test_violation_p6 : Invocation.violation 16 [] ⟨3, 0, 1, 4, 5⟩ = some .p6 := by decide

theorem test_violation_p7 :
    refusal (hostMove (.writeReg .ctrl 1)
      { image .ref .b4 5 1 0 [] with status := .idle, written := ⟨true, true, true, true, false⟩ }) =
      some (.precondition .p7) := by decide

/-! ### Opcode words, written out from R80, R81 and the table of R89 -/

theorem test_decode_none : decode ⟨.ref, .b1⟩ 5 [0x00, 9, 8, 7, 6] = .ok (⟨.none, [9, 8, 7, 6]⟩, []) := by decide

theorem test_decode_sub : decode ⟨.opt, .b1⟩ 3 [0x01, 5, 5, 0x07, 1, 1] = .ok (⟨.sub, [5, 5]⟩, [7, 1, 1]) := by decide

theorem test_decode_up : decode ⟨.simd, .b2⟩ 3 [0x02, 5, 5] = .ok (⟨.upV2, [5, 5]⟩, []) := by decide

theorem test_decode_avg : decode ⟨.simd, .b8⟩ 9 [0x03, 1, 2, 3, 4, 5, 6, 7, 8] =
    .ok (⟨.avgV8, [1, 2, 3, 4, 5, 6, 7, 8]⟩, []) := by decide

theorem test_decode_paeth : decode ⟨.ref, .b3⟩ 4 [0x04, 1, 1, 1] = .ok (⟨.paeth, [1, 1, 1]⟩, []) := by decide

theorem test_special_none : decodeOpcode ⟨.simd, .b1⟩ 0x00 = .ok .noneV1 ∧
    decodeOpcode ⟨.simd, .b2⟩ 0x00 = .ok .noneV2 ∧
    decodeOpcode ⟨.simd, .b3⟩ 0x00 = .ok .noneV3 ∧
    decodeOpcode ⟨.simd, .b4⟩ 0x00 = .ok .noneV4 ∧
    decodeOpcode ⟨.simd, .b6⟩ 0x00 = .ok .noneV6 ∧
    decodeOpcode ⟨.simd, .b8⟩ 0x00 = .ok .noneV8 := by decide

theorem test_special_sub : decodeOpcode ⟨.simd, .b1⟩ 0x01 = .ok .subV1 ∧
    decodeOpcode ⟨.simd, .b2⟩ 0x01 = .ok .subV2 ∧
    decodeOpcode ⟨.simd, .b3⟩ 0x01 = .ok .subV3 ∧
    decodeOpcode ⟨.simd, .b4⟩ 0x01 = .ok .subV4 ∧
    decodeOpcode ⟨.simd, .b6⟩ 0x01 = .ok .subV6 ∧
    decodeOpcode ⟨.simd, .b8⟩ 0x01 = .ok .subV8 := by decide

theorem test_special_up : decodeOpcode ⟨.simd, .b1⟩ 0x02 = .ok .upV1 ∧
    decodeOpcode ⟨.simd, .b2⟩ 0x02 = .ok .upV2 ∧
    decodeOpcode ⟨.simd, .b3⟩ 0x02 = .ok .upV3 ∧
    decodeOpcode ⟨.simd, .b4⟩ 0x02 = .ok .upV4 ∧
    decodeOpcode ⟨.simd, .b6⟩ 0x02 = .ok .upV6 ∧
    decodeOpcode ⟨.simd, .b8⟩ 0x02 = .ok .upV8 := by decide

theorem test_special_avg : decodeOpcode ⟨.simd, .b1⟩ 0x03 = .ok .avgV1 ∧
    decodeOpcode ⟨.simd, .b2⟩ 0x03 = .ok .avgV2 ∧
    decodeOpcode ⟨.simd, .b3⟩ 0x03 = .ok .avgV3 ∧
    decodeOpcode ⟨.simd, .b4⟩ 0x03 = .ok .avgV4 ∧
    decodeOpcode ⟨.simd, .b6⟩ 0x03 = .ok .avgV6 ∧
    decodeOpcode ⟨.simd, .b8⟩ 0x03 = .ok .avgV8 := by decide

theorem test_special_paeth : decodeOpcode ⟨.simd, .b1⟩ 0x04 = .ok .paethV1 ∧
    decodeOpcode ⟨.simd, .b2⟩ 0x04 = .ok .paethV2 ∧
    decodeOpcode ⟨.simd, .b3⟩ 0x04 = .ok .paethV3 ∧
    decodeOpcode ⟨.simd, .b4⟩ 0x04 = .ok .paethV4 ∧
    decodeOpcode ⟨.simd, .b6⟩ 0x04 = .ok .paethV6 ∧
    decodeOpcode ⟨.simd, .b8⟩ 0x04 = .ok .paethV8 := by decide

theorem test_decode_reserved : decodeOpcode ⟨.ref, .b1⟩ 0x05 = .error (.reservedOpcode 5) ∧
    decodeOpcode ⟨.simd, .b8⟩ 0x81 = .error (.reservedOpcode 0x81) ∧
    decodeOpcode ⟨.opt, .b4⟩ 0xFF = .error (.reservedOpcode 0xFF) := by decide

theorem test_decode_short : decode ⟨.ref, .b1⟩ 5 [0x01, 1, 2, 3] = .error .truncated ∧
    decode ⟨.ref, .b1⟩ 5 [] = .error .empty ∧ decode ⟨.ref, .b4⟩ 6 [0x01, 1, 2, 3, 4, 5] = .error .badRowLength := by
  decide

theorem test_decodeTableWord : decodeTableWord 8 0 = some .none ∧ decodeTableWord 8 1 = some .sub ∧
    decodeTableWord 8 2 = some .up ∧ decodeTableWord 8 3 = some .avg ∧ decodeTableWord 8 4 = some .paeth ∧
    decodeTableWord 8 5 = none ∧ decodeTableWord 16 0x0904 = some .paeth := by decide

/-- The table word is fetched and run as the next step: the row of one zero byte completes. -/
theorem test_withFetchWord : got (step (State.reset.withFetchWord 8 4)) (fun t => (t.status, t.ft, t.y)) =
    some (.done, 4, 1) := by decide +kernel

theorem test_withFetchWord_reserved : got (step (State.reset.withFetchWord 8 7)) (fun t => (t.status, t.fbyte)) =
    some (.fault, 7) := by decide +kernel

/-! ### Primitives (95_test_vectors.md section 3.1) -/

theorem test_sumMod256 : sumMod256 255 1 = 0 ∧ sumMod256 200 100 = 44 ∧ sumMod256 30 30 = 60 := by decide

theorem test_avg : avg 0 1 = 0 ∧ avg 255 0 = 127 ∧ avg 254 255 = 254 ∧ avg 7 20 = 13 := by decide

theorem test_udiv3 : udiv3 2 = 0 ∧ udiv3 29 = 9 ∧ udiv3 86 = 28 ∧ udiv3 255 = 85 ∧ udiv3 511 = 170 := by decide

theorem test_paethRef : paethRef 11 40 10 = 40 ∧ paethRef 25 10 50 = 10 ∧ paethRef 0 255 100 = 100 ∧
    paethRef 100 100 50 = 100 ∧ paethRef 0 0 255 = 0 ∧ paethRef 255 0 128 = 128 ∧ paethRef 2 1 1 = 2 := by decide

theorem test_paethOpt : paethOpt 11 40 10 = 40 ∧ paethOpt 25 10 50 = 10 ∧ paethOpt 0 255 100 = 100 ∧
    paethOpt 255 255 255 = 255 ∧ paethOpt 0 0 255 = 0 ∧ paethOpt 128 127 255 = 127 ∧ paethOpt 1 2 1 = 2 := by decide

theorem test_recon : recon .sub 250 10 0 0 = 4 ∧ recon .avg 255 255 255 0 = 254 ∧ recon .paeth 200 0 255 100 = 44 := by
  decide

/-! ### V-ops (95_test_vectors.md section 3.3) -/

def one16 : V128 := ofBytes [1, 2, 3, 4, 5, 6, 7, 8, 9, 10, 11, 12, 13, 14, 15, 16]

theorem test_vld8 : toBytes (vld8 (put [] 64 [17, 34, 51, 68, 85, 102, 119, 136, 153]) 64) =
    [17, 34, 51, 68, 85, 102, 119, 136, 0, 0, 0, 0, 0, 0, 0, 0] := by decide +kernel

theorem test_ld32le : ld32le (put [] 64 [0x0A, 0x0B, 0x0C, 0x0D]) 64 = 0x0D0C0B0A := by decide +kernel

theorem test_vaddw : (toHalves (vaddw (ofHalves [255, 0xFFFF, 0x7FFF]) (ofHalves [255, 1, 1]))).take 3 =
    [0x01FE, 0, 0x8000] := by decide +kernel

theorem test_vsubw : (toHalves (vsubw (ofHalves [10, 0, 0x8000]) (ofHalves [40, 1, 1]))).take 3 =
    [0xFFE2, 0xFFFF, 0x7FFF] := by decide +kernel

theorem test_vminsw : (toHalves (vminsw (ofHalves [11, 0xFFFF, 0x8000, 5]) (ofHalves [40, 1, 0x7FFF, 5]))).take 4 =
    [11, 0xFFFF, 0x8000, 5] := by decide +kernel

theorem test_vmaxsw : (toHalves (vmaxsw (ofHalves [11, 0xFFFF, 0x8000, 5]) (ofHalves [40, 1, 0x7FFF, 5]))).take 4 =
    [40, 1, 0x7FFF, 5] := by decide +kernel

theorem test_vmulhuw : toHalves (vmulhuw (ofHalves [0, 1, 2, 3, 29, 85, 254, 255]) k5580) =
    [0, 0, 0, 1, 9, 28, 84, 85] := by decide +kernel

theorem test_vsraw : toHalves (vsraw (ofHalves [0xFFEB, 10, 0x8000, 0x7FFF, 0, 1, 0xFFFF, 0x00FF]) 15) =
    [0xFFFF, 0, 0xFFFF, 0, 0, 0, 0xFFFF, 0] := by decide +kernel

theorem test_vsrlw_vsllw : (toHalves (vsrlw (ofHalves [510, 399, 1, 0]) 1)).take 4 = [255, 199, 0, 0] ∧
    (toHalves (vsllw (ofHalves [200, 0x8001]) 1)).take 2 = [400, 2] := by decide +kernel

theorem test_vandn : (toHalves (vandn (ofHalves [0xFFFF, 0, 0x00F0]) (ofHalves [30, 30, 0xFFFF]))).take 3 =
    [0, 30, 0xFF0F] := by decide +kernel

theorem test_vslldq_vsrldq : toBytes (vslldq one16 3) = [0, 0, 0, 1, 2, 3, 4, 5, 6, 7, 8, 9, 10, 11, 12, 13] ∧
    toBytes (vsrldq one16 13) = [14, 15, 16, 0, 0, 0, 0, 0, 0, 0, 0, 0, 0, 0, 0, 0] := by decide +kernel

theorem test_vunpk : toHalves (vunpklbw one16 zeroV) = [1, 2, 3, 4, 5, 6, 7, 8] ∧
    toHalves (vunpkhbw one16 zeroV) = [9, 10, 11, 12, 13, 14, 15, 16] := by decide +kernel

theorem test_vpackuswb : toBytes (vpackuswb (ofHalves [7, 17, 29, 42, 300, 0xFFFF, 0, 255])
    (ofHalves [256, 1, 2, 3, 0x8000, 0x7FFF, 128, 127])) =
    [7, 17, 29, 42, 255, 0, 0, 255, 255, 1, 2, 3, 0, 255, 128, 127] := by decide +kernel

theorem test_vshuf : toBytes (vshufd one16 0x1B) = [13, 14, 15, 16, 9, 10, 11, 12, 5, 6, 7, 8, 1, 2, 3, 4] ∧
    toHalves (vshuflw (ofHalves [1, 2, 3, 4, 5, 6, 7, 8]) 0x00) = [1, 1, 1, 1, 5, 6, 7, 8] ∧
    toHalves (vshufhw (ofHalves [1, 2, 3, 4, 5, 6, 7, 8]) 0xFF) = [1, 2, 3, 4, 8, 8, 8, 8] := by decide +kernel

theorem test_paeth16 : toHalves (paeth16 (ofHalves [11, 25, 0, 255, 0, 10, 100, 255])
    (ofHalves [40, 10, 255, 0, 0, 20, 100, 0]) (ofHalves [10, 50, 100, 0, 255, 15, 50, 128])) =
    [40, 10, 100, 255, 0, 15, 100, 128] := by decide +kernel

/-! ### The base rows (95_test_vectors.md sections 2.1 and 3.2) -/

theorem test_none : rowAfter .none (row1 .ref .b1 0 [1, 1, 1, 1] [9, 8, 7, 6]) = some [9, 8, 7, 6] := by
  decide +kernel

theorem test_sub : rowAfter .sub (row1 .ref .b1 1 [1, 1, 1, 1] [250, 3, 3, 3]) = some [250, 253, 0, 3] := by
  decide +kernel

theorem test_up : rowAfter .up (row1 .ref .b2 2 [1, 2, 3, 4, 5, 6] [10, 20, 30, 40, 50, 60]) =
    some [11, 22, 33, 44, 55, 66] := by decide +kernel

theorem test_up_row0 : rowAfter .up (row0 .ref .b1 2 [9, 9, 9]) = some [9, 9, 9] := by decide +kernel

theorem test_avg_row : rowAfter .avg (row1 .ref .b1 3 [255, 255, 254, 1] [255, 255, 255, 255]) =
    some [126, 189, 220, 109] := by decide +kernel

theorem test_avg_row0 : rowAfter .avg (row0 .opt .b3 3 [100, 200, 255, 1, 2, 3, 255, 254, 253]) =
    some [100, 200, 255, 51, 102, 130, 24, 49, 62] := by decide +kernel

theorem test_paeth : rowAfter .paeth (row1 .ref .b3 4 [10, 20, 30, 40, 50, 60] [1, 1, 1, 1, 1, 1]) =
    some [11, 21, 31, 41, 51, 61] := by decide +kernel

theorem test_paeth_row0 : rowAfter .paeth (row0 .ref .b1 4 [1, 2, 3, 4]) = some [1, 3, 6, 10] := by decide +kernel

/-! ### The specializations: the block examples of the rules (R193 to R198, R201, R202, R212 to R219, R232 to R238).
The first pixel is the carry; the block of the example follows it. -/

theorem test_noneV1 : rowAfter .noneV1 (row1 .simd .b1 0 [1, 1, 1, 1, 1, 1, 1, 1, 1, 1, 1, 1, 1, 1, 1, 1, 1, 1, 1, 1, 1, 1, 1, 1] [9, 9, 9, 9, 9, 9, 9, 9, 9, 9, 9, 9, 9, 9, 9, 9, 9, 9, 9, 9, 9, 9, 9, 9]) =
    some [9, 9, 9, 9, 9, 9, 9, 9, 9, 9, 9, 9, 9, 9, 9, 9, 9, 9, 9, 9, 9, 9, 9, 9] := by decide +kernel

theorem test_noneV2 : rowAfter .noneV2 (row1 .simd .b2 0 [1, 1, 1, 1, 1, 1, 1, 1, 1, 1, 1, 1, 1, 1, 1, 1, 1, 1, 1, 1, 1, 1, 1, 1] [9, 9, 9, 9, 9, 9, 9, 9, 9, 9, 9, 9, 9, 9, 9, 9, 9, 9, 9, 9, 9, 9, 9, 9]) =
    some [9, 9, 9, 9, 9, 9, 9, 9, 9, 9, 9, 9, 9, 9, 9, 9, 9, 9, 9, 9, 9, 9, 9, 9] := by decide +kernel

theorem test_noneV3 : rowAfter .noneV3 (row1 .simd .b3 0 [1, 1, 1, 1, 1, 1, 1, 1, 1, 1, 1, 1, 1, 1, 1, 1, 1, 1, 1, 1, 1, 1, 1, 1] [9, 9, 9, 9, 9, 9, 9, 9, 9, 9, 9, 9, 9, 9, 9, 9, 9, 9, 9, 9, 9, 9, 9, 9]) =
    some [9, 9, 9, 9, 9, 9, 9, 9, 9, 9, 9, 9, 9, 9, 9, 9, 9, 9, 9, 9, 9, 9, 9, 9] := by decide +kernel

theorem test_noneV4 : rowAfter .noneV4 (row1 .simd .b4 0 [1, 1, 1, 1, 1, 1, 1, 1, 1, 1, 1, 1, 1, 1, 1, 1, 1, 1, 1, 1, 1, 1, 1, 1] [9, 9, 9, 9, 9, 9, 9, 9, 9, 9, 9, 9, 9, 9, 9, 9, 9, 9, 9, 9, 9, 9, 9, 9]) =
    some [9, 9, 9, 9, 9, 9, 9, 9, 9, 9, 9, 9, 9, 9, 9, 9, 9, 9, 9, 9, 9, 9, 9, 9] := by decide +kernel

theorem test_noneV6 : rowAfter .noneV6 (row1 .simd .b6 0 [1, 1, 1, 1, 1, 1, 1, 1, 1, 1, 1, 1, 1, 1, 1, 1, 1, 1, 1, 1, 1, 1, 1, 1] [9, 9, 9, 9, 9, 9, 9, 9, 9, 9, 9, 9, 9, 9, 9, 9, 9, 9, 9, 9, 9, 9, 9, 9]) =
    some [9, 9, 9, 9, 9, 9, 9, 9, 9, 9, 9, 9, 9, 9, 9, 9, 9, 9, 9, 9, 9, 9, 9, 9] := by decide +kernel

theorem test_noneV8 : rowAfter .noneV8 (row1 .simd .b8 0 [1, 1, 1, 1, 1, 1, 1, 1, 1, 1, 1, 1, 1, 1, 1, 1, 1, 1, 1, 1, 1, 1, 1, 1] [9, 9, 9, 9, 9, 9, 9, 9, 9, 9, 9, 9, 9, 9, 9, 9, 9, 9, 9, 9, 9, 9, 9, 9]) =
    some [9, 9, 9, 9, 9, 9, 9, 9, 9, 9, 9, 9, 9, 9, 9, 9, 9, 9, 9, 9, 9, 9, 9, 9] := by decide +kernel

theorem test_subV1 : rowAfter .subV1 (row0 .simd .b1 1 [100, 1, 2, 3, 4, 5, 6, 7, 8, 9, 10, 11, 12, 13, 14, 15, 16]) =
    some [100, 101, 103, 106, 110, 115, 121, 128, 136, 145, 155, 166, 178, 191, 205, 220, 236] := by decide +kernel

/-- R193, R38: the block of that example carries 236 out, in C and in CW. -/
theorem test_subBlock16_carry :
    let t := subBlock16 .b1
      { row0 .simd .b1 1 [100, 1, 2, 3, 4, 5, 6, 7, 8, 9, 10, 11, 12, 13, 14, 15, 16] with i := 1, c := 100 }
    toBytes t.c = 236 :: List.replicate 15 0 ∧ toHalves t.cw = 236 :: List.replicate 7 0 := by decide +kernel

theorem test_subV2 : rowAfter .subV2 (row0 .simd .b2 1 [100, 101, 1, 2, 3, 4, 5, 6, 7, 8, 9, 10, 11, 12, 13, 14, 15, 16]) =
    some [100, 101, 101, 103, 104, 107, 109, 113, 116, 121, 125, 131, 136, 143, 149, 157, 164, 173] := by decide +kernel

theorem test_subV3 : rowAfter .subV3 (row0 .simd .b3 1 [100, 101, 102, 1, 2, 3, 4, 5, 6, 7, 8, 9, 10, 11, 12, 13, 14, 15, 16, 0, 0]) =
    some [100, 101, 102, 101, 103, 105, 105, 108, 111, 112, 116, 120, 122, 127, 132, 135, 141, 147, 151, 141, 147] := by decide +kernel

theorem test_subV4 : rowAfter .subV4 (row0 .simd .b4 1 [100, 101, 102, 103, 1, 2, 3, 4, 5, 6, 7, 8, 9, 10, 11, 12, 13, 14, 15, 16]) =
    some [100, 101, 102, 103, 101, 103, 105, 107, 106, 109, 112, 115, 115, 119, 123, 127, 128, 133, 138, 143] := by decide +kernel

theorem test_subV6 : rowAfter .subV6 (row0 .simd .b6 1 [100, 101, 102, 103, 104, 105, 1, 2, 3, 4, 5, 6, 7, 8, 9, 10, 11, 12, 13, 14, 15, 16, 0, 0]) =
    some [100, 101, 102, 103, 104, 105, 101, 103, 105, 107, 109, 111, 108, 111, 114, 117, 120, 123, 121, 125, 129, 133, 120, 123] := by decide +kernel

theorem test_subV8 : rowAfter .subV8 (row0 .simd .b8 1 [100, 101, 102, 103, 104, 105, 106, 107, 1, 2, 3, 4, 5, 6, 7, 8, 9, 10, 11, 12, 13, 14, 15, 16]) =
    some [100, 101, 102, 103, 104, 105, 106, 107, 101, 103, 105, 107, 109, 111, 113, 115, 110, 113, 116, 119, 122, 125, 128, 131] := by decide +kernel

theorem test_upV1 : rowAfter .upV1 (row1 .simd .b1 2 [7, 10, 20, 10, 20, 10, 20, 10, 20] [0, 250, 10, 250, 10, 250, 10, 250, 10]) =
    some [7, 4, 30, 4, 30, 4, 30, 4, 30] := by decide +kernel

theorem test_upV2 : rowAfter .upV2 (row1 .simd .b2 2 [7, 7, 10, 20, 10, 20, 10, 20, 10, 20] [0, 0, 250, 10, 250, 10, 250, 10, 250, 10]) =
    some [7, 7, 4, 30, 4, 30, 4, 30, 4, 30] := by decide +kernel

theorem test_upV3 : rowAfter .upV3 (row1 .simd .b3 2 [7, 7, 7, 10, 20, 10, 20, 10, 20, 10, 20, 255] [0, 0, 0, 250, 10, 250, 10, 250, 10, 250, 10, 1]) =
    some [7, 7, 7, 4, 30, 4, 30, 4, 30, 4, 30, 0] := by decide +kernel

theorem test_upV4 : rowAfter .upV4 (row1 .simd .b4 2 [7, 7, 7, 7, 10, 20, 10, 20, 10, 20, 10, 20] [0, 0, 0, 0, 250, 10, 250, 10, 250, 10, 250, 10]) =
    some [7, 7, 7, 7, 4, 30, 4, 30, 4, 30, 4, 30] := by decide +kernel

theorem test_upV6 : rowAfter .upV6 (row1 .simd .b6 2 [7, 7, 7, 7, 7, 7, 10, 20, 10, 20, 10, 20, 10, 20, 255, 255, 255, 255] [0, 0, 0, 0, 0, 0, 250, 10, 250, 10, 250, 10, 250, 10, 1, 1, 1, 1]) =
    some [7, 7, 7, 7, 7, 7, 4, 30, 4, 30, 4, 30, 4, 30, 0, 0, 0, 0] := by decide +kernel

theorem test_upV8 : rowAfter .upV8 (row1 .simd .b8 2 [7, 7, 7, 7, 7, 7, 7, 7, 10, 20, 10, 20, 10, 20, 10, 20] [0, 0, 0, 0, 0, 0, 0, 0, 250, 10, 250, 10, 250, 10, 250, 10]) =
    some [7, 7, 7, 7, 7, 7, 7, 7, 4, 30, 4, 30, 4, 30, 4, 30] := by decide +kernel

theorem test_avgV1 : rowAfter .avgV1 (row1 .simd .b1 3 [0, 10, 20, 30, 40, 255, 255, 1, 0] [7, 2, 4, 6, 8, 250, 251, 252, 253]) =
    some [7, 10, 19, 30, 43, 143, 194, 93, 43] := by decide +kernel

/-- R185, R38: the body of that row leaves the last reconstructed byte in C, CW and T0. -/
theorem test_avgBody1_carry :
    let t := avgBody1 { row1 .simd .b1 3 [0, 10, 20, 30, 40, 255, 255, 1, 0] [7, 2, 4, 6, 8, 250, 251, 252, 253] with
      i := 1 }
    toBytes t.c = 43 :: List.replicate 15 0 ∧ toHalves t.cw = 43 :: List.replicate 7 0 ∧ t.t0 = 43 := by decide +kernel

theorem test_avgV2 : rowAfter .avgV2 (row1 .simd .b2 3 [10, 20, 30, 40] [1, 1, 1, 1]) =
    some [6, 11, 19, 26] := by decide +kernel

theorem test_avgV3 : rowAfter .avgV3 (row1 .simd .b3 3 [10, 20, 30, 40, 50, 60] [1, 1, 1, 1, 1, 1]) =
    some [6, 11, 16, 24, 31, 39] := by decide +kernel

theorem test_avgV4 : rowAfter .avgV4 (row1 .simd .b4 3 [0, 0, 0, 0, 10, 20, 30, 40, 50, 60, 70, 80, 90, 100, 110, 120, 130, 140, 150, 160] [50, 51, 52, 53, 200, 203, 206, 209, 212, 215, 218, 221, 224, 227, 230, 233, 236, 239, 242, 245]) =
    some [50, 51, 52, 53, 230, 238, 247, 255, 96, 108, 120, 132, 61, 75, 89, 103, 75, 90, 105, 120] := by decide +kernel

theorem test_avgV6 : rowAfter .avgV6 (row1 .simd .b6 3 [0, 0, 0, 0, 0, 0, 10, 20, 30, 40, 50, 60, 70, 80, 90, 100, 110, 120, 130, 140, 150, 160, 0, 0] [50, 51, 52, 53, 54, 55, 200, 203, 206, 209, 212, 215, 218, 221, 224, 227, 230, 233, 236, 239, 242, 245, 0, 0]) =
    some [50, 51, 52, 53, 54, 55, 230, 238, 247, 255, 8, 16, 112, 124, 136, 148, 33, 45, 101, 115, 129, 143, 16, 22] := by decide +kernel

theorem test_avgV8 : rowAfter .avgV8 (row1 .simd .b8 3 [0, 0, 0, 0, 0, 0, 0, 0, 10, 20, 30, 40, 50, 60, 70, 80, 90, 100, 110, 120, 130, 140, 150, 160] [50, 51, 52, 53, 54, 55, 56, 57, 200, 203, 206, 209, 212, 215, 218, 221, 224, 227, 230, 233, 236, 239, 242, 245]) =
    some [50, 51, 52, 53, 54, 55, 56, 57, 230, 238, 247, 255, 8, 16, 25, 33, 128, 140, 152, 164, 49, 61, 73, 85] := by decide +kernel

theorem test_paethV1 : rowAfter .paethV1 (row1 .simd .b1 4 [10, 20, 30, 40, 50] [5, 5, 5, 5, 5]) =
    some [15, 25, 35, 45, 55] := by decide +kernel

theorem test_paethV2 : rowAfter .paethV2 (row1 .simd .b2 4 [10, 20, 30, 40] [1, 1, 1, 1]) =
    some [11, 21, 31, 41] := by decide +kernel

theorem test_paethV3 : rowAfter .paethV3 (row1 .simd .b3 4 [40, 30, 20, 10, 20, 30, 40, 50, 60, 70, 80, 0] [241, 5, 25, 1, 2, 3, 4, 5, 6, 7, 8, 0]) =
    some [25, 35, 45, 11, 22, 48, 44, 55, 66, 77, 88, 0] := by decide +kernel

/-- R235, R38: the block of that example carries 66, 77, 88 out, in CW and in C. -/
theorem test_paethBlock8_carry :
    let t := paethBlock8 { row1 .simd .b3 4 [40, 30, 20, 10, 20, 30, 40, 50, 60, 70, 80, 0]
      [25, 35, 45, 1, 2, 3, 4, 5, 6, 7, 8, 0] with i := 3, cw := ofHalves [25, 35, 45] }
    toHalves t.cw = [66, 77, 88, 0, 0, 0, 0, 0] ∧ toBytes t.c = [66, 77, 88] ++ List.replicate 13 0 := by decide +kernel

theorem test_paethV4 : rowAfter .paethV4 (row1 .simd .b4 4 [50, 40, 30, 20, 10, 20, 30, 40, 50, 60, 70, 80, 90, 100, 110, 120, 130, 140, 150, 160] [231, 251, 15, 35, 1, 2, 3, 4, 5, 6, 7, 8, 9, 10, 11, 12, 13, 14, 15, 16]) =
    some [25, 35, 45, 55, 11, 22, 48, 59, 55, 66, 77, 88, 99, 110, 121, 132, 143, 154, 165, 176] := by decide +kernel

theorem test_paethV6 : rowAfter .paethV6 (row1 .simd .b6 4 [70, 60, 50, 40, 30, 20, 10, 20, 30, 40, 50, 60, 70, 80, 90, 100, 110, 120, 130, 140, 150, 160, 0, 0] [211, 231, 251, 15, 35, 55, 1, 2, 3, 4, 5, 6, 7, 8, 9, 10, 11, 12, 13, 14, 15, 16, 0, 0]) =
    some [25, 35, 45, 55, 65, 75, 11, 22, 33, 59, 70, 81, 77, 88, 99, 110, 121, 132, 143, 154, 165, 176, 0, 0] := by decide +kernel

theorem test_paethV8 : rowAfter .paethV8 (row1 .simd .b8 4 [90, 80, 70, 60, 50, 40, 30, 20, 10, 20, 30, 40, 50, 60, 70, 80, 90, 100, 110, 120, 130, 140, 150, 160] [191, 211, 231, 251, 15, 35, 55, 75, 1, 2, 3, 4, 5, 6, 7, 8, 9, 10, 11, 12, 13, 14, 15, 16]) =
    some [25, 35, 45, 55, 65, 75, 85, 95, 11, 22, 33, 44, 70, 81, 92, 103, 99, 110, 121, 132, 143, 154, 165, 176] := by decide +kernel

/-- The 64-byte SUB block (R192) after one byte, on bytes of value 1: the running count. -/
theorem test_sub64 : rowAfter .subV1 (row0 .simd .b1 1 (List.replicate 65 1)) = some ((List.range 65).map (· + 1)) := by
  decide +kernel

/-- The 64-byte UP block (R199). -/
theorem test_up64 : rowAfter .upV1 (row1 .simd .b1 2 (List.replicate 65 255) (List.replicate 65 1)) =
    some (List.replicate 65 0) := by decide +kernel

/-- R182: the heads of 95_test_vectors.md section 3.5. -/
theorem test_alignDiff : alignDiff 0x1002 16 = 14 ∧ alignDiff 0x1011 16 = 15 ∧ alignDiff 0x1010 16 = 0 ∧
    alignDiff 0x1009 16 = 7 := by decide

/-! ### Steps, faults and the host -/

/-- R131, R132: the cursor after the first row of two, and the end of the invocation after the second. -/
theorem test_step_cursor : got (step (image .ref .b1 3 2 0x10 [1, 5, 5, 2, 1, 1])) (fun t => (t.status, t.y, t.u, t.p)) =
    some (.busy, 1, 0x11, 0x14) := by decide +kernel

theorem test_step_done : got (step (image .ref .b1 5 1 0x10 [1, 10, 20, 30, 40]))
    (fun t => (t.status, bytesAt t.mem 0x10 5)) = some (.done, [1, 10, 30, 60, 100]) := by decide +kernel

/-- R271: its own example, at row 1. -/
theorem test_format : got (step { image .ref .b1 3 2 0x10 [1, 5, 10, 7, 1, 1] with y := 1, u := 0x11, p := 0x14 })
    (fun t => (t.status, t.fcause, t.frow, t.fbyte, bytesAt t.mem 0x10 6)) =
    some (.fault, 1, 1, 7, [1, 5, 10, 7, 1, 1]) := by decide +kernel

/-- R251: START from DONE. -/
theorem test_start : got (hostMove (.writeReg .ctrl 1) { image .simd .b1 3 2 0x10 [] with status := .done, p := 9, y := 7 })
    (fun t => (t.status, t.y, t.p)) = some (.busy, 0, 0x11) := by decide +kernel

theorem test_host_refused : refusal (hostMove (.writeReg .status 1) { image .ref .b1 3 2 0 [] with status := .idle }) =
      some .readOnlyRegister ∧
    refusal (hostMove (.writeReg .ctrl 2) { image .ref .b1 3 2 0 [] with status := .idle }) = some .reservedCtrlBits ∧
    refusal (hostMove (.writeReg .ksel 4) { image .ref .b1 3 2 0 [] with status := .idle }) = some .valueTooWide ∧
    refusal (hostMove (.readReg .h) (image .ref .b1 3 2 0 [])) = some .hostMoveWhileBusy := by decide +kernel

/-- P4 of R252: a START over a hole is refused, and one beside it is not. -/
theorem test_start_hole : refusal (hostMove (.writeReg .ctrl 1)
      { image .ref .b1 3 2 0x10 [] with status := .idle, holes := [⟨0x15, 1⟩] }) = some (.precondition .p4) ∧
    got (hostMove (.writeReg .ctrl 1) { image .ref .b1 3 2 0x10 [] with status := .idle, holes := [⟨0x16, 1⟩] })
      (fun t => t.status) = some .busy := by decide +kernel

theorem test_host_hole : faultOf (hostMove (.writeMem 7 1) { image .ref .b1 3 2 0x10 [] with holes := [⟨7, 1⟩] }) =
    some .noOrdinaryMemory := by decide +kernel

theorem test_host_memory : faultOf (hostMove (.readMem 65536) { image .ref .b1 3 2 0 [] with status := .idle }) =
      some .outsideAddressSpace ∧
    got (hostMove (.readMem 65535) (image .ref .b1 3 2 0 [])) (fun t => t.readData) = some 0 ∧
    got (hostMove (.readReg .status) (image .ref .b1 3 2 0 [])) (fun t => t.readData) = some 1 := by decide +kernel

/-- R290, R292: a reset while BUSY leaves IDLE and the filter byte. -/
theorem test_reset_busy : got (hostMove .reset (image .ref .b1 3 1 0x10 [1, 5, 5]))
    (fun t => (t.status, t.written.all, (t.mem.read 0x10).toNat)) = some (.idle, false, 1) := by decide +kernel

theorem test_exec_stops : refusal (exec .subV1 (image .ref .b1 3 1 0 [])) = some .wrongMode ∧
    refusal (exec .sub { image .ref .b1 3 1 0 [] with bpp := 5 }) = some (.precondition .p1) ∧
    faultOf (exec .sub { image .ref .b1 3 1 0 [] with p := 65535 }) = some .outsideAddressSpace ∧
    faultOf (exec .sub { image .ref .b1 3 1 0 [] with holes := [⟨2, 1⟩] }) = some .noOrdinaryMemory ∧
    faultOf (step { image .ref .b1 3 1 0 [] with holes := [⟨0, 1⟩] }) = some .noOrdinaryMemory := by decide +kernel

/-- A poll of STATUS that is due after the first row lands between the rows. -/
theorem test_poll : got (step { image .ref .b1 3 2 0 [] with inputs := [⟨0, .readReg .status⟩, ⟨1, .reset⟩] })
    (fun t => (t.readData, t.y, t.inputs)) = some (1, 0, [⟨1, .reset⟩]) := by decide +kernel

/-! ### Witnesses: for every obligation with hypotheses, a state and operands that meet them, at the boundaries -/

theorem next_of_got {α : Type} {o : Host.Outcome State Fault Refusal} {f : State → α} {x : α} (h : got o f = some x) :
    ∃ t, o = .next t ∧ f t = x := by
  cases o with
  | next t => exact ⟨t, rfl, Option.some.inj h⟩
  | fault r => cases h
  | refused r => cases h

/-- Two rows of defined filters, at row 0. -/
def w0 : State := image .ref .b1 3 2 0x10 [1, 5, 5, 2, 1, 1]

/-- The same image in the SIMD kernel, at another address. -/
def wSimd : State := image .simd .b1 3 2 0x25 [1, 5, 5, 2, 1, 1]

/-- A reserved filter byte, the least, in the second row. -/
def wBad : State := image .ref .b1 3 2 0x10 [1, 5, 5, 5, 1, 1]

/-- The last row of the image. -/
def wRow1 : State := { w0 with y := 1, u := 0x11, p := 0x14 }

/-- A poll of STATUS still to come within the run, and a reset after its end; memory around the buffer that is no ordinary
memory. -/
def wPoll : State := { w0 with inputs := [⟨1, .readReg .status⟩, ⟨1, .reset⟩], holes := [⟨0, 0x10⟩, ⟨0x16, 9⟩] }

/-- Between invocations, parameters written. -/
def wIdle : State := { w0 with status := .idle }

theorem inv_w0 : w0.Inv where
  memWf := by decide
  memBelow := by decide
  bufBelow := by decide
  cursorBelow := by decide
  aboveBelow := by decide
  running := fun _ => ⟨rfl, rfl, by decide, by decide, by decide, by decide⟩
  faultRecord := by decide

theorem inv_wSimd : wSimd.Inv where
  memWf := by decide
  memBelow := by decide
  bufBelow := by decide
  cursorBelow := by decide
  aboveBelow := by decide
  running := fun _ => ⟨rfl, rfl, by decide, by decide, by decide, by decide⟩
  faultRecord := by decide

theorem inv_wBad : wBad.Inv where
  memWf := by decide
  memBelow := by decide
  bufBelow := by decide
  cursorBelow := by decide
  aboveBelow := by decide
  running := fun _ => ⟨rfl, rfl, by decide, by decide, by decide, by decide⟩
  faultRecord := by decide

theorem inv_wPoll : wPoll.Inv where
  memWf := by decide
  memBelow := by decide
  bufBelow := by decide
  cursorBelow := by decide
  aboveBelow := by decide
  running := fun _ => ⟨rfl, rfl, by decide, by decide, by decide, by decide⟩
  faultRecord := by decide

theorem noMoveDue_of_nil {s : State} (h : s.inputs = []) : s.NoMoveDue := fun v rest h' => by rw [h] at h'; cases h'

theorem noMoveDue_wPoll : wPoll.NoMoveDue := fun _ _ h => by cases h

/-- The poll is within the run of two rows, the reset is not. -/
theorem polls_wPoll : OnlyPollsWithin 2 wPoll.inputs := .inr ⟨rfl, .inl (Nat.le_refl _)⟩


theorem inv_wRow1 : wRow1.Inv where
  memWf := by decide
  memBelow := by decide
  bufBelow := by decide
  cursorBelow := by decide
  aboveBelow := by decide
  running := fun _ => ⟨rfl, rfl, by decide, by decide, by decide, by decide⟩
  faultRecord := by decide

/-- The shortest row and a row of the widest pixel are well formed. -/
theorem witness_RowRoundTrip : Row.wf ⟨.ref, .b1⟩ 2 ⟨.none, [0]⟩ = true ∧
    Row.wf ⟨.simd, .b8⟩ 9 ⟨.paethV8, [1, 2, 3, 4, 5, 6, 7, 255]⟩ = true := by decide

theorem witness_DecodedRowReencodes : decode ⟨.simd, .b2⟩ 3 [0x02, 5, 5, 9] = .ok (⟨.upV2, [5, 5]⟩, [9]) := by decide

/-- The last defined value, the first and the last reserved one, each under one clause. -/
theorem witness_OpcodeByteDecides : (4 : Byte) ≠ 5 ∧ 5 ≤ (5 : Byte).toNat ∧ 5 ≤ (255 : Byte).toNat ∧
    ¬5 ≤ (4 : Byte).toNat := by decide

theorem witness_ModeSelectsInstruction : (⟨.opt, .b8⟩ : Mode).kernel ≠ .simd ∧
    Instr.select ⟨.simd, .b3⟩ .avg = Instr.select ⟨.simd, .b3⟩ .avg := by decide

/-- With a poll to come. -/
theorem witness_StepRunsDecodedRow : wPoll.status = .busy ∧ wPoll.NoMoveDue ∧ wPoll.mode = some ⟨.ref, .b1⟩ ∧
    wPoll.fetchFault = none ∧ decode ⟨.ref, .b1⟩ wPoll.bpl.toNat wPoll.rowBytes = .ok (⟨.sub, [5, 5]⟩, []) :=
  ⟨rfl, noMoveDue_wPoll, by decide, by decide, by decide⟩

theorem witness_ReservedByteTakesFormatFault : ∀ b : Nat, b = 5 ∨ b = 255 →
    let s := { image .simd .b8 9 1 0 [b, 1, 2, 3, 4, 5, 6, 7, 8] with inputs := [⟨2, .readReg .status⟩] }
    (s.status = .busy ∧ s.mode = some ⟨.simd, .b8⟩ ∧ s.fetchFault = none ∧ 5 ≤ (s.mem.read (s.p - 1)).toNat) ∧
      s.NoMoveDue := by
  rintro b (rfl | rfl) <;> exact ⟨by decide, fun _ _ h => by cases h⟩

theorem witness_StoppedEngineKeepsState : (wIdle.status ≠ .busy ∧ { w0 with status := .fault }.status ≠ .busy ∧
    { w0 with status := .done }.status ≠ .busy) ∧ wIdle.NoMoveDue ∧ { wPoll with status := .done }.NoMoveDue :=
  ⟨by decide, noMoveDue_of_nil rfl, fun _ _ h => by cases h⟩

theorem witness_DueHostMoveLands :
    { wIdle with inputs := [⟨0, .readReg .status⟩, ⟨2, .reset⟩] }.inputs = ⟨0, .readReg .status⟩ :: [⟨2, .reset⟩] := rfl

theorem witness_StartBeginsInvocation : wIdle.status ≠ .busy ∧ wIdle.startViolation = none ∧
    { w0 with status := .done }.startViolation = none := by decide

/-- Both sides of the equivalences: a START that is refused, by P4 and by P5 one byte over, by the first of two that
fail, and one that is not. -/
theorem witness_StartRefusedExactlyOnViolation : wIdle.status ≠ .busy ∧
    hostMove (.writeReg .ctrl 1) { wIdle with buf := 65531 } = .refused (.precondition .p5) ∧
    { wIdle with buf := 65530 }.startViolation = none ∧
    hostMove (.writeReg .ctrl 1) { wIdle with holes := [⟨0x15, 1⟩] } = .refused (.precondition .p4) ∧
    { wIdle with holes := [⟨0x16, 1⟩] }.startViolation = none ∧
    hostMove (.writeReg .ctrl 1) { wIdle with holes := [⟨0x15, 1⟩], ksel := 3 } = .refused (.precondition .p4) ∧
    [Precondition.p7, .p1, .p2, .p3, .p4, .p5, .p6] = [.p7, .p1, .p2, .p3] ++ .p4 :: [.p5, .p6] :=
  ⟨by decide, rfl, by decide, rfl, by decide, rfl, rfl⟩

/-- The widest values that are held, the least that are not. -/
theorem witness_RegisterWriteIsHeldOrRefused : wIdle.status ≠ .busy ∧
    (65535 < 2 ^ wIdle.addrW ∧ 2 ^ wIdle.addrW ≤ 65536) ∧ 2 ^ 32 - 1 < 2 ^ 32 ∧ 3 < 4 ∧
    hostMove (.writeReg .ctrl 2) wIdle = .refused .reservedCtrlBits ∧
    hostMove (.writeReg .buf 65536) wIdle = .refused .valueTooWide ∧
    hostMove (.writeReg .fbyte 0) wIdle = .refused .readOnlyRegister := ⟨by decide, by decide, by decide, by decide, rfl, rfl, rfl⟩

/-- The fault record, and one parameter register written alone. -/
theorem witness_RegisterReadAnswersValue : { w0 with status := .fault }.status = .fault ∧
    wIdle.status ≠ .busy ∧ { wIdle with written := ⟨false, false, true, false, false⟩ }.written.bpp = true := by decide

/-- The first and the last byte of the buffer. -/
theorem witness_BusyHostMovesRefused : w0.status = .busy ∧
    (w0.buf ≤ 0x10 ∧ 0x10 < w0.buf + w0.h.toNat * w0.bpl.toNat) ∧
    (w0.buf ≤ 0x15 ∧ 0x15 < w0.buf + w0.h.toNat * w0.bpl.toNat ∧ ¬0x16 < w0.buf + w0.h.toNat * w0.bpl.toNat) := by
  decide

theorem witness_ResetFromAnyState : w0.status = .busy ∧ wIdle.status ≠ .busy := by decide

/-- A payload byte of the last row and the filter byte beside it. -/
theorem witness_BusyResetKeepsFilterBytes : wRow1.Inv ∧ wRow1.status = .busy ∧ 1 < wRow1.h.toNat ∧
    InPayload 0x10 3 2 0x14 ∧ ¬InPayload 0x10 3 2 0x13 := by
  refine ⟨inv_wRow1, rfl, by decide, ⟨1, by decide, by decide, by decide⟩, ?_⟩
  rintro ⟨y, hy, h1, h2⟩
  omega

/-- One address for each clause, where the clauses meet: the last of the space and the first beyond it, the last of a
hole and the first beyond it. -/
theorem witness_HostMemoryWriteReadsBack : let s := { wIdle with holes := [⟨0x30, 2⟩] }
    s.mem.wf ∧ s.status ≠ .busy ∧
    (65535 < 2 ^ s.addrW ∧ ∀ r ∈ s.holes, ¬(r.base ≤ 65535 ∧ 65535 < r.base + r.size)) ∧ 2 ^ s.addrW ≤ 65536 ∧
    (0x31 < 2 ^ s.addrW ∧ ∃ r ∈ s.holes, r.base ≤ 0x31 ∧ 0x31 < r.base + r.size) ∧
    ∀ r ∈ s.holes, ¬(r.base ≤ 0x32 ∧ 0x32 < r.base + r.size) := by decide

theorem witness_StepKeepsInvariant : w0.Inv ∧ ∃ t, step w0 = .next t := by
  obtain ⟨t, h, _⟩ := next_of_got (o := step w0) (f := fun t => t.y) (x := 1) (by decide +kernel)
  exact ⟨inv_w0, t, h⟩

/-- Row 0, and the last row, which has a row above it. -/
theorem witness_RunningRowIsReady : (w0.Inv ∧ w0.status = .busy) ∧ wRow1.Inv ∧ wRow1.status = .busy ∧ wRow1.y ≠ 0 :=
  ⟨⟨inv_w0, rfl⟩, inv_wRow1, rfl, by decide⟩

/-- A row to be executed, with a poll to come, and a reserved filter byte. -/
theorem witness_RunningStepAnswersNext : (wPoll.Inv ∧ wPoll.status = .busy ∧ wPoll.NoMoveDue) ∧
    let s := { wBad with y := 1, u := 0x11, p := 0x14 }
    s.status = .busy ∧ s.NoMoveDue ∧ 5 ≤ (s.mem.read (s.p - 1)).toNat :=
  ⟨⟨inv_wPoll, rfl, noMoveDue_wPoll⟩, rfl, noMoveDue_of_nil rfl, by decide⟩

theorem witness_StepWritesCurrentPayloadOnly : (wRow1.Inv ∧ wRow1.status = .busy ∧ wRow1.NoMoveDue ∧
    ∃ t, step wRow1 = .next t) ∧ wPoll.Inv ∧ wPoll.status = .busy ∧ wPoll.NoMoveDue := by
  obtain ⟨t, h, _⟩ := next_of_got (o := step wRow1) (f := fun t => t.y) (x := 2) (by decide +kernel)
  exact ⟨⟨inv_wRow1, rfl, noMoveDue_of_nil rfl, t, h⟩, inv_wPoll, rfl, noMoveDue_wPoll⟩

theorem witness_InvocationEnds : (wBad.Inv ∧ wBad.status = .busy ∧ OnlyPollsWithin (wBad.h.toNat - wBad.y.toNat) wBad.inputs) ∧
    wPoll.Inv ∧ wPoll.status = .busy ∧ OnlyPollsWithin (wPoll.h.toNat - wPoll.y.toNat) wPoll.inputs :=
  ⟨⟨inv_wBad, rfl, trivial⟩, inv_wPoll, rfl, polls_wPoll⟩

/-- A poll lands within the run. -/
theorem witness_InvocationReconstructsImage : wPoll.Inv ∧ wPoll.status = .busy ∧
    OnlyPollsWithin wPoll.h.toNat wPoll.inputs ∧ wPoll.y = 0 ∧
    ∀ y < wPoll.h.toNat, (filterAt wPoll.mem wPoll.buf wPoll.bpl.toNat y).toNat < 5 :=
  ⟨inv_wPoll, rfl, polls_wPoll, rfl, by decide⟩

/-- The reserved byte in the last row; in the first row, nothing stands before it. -/
theorem witness_FormatFaultIsPrecise : wBad.Inv ∧ wBad.status = .busy ∧ OnlyPollsWithin (1 + 1) wBad.inputs ∧ wBad.y = 0 ∧
    1 < wBad.h.toNat ∧ (∀ y < 1, (filterAt wBad.mem wBad.buf wBad.bpl.toNat y).toNat < 5) ∧
    5 ≤ (filterAt wBad.mem wBad.buf wBad.bpl.toNat 1).toNat :=
  ⟨inv_wBad, rfl, trivial, rfl, by decide, by decide, by decide⟩

/-- One host that polls and one that does not, two kernels, two alignments. -/
theorem witness_ResultDependsOnImageOnly : wPoll.Inv ∧ wSimd.Inv ∧ wPoll.status = .busy ∧ wSimd.status = .busy ∧
    OnlyPollsWithin wPoll.h.toNat wPoll.inputs ∧ OnlyPollsWithin wPoll.h.toNat wSimd.inputs ∧ wPoll.y = 0 ∧ wSimd.y = 0 ∧
    wPoll.h = wSimd.h ∧ wPoll.bpp = wSimd.bpp ∧ wPoll.bpl = wSimd.bpl ∧
    (wPoll.ksel ≠ wSimd.ksel ∧ wPoll.buf % 16 ≠ wSimd.buf % 16) ∧
    ∀ o < wPoll.h.toNat * wPoll.bpl.toNat, wPoll.mem.read (wPoll.buf + o) = wSimd.mem.read (wSimd.buf + o) :=
  ⟨inv_wPoll, inv_wSimd, rfl, rfl, polls_wPoll, trivial, rfl, rfl, rfl, rfl, rfl, by decide, by decide⟩

theorem witness_UdivIsThird : udiv3 511 = 511 / 3 ∧ udiv3 255 = 85 ∧ udiv3 512 ≠ 512 / 3 := by decide

theorem witness_AvgIsFloorMean : avg 255 255 = 255 ∧ avg 255 254 = 254 ∧ avg 0 1 = 0 := by decide

/-- `lo = 10`, `hi = 40`, `d = 10`: the three clauses at the values where they meet. -/
theorem witness_PaethOptSelects : paethOpt 10 40 20 = 40 ∧ paethOpt 10 40 21 = 21 ∧ paethOpt 10 40 29 = 29 ∧
    paethOpt 10 40 30 = 10 ∧ paethOpt 40 10 255 = 10 ∧ paethOpt 255 255 255 = 255 := by decide

theorem witness_PaethOptEqualsPaethRef : paethOpt 255 0 128 = paethRef 255 0 128 ∧ paethOpt 0 0 255 = 0 := by decide

theorem witness_VectorLoadsAndStores : (put [] 64 [1, 2, 3]).wf := by decide

/-- Shift counts 0 and 15; the last lanes. -/
theorem witness_LaneArithmetic : toHalves (vsraw (ofHalves [0, 0, 0, 0, 0, 0, 0, 0x8000]) 15) =
      [0, 0, 0, 0, 0, 0, 0, 0xFFFF] ∧
    toHalves (vsllw (ofHalves [0, 0, 0, 0, 0, 0, 0, 0x8001]) 0) = [0, 0, 0, 0, 0, 0, 0, 0x8001] := by decide +kernel

theorem witness_VectorThirdIsExact : ∀ k < 8, (lane16 m00FF k).toNat ≤ 255 := by decide +kernel

theorem witness_PaethLanesArePredictors : ∀ k < 8, (lane16 (ofHalves [0, 255, 9, 9, 9, 9, 9, 255]) k).toNat ≤ 255 := by
  decide +kernel

theorem lane8_zero_from (n : Nat) (v : V128) (hv : v.toNat < 2 ^ (8 * n)) : ∀ j, n ≤ j → lane8 v j = 0 := by
  intro j hj
  apply BitVec.eq_of_toNat_eq
  have : v.toNat < 2 ^ (8 * j) := Nat.lt_of_lt_of_le hv (Nat.pow_le_pow_right (by decide) (by omega))
  simp [lane8, Nat.shiftRight_eq_div_pow, Nat.div_eq_of_lt this]

theorem lane16_zero_from (n : Nat) (v : V128) (hv : v.toNat < 2 ^ (16 * n)) : ∀ j, n ≤ j → lane16 v j = 0 := by
  intro j hj
  apply BitVec.eq_of_toNat_eq
  have : v.toNat < 2 ^ (16 * j) := Nat.lt_of_lt_of_le hv (Nat.pow_le_pow_right (by decide) (by omega))
  simp [lane16, Nat.shiftRight_eq_div_pow, Nat.div_eq_of_lt this]

/-- A block's state: a carry of three bytes of 255 in C. -/
theorem witness_SubBlockFunction : let s := { w0 with c := 0xFFFFFF#128 }
    s.mem.wf ∧ ∀ j, Bpp.b3.toNat ≤ j → lane8 s.c j = 0 :=
  ⟨by decide, lane8_zero_from 3 _ (by decide)⟩

/-- A seed at the first pixel, and the carry from a previous block, for the four pixel sizes that have the shuffle form. -/
theorem witness_CarrySeedAndBroadcast : Bpp.b3.toNat ≤ { w0 with i := 3 }.i.toNat ∧
    ∀ b : Bpp, b = .b1 ∨ b = .b2 ∨ b = .b4 ∨ b = .b8 →
    ∃ r, (∀ j, b.toNat ≤ j → lane8 (vsrldq one16 (16 - b.toNat)) j = 0) ∧ repShuffle b one16 = some r := by
  refine ⟨by decide, ?_⟩
  rintro b (rfl | rfl | rfl | rfl)
  · exact ⟨_, lane8_zero_from 1 _ (by decide +kernel), rfl⟩
  · exact ⟨_, lane8_zero_from 2 _ (by decide +kernel), rfl⟩
  · exact ⟨_, lane8_zero_from 4 _ (by decide +kernel), rfl⟩
  · exact ⟨_, lane8_zero_from 8 _ (by decide +kernel), rfl⟩

/-- Blocks that end at the last payload byte, on row 0 and under a row. -/
theorem witness_UpBlockFunctions : let s := { row1 .simd .b8 2 [] (List.replicate 72 1) with i := 8 }
    (s.mem.wf ∧ (s.y = 0 ∨ s.u + s.n ≤ s.p) ∧ s.i.toNat + 64 = s.n) ∧ { s with i := 64 }.i.toNat + 8 = s.n ∧
    { s with y := 0 }.y = 0 := by decide +kernel

/-- A running value of 255; and a block that ends at the last payload byte. -/
theorem witness_AvgWalkFunction : ({ w0 with t0 := 255 }.mem.wf ∧ { w0 with t0 := 255 }.t0.toNat ≤ 255) ∧
    let s := { row1 .simd .b1 3 [] (List.replicate 9 1) with i := 1, t0 := 255 }
    s.mem.wf ∧ s.t0.toNat ≤ 255 ∧ s.i.toNat + 8 = s.n := by decide +kernel

theorem lanes_ok (n : Nat) (v : V128) (hv : v.toNat < 2 ^ (16 * n)) (hl : ∀ j < n, (lane16 v j).toNat ≤ 255) :
    ∀ j, (lane16 v j).toNat ≤ 255 ∧ (n ≤ j → lane16 v j = 0) := by
  intro j
  refine ⟨?_, lane16_zero_from n v hv j⟩
  by_cases h : j < n
  · exact hl j h
  · rw [lane16_zero_from n v hv j (by omega)]; decide

/-- A carry of four bytes of 255 in CW. -/
theorem witness_AvgBlockFunction : let s := { w0 with cw := 0xFF00FF00FF00FF#128 }
    s.mem.wf ∧ ∀ j, (lane16 s.cw j).toNat ≤ 255 ∧ (Bpp.b4.toNat ≤ j → lane16 s.cw j = 0) :=
  ⟨by decide, lanes_ok 4 _ (by decide) (by decide)⟩

/-- The first block of a row: I is `bpp`. -/
theorem witness_PaethBlockFunction : let s := { w0 with cw := 0xFF00FF00FF00FF#128, i := 4 }
    s.mem.wf ∧ Bpp.b4.toNat ≤ s.i.toNat ∧
      ∀ j, (lane16 s.cw j).toNat ≤ 255 ∧ (Bpp.b4.toNat ≤ j → lane16 s.cw j = 0) :=
  ⟨by decide, by decide, lanes_ok 4 _ (by decide) (by decide)⟩

theorem witness_PaethTripleBlockFunction : let s := { w0 with cw := 0xFF00FF00FF#128, i := 3 }
    s.mem.wf ∧ 3 ≤ s.i.toNat ∧ ∀ j, (lane16 s.cw j).toNat ≤ 255 ∧ (3 ≤ j → lane16 s.cw j = 0) :=
  ⟨by decide, by decide, lanes_ok 3 _ (by decide) (by decide)⟩

/-- A row that enters its body aligned, at the first byte after its pixel. -/
theorem witness_BodyEnteredAligned : let s := { row1 .simd .b3 1 [] (List.replicate 24 1) with i := 3 }
    s.AlignedTo 16 ∧ s.i.toNat + 16 ≤ s.n := by decide +kernel

/-- A state of a mode, at a row under another one. -/
def wRow (k : Kernel) (b : Bpp) : State := row1 k b 0 (List.replicate 24 200) (List.replicate 24 100)

theorem rowReady_wRow (k : Kernel) (b : Bpp) (f : Filter) : (wRow k b).RowReady f := by
  constructor
  · cases k <;> cases b <;> decide +kernel
  · cases k <;> cases b <;> decide +kernel
  · cases k <;> cases b <;> cases f <;> decide +kernel
  · cases k <;> cases b <;> decide +kernel

theorem mode_wRow (k : Kernel) (b : Bpp) : (wRow k b).mode = some ⟨k, b⟩ := by
  cases k <;> cases b <;> decide +kernel

theorem runsIn_wRow {b : Bpp} {i : Instr} (h : i.bpp? = some b) : (wRow .simd b).RunsIn i := by
  intro c hc
  rw [h] at hc
  cases hc
  exact mode_wRow _ _

theorem witness_NoneRowsOnlyAdvance : ∀ i ∈ [Instr.none, .noneV1, .noneV2, .noneV3, .noneV4, .noneV6, .noneV8],
    ∃ s : State, s.RowReady .none ∧ s.RunsIn i := by
  intro i hi
  fin_cases hi
  · exact ⟨_, rowReady_wRow .ref .b1 _, fun b hb => by cases hb⟩
  all_goals exact ⟨_, rowReady_wRow .simd _ _, runsIn_wRow rfl⟩

theorem witness_SubRowAddsLeft : (wRow .ref .b3).RowReady .sub := rowReady_wRow _ _ _

theorem witness_UpRowAddsAbove : (wRow .opt .b8).RowReady .up := rowReady_wRow _ _ _

theorem witness_AvgRowAddsFloorMean : (wRow .ref .b1).RowReady .avg := rowReady_wRow _ _ _

theorem witness_PaethRowAddsPredictor : (wRow .opt .b6).RowReady .paeth := rowReady_wRow _ _ _

theorem witness_SubVectorRowsReconstruct : ∀ i ∈ [Instr.subV1, .subV2, .subV3, .subV4, .subV6, .subV8],
    ∃ s : State, s.RowReady .sub ∧ s.RunsIn i := by
  intro i hi
  fin_cases hi <;> exact ⟨_, rowReady_wRow .simd _ _, runsIn_wRow rfl⟩

theorem witness_UpVectorRowsReconstruct : ∀ i ∈ [Instr.upV1, .upV2, .upV3, .upV4, .upV6, .upV8],
    ∃ s : State, s.RowReady .up ∧ s.RunsIn i := by
  intro i hi
  fin_cases hi <;> exact ⟨_, rowReady_wRow .simd _ _, runsIn_wRow rfl⟩

theorem witness_AvgVectorRowsReconstruct : ∀ i ∈ [Instr.avgV1, .avgV2, .avgV3, .avgV4, .avgV6, .avgV8],
    ∃ s : State, s.RowReady .avg ∧ s.RunsIn i := by
  intro i hi
  fin_cases hi <;> exact ⟨_, rowReady_wRow .simd _ _, runsIn_wRow rfl⟩

theorem witness_PaethVectorRowsReconstruct : ∀ i ∈ [Instr.paethV1, .paethV2, .paethV3, .paethV4, .paethV6, .paethV8],
    ∃ s : State, s.RowReady .paeth ∧ s.RunsIn i := by
  intro i hi
  fin_cases hi <;> exact ⟨_, rowReady_wRow .simd _ _, runsIn_wRow rfl⟩

theorem witness_VectorRowEqualsBaseRow (f : Filter) (b : Bpp) :
    (wRow .simd b).RowReady f ∧ (wRow .simd b).mode = some ⟨.simd, b⟩ := ⟨rowReady_wRow _ _ _, mode_wRow _ _⟩

/-- A row as row 0, and the same row under a row of zeros. -/
def wFirst (y : Word) : State := { row1 .simd .b4 0 [] (List.replicate 24 100) with y := y }

theorem witness_FirstRowSeesZeroRow : (wFirst 0).RowReady .paeth ∧ (wFirst 1).RowReady .paeth ∧
    (wFirst 0).RunsIn .paethV4 ∧ (wFirst 0).y = 0 ∧ (wFirst 1).y ≠ 0 ∧ (wFirst 1).mem = (wFirst 0).mem ∧
    (wFirst 1).p = (wFirst 0).p ∧ (wFirst 1).bpp = (wFirst 0).bpp ∧ (wFirst 1).bpl = (wFirst 0).bpl ∧
    (wFirst 1).ksel = (wFirst 0).ksel ∧ ∀ j < (wFirst 0).n, (wFirst 1).mem.read ((wFirst 1).u + j) = 0 := by
  refine ⟨⟨by decide +kernel, by decide +kernel, by decide +kernel, by decide +kernel⟩,
    ⟨by decide +kernel, by decide +kernel, by decide +kernel, by decide +kernel⟩, fun b hb => ?_, rfl, by decide, rfl, rfl,
    rfl, rfl, rfl, by decide +kernel⟩
  cases hb
  decide +kernel

theorem witness_FirstRowSubstitution : (wFirst 0).RowReady .paeth ∧ (wFirst 0).y = 0 :=
  ⟨witness_FirstRowSeesZeroRow.1, rfl⟩

/-- The row before the last one of a running invocation. -/
theorem witness_EveryRowAdvancesCursor : w0.Running ∧ w0.y.toNat + 1 < w0.h.toNat ∧ ∃ t, exec .sub w0 = .next t := by
  obtain ⟨t, h, _⟩ := next_of_got (o := exec .sub w0) (f := fun t => t.y) (x := 1) (by decide +kernel)
  exact ⟨inv_w0.running rfl, by decide, t, h⟩

/-- One state for each clause; the footprint clause at the last address that fits and at the first that does not. -/
theorem witness_RowStopsExactlyWhen :
    (∃ i, ¬w0.RunsIn i) ∧
    (w0.RunsIn .up ∧ { w0 with bpp := 5 }.geometry? = some .p1 ∧ { w0 with bpl := 1 }.geometry? = some .p2) ∧
    ({ w0 with p := 65535 }.geometry? = none ∧ { w0 with p := 65535 }.footprintFault .up = some .outsideAddressSpace) ∧
    ({ w0 with p := 65534 }.geometry? = none ∧ { w0 with p := 65534 }.footprintFault .up = none) ∧
    ({ w0 with holes := [⟨0x12, 1⟩] }.footprintFault .up = some .noOrdinaryMemory ∧
      { w0 with holes := [⟨0x13, 1⟩] }.footprintFault .up = none) := by
  refine ⟨⟨.upV1, fun h => ?_⟩, ⟨fun b hb => (by cases hb), by decide, by decide⟩, by decide, by decide, by decide⟩
  have := h .b1 rfl
  revert this
  decide

end Sys2Proof.Tests
end

section
/-! The lane views of a vector as numbers (R13): the obligations of 00_scope.md. -/

namespace Sys2Proof.Machine

/-- Byte lane `4 * k + j` is digit `j`, in base 256, of 32-bit lane `k`. -/
theorem lane8_toNat_of_lane32 (v : V128) (k : Nat) {j : Nat} (hj : j < 4) :
    (lane8 v (4 * k + j)).toNat = (lane32 v k).toNat / 2 ^ (8 * j) % 2 ^ 8 := by
  rw [lane8_of_lane32, show (4 * k + j) / 4 = k by omega, show (4 * k + j) % 4 = j by omega,
    BitVec.extractLsb'_toNat, Nat.shiftRight_eq_div_pow]

/-- A 32-bit lane as the number its four byte lanes make. -/
theorem lane32_toNat (v : V128) (k : Nat) :
    (lane32 v k).toNat = (lane8 v (4 * k)).toNat + 2 ^ 8 * (lane8 v (4 * k + 1)).toNat +
      2 ^ 16 * (lane8 v (4 * k + 2)).toNat + 2 ^ 24 * (lane8 v (4 * k + 3)).toNat := by
  have h0 := lane8_toNat_of_lane32 v k (j := 0) (by decide)
  have h1 := lane8_toNat_of_lane32 v k (j := 1) (by decide)
  have h2 := lane8_toNat_of_lane32 v k (j := 2) (by decide)
  have h3 := lane8_toNat_of_lane32 v k (j := 3) (by decide)
  rw [Nat.add_zero] at h0
  have hlt := (lane32 v k).isLt
  omega

/-- Settles O32: the composition laws of the two lane widths, which hold at every lane index. -/
theorem laneViewsCompose : Obligations.LaneViewsCompose := by
  intro v
  exact ⟨fun k _ => lane16_toNat v k, fun k _ => lane32_toNat v k⟩

end Sys2Proof.Machine
end

section
/-! State and memory between row instructions (10_state.md): what the body of a row can write. -/

namespace Sys2Proof.Machine

/-- A read outside a store of several bytes sees what it saw before. -/
theorem Memory.read_writeBytes_outside {m : Memory} {a k x : Nat} (f : Nat → Byte) (h : ¬(a ≤ x ∧ x < a + k)) :
    (m.writeBytes a f k).read x = m.read x := by
  induction k with
  | zero => rfl
  | succ k ih => rw [Memory.writeBytes, Memory.read_write_ne _ (by omega), ih (by omega)]

/-- The payload is shorter than every row length. -/
theorem State.n_lt (s : State) : s.n < 2 ^ 32 - 1 := by
  have := s.bpl.isLt
  rw [State.n]
  omega

/-- `t` is `s` with nothing written but payload bytes of the current row and working registers. -/
structure WritesPayload (s t : State) : Prop where
  same : SameRow s t
  memWf : s.mem.wf → t.mem.wf
  memBelow : ∀ limit, s.p + s.n ≤ limit → s.mem.below limit → t.mem.below limit
  outside : OutsidePayloadKept s t

theorem WritesPayload.of_mem_eq {s t : State} (h : SameRow s t) (hm : t.mem = s.mem) : WritesPayload s t where
  same := h
  memWf hw := by rwa [hm]
  memBelow _ _ hb := by rwa [hm]
  outside _ _ := by rw [hm]

theorem WritesPayload.refl (s : State) : WritesPayload s s := .of_mem_eq (SameRow.refl s) rfl

theorem WritesPayload.trans {s t r : State} (h1 : WritesPayload s t) (h2 : WritesPayload t r) : WritesPayload s r where
  same := h1.same.trans h2.same
  memWf hw := h2.memWf (h1.memWf hw)
  memBelow limit hl hb := h2.memBelow limit (by rwa [h1.same.p, h1.same.n_eq]) (h1.memBelow limit hl hb)
  outside a ha := by rw [h2.outside a (by rwa [h1.same.p, h1.same.n_eq]), h1.outside a ha]

/-- A store of several bytes within the payload. -/
theorem WritesPayload.store {s t : State} {k size : Nat} {f : Nat → Byte} (h : SameRow s t)
    (hm : t.mem = s.mem.writeBytes (s.p + k) f size) (hk : k + size ≤ s.n) : WritesPayload s t where
  same := h
  memWf hw := by rw [hm]; exact Memory.wf_writeBytes hw _ _ _
  memBelow limit hl hb := by rw [hm]; exact Memory.below_writeBytes hb (by omega) _
  outside a ha := by rw [hm]; exact Memory.read_writeBytes_outside _ (by omega)

theorem writesPayload_setPayload {s : State} {i : Nat} (hi : i < s.n) (e : Nat) :
    WritesPayload s (s.setPayload i e) :=
  .store (size := 1) (f := fun _ => BitVec.ofNat 8 e) (sameRow_setPayload s i e) rfl hi

/-! ### Loops over payload bytes -/

/-- A loop over payload indices writes the payload alone when each of its passes does. -/
theorem writesPayload_forUp {f : Nat → State → State} {lo count : Nat} {s : State}
    (h : ∀ i t, lo ≤ i → i < lo + count → t.n = s.n → WritesPayload t (f i t)) :
    WritesPayload s (forUp f lo count s) :=
  forUp_induct (P := fun _ t => WritesPayload s t) (.refl s) fun k hk t ht =>
    ht.trans (h (lo + k) t (by omega) (by omega) ht.same.n_eq)

theorem writesPayload_forRange {f : Nat → State → State} {lo hi : Nat} {s : State} (hn : hi ≤ s.n)
    (h : ∀ i t, i < t.n → WritesPayload t (f i t)) : WritesPayload s (forRange lo hi f s) :=
  writesPayload_forUp fun i t _ _ ht => h i t (by omega)

theorem writesPayload_addLoop {lo hi : Nat} {s : State} (hn : hi ≤ s.n) (g : Nat → State → Nat) :
    WritesPayload s (forRange lo hi (fun i s => s.addPayload i (g i s)) s) :=
  writesPayload_forRange hn fun _ _ hi => writesPayload_setPayload hi _

theorem writesPayload_scalar {lo hi : Nat} {s : State} (hn : hi ≤ s.n) (f : Filter) (bpp : Nat) :
    WritesPayload s (scalar f bpp lo hi s) :=
  writesPayload_forRange hn fun _ _ hi => writesPayload_setPayload hi _

/-! ### Loops over blocks (R184) -/

/-- A block entered with `size` payload bytes left writes the payload alone and advances I by `size`. -/
def PayloadBlock (size : Nat) (block : State → State) : Prop :=
  ∀ s, s.i.toNat + size ≤ s.n → WritesPayload s (block s) ∧ (block s).i.toNat = s.i.toNat + size

/-- The index after a block does not wrap: the payload is shorter than 2^32. -/
theorem toNat_index_add {s : State} {size : Nat} (h : s.i.toNat + size ≤ s.n) :
    (BitVec.ofNat 32 (s.i.toNat + size)).toNat = s.i.toNat + size := by
  have := s.n_lt
  rw [BitVec.toNat_ofNat, Nat.mod_eq_of_lt (by omega)]

/-- A block that stores `size` bytes at I and advances I by as many. -/
theorem payloadBlock_of_store {size : Nat} {block : State → State} {out : State → Nat → Byte}
    (hsame : ∀ s, SameRow s (block s))
    (hmem : ∀ s, (block s).mem = s.mem.writeBytes (s.p + s.i.toNat) (out s) size)
    (hi : ∀ s, (block s).i = BitVec.ofNat 32 (s.i.toNat + size)) : PayloadBlock size block := fun s h =>
  ⟨.store (hsame s) (hmem s) h, by rw [hi, toNat_index_add h]⟩

theorem PayloadBlock.repeatN {size : Nat} {block : State → State} (h : PayloadBlock size block) (count : Nat) :
    PayloadBlock (size * count) (repeatN block count) := fun s hs => by
  refine repeatN_induct (P := fun j r => WritesPayload s r ∧ r.i.toNat = s.i.toNat + size * j) ⟨.refl s, rfl⟩ ?_
  rintro j hj r ⟨hr, hir⟩
  have hle : size * (j + 1) ≤ size * count := Nat.mul_le_mul_left _ hj
  rw [Nat.mul_succ] at hle ⊢
  obtain ⟨hw, hi⟩ := h r (by rw [hr.same.n_eq]; omega)
  exact ⟨hr.trans hw, by omega⟩

theorem PayloadBlock.blocks {size : Nat} {block : State → State} (h : PayloadBlock size block) (s : State) :
    WritesPayload s (blocks size block s) := by
  by_cases hi : s.i.toNat ≤ s.n
  · have := Nat.mul_div_le (s.n - s.i.toNat) size
    exact (h.repeatN _ s (by omega)).1
  · rw [Machine.blocks, Nat.sub_eq_zero_of_le (by omega), Nat.zero_div]
    exact .refl s

theorem payloadBlock_subBlock16 (b : Bpp) : PayloadBlock 16 (subBlock16 b) :=
  payloadBlock_of_store (sameRow_subBlock16 b) (subBlock16_mem b) (subBlock16_i b)

theorem payloadBlock_subBlock64 (b : Bpp) : PayloadBlock 64 (subBlock64 b) := (payloadBlock_subBlock16 b).repeatN 4

theorem payloadBlock_upBlock8 : PayloadBlock 8 upBlock8 :=
  payloadBlock_of_store sameRow_upBlock8 upBlock8_mem upBlock8_i

theorem payloadBlock_avgBlock16 (b : Bpp) : PayloadBlock 16 (avgBlock16 b) :=
  payloadBlock_of_store (sameRow_avgBlock16 b) (avgBlock16_mem b) (avgBlock16_i b)

theorem payloadBlock_paethBlock8 : PayloadBlock 8 paethBlock8 :=
  payloadBlock_of_store sameRow_paethBlock8 paethBlock8_mem paethBlock8_i

theorem payloadBlock_paethBlock16 (b : Bpp) : PayloadBlock 16 (paethBlock16 b) :=
  payloadBlock_of_store (sameRow_paethBlock16 b) (paethBlock16_mem b) (paethBlock16_i b)

theorem writesPayload_upStore16 {r : Nat} {s : State} (h : s.i.toNat + 16 * r + 16 ≤ s.n) :
    WritesPayload s (upStore16 r s) :=
  .store (sameRow_upStore16 r s) (upStore16_mem r s) h

/-- The four stores of a 64-byte UP block leave I to the block's end. -/
theorem payloadBlock_upBlock64 : PayloadBlock 64 upBlock64 := fun s h => by
  have step : ∀ {r t}, r < 4 → WritesPayload s t → t.i = s.i →
      WritesPayload s (upStore16 r t) ∧ (upStore16 r t).i = s.i := fun {r t} hr ht hi =>
    ⟨ht.trans (writesPayload_upStore16 (by rw [hi, ht.same.n_eq]; omega)), (upStore16_i r t).trans hi⟩
  obtain ⟨w0, i0⟩ := step (r := 0) (by decide) (.refl s) rfl
  obtain ⟨w1, i1⟩ := step (r := 1) (by decide) w0 i0
  obtain ⟨w2, i2⟩ := step (r := 2) (by decide) w1 i1
  obtain ⟨w3, i3⟩ := step (r := 3) (by decide) w2 i2
  rw [upBlock64, State.bumpIndex_i, i3, toNat_index_add h]
  exact ⟨w3.trans (.of_mem_eq (sameRow_bumpIndex _ 64) (State.bumpIndex_mem _ 64)), rfl⟩

/-- Setting T0 alone (R39). -/
theorem writesPayload_running (s : State) (t0 : Word) : WritesPayload s { s with t0 := t0 } :=
  .of_mem_eq { SameRow.refl s with } rfl

/-- Setting PZ and UZ alone (R39). -/
theorem writesPayload_rolling (s : State) (pz uz : Word) : WritesPayload s { s with pz := pz, uz := uz } :=
  .of_mem_eq { SameRow.refl s with } rfl

theorem writesPayload_avgWalk {t : V128} {base k : Nat} {s : State} (h : base + k < s.n) :
    WritesPayload s (avgWalk t base k s) :=
  (writesPayload_setPayload h _).trans (writesPayload_running _ _)

theorem writesPayload_seedCarry (b : Bpp) (s : State) : WritesPayload s (s.seedCarry b) :=
  .of_mem_eq (sameRow_seedCarry s b) rfl

theorem writesPayload_avgBlock8 {s : State} (h : s.i.toNat + 8 ≤ s.n) : WritesPayload s (avgBlock8 s) :=
  writesPayload_forUp fun _ _ _ _ _ => writesPayload_avgWalk (by omega)

theorem avgTurn8_i (s : State) : (avgTurn8 s).i = BitVec.ofNat 32 (s.i.toNat + 8) := by
  rw [avgTurn8, State.seedCarry_i, avgBlock8]
  rfl

/-- A turn of the AVG walk (R212): eight payload bytes, then the carries. -/
theorem payloadBlock_avgTurn8 : PayloadBlock 8 avgTurn8 := fun s h =>
  ⟨(writesPayload_avgBlock8 h).trans (writesPayload_seedCarry .b1 _), by rw [avgTurn8_i, toNat_index_add h]⟩

/-! ### The bodies of the SIMD kernel, and its rows (R181) -/

theorem writesPayload_subBody (b : Bpp) (s : State) : WritesPayload s (subBody b s) := by
  rw [subBody]
  split
  · exact ((writesPayload_seedCarry b s).trans ((payloadBlock_subBlock64 b).blocks _)).trans
      ((payloadBlock_subBlock16 b).blocks _)
  · exact .refl s

theorem writesPayload_upBody (s : State) : WritesPayload s (upBody s) :=
  (payloadBlock_upBlock64.blocks s).trans (payloadBlock_upBlock8.blocks _)

theorem writesPayload_avgBody1 (s : State) : WritesPayload s (avgBody1 s) := by
  rw [avgBody1]
  split
  · exact ((writesPayload_seedCarry .b1 s).trans (writesPayload_running _ _)).trans (payloadBlock_avgTurn8.blocks _)
  · exact .refl s

theorem writesPayload_avgBody16 (b : Bpp) (s : State) : WritesPayload s (avgBody16 b s) := by
  rw [avgBody16]
  split
  · exact (writesPayload_seedCarry b s).trans ((payloadBlock_avgBlock16 b).blocks _)
  · exact .refl s

theorem writesPayload_paethRoll {i : Nat} {s : State} (h : i < s.n) : WritesPayload s (paethRoll i s) :=
  (writesPayload_setPayload h _).trans (writesPayload_rolling _ _ _)

theorem writesPayload_paethBody1 (s : State) : WritesPayload s (paethBody1 s) :=
  (writesPayload_rolling s _ _).trans
    (writesPayload_forRange (Nat.le_refl _) fun _ _ hi => writesPayload_paethRoll hi)

theorem writesPayload_paethBody8 (s : State) : WritesPayload s (paethBody8 s) := by
  rw [paethBody8]
  split
  · exact (writesPayload_seedCarry .b3 s).trans (payloadBlock_paethBlock8.blocks _)
  · exact .refl s

theorem writesPayload_paethBody16 (b : Bpp) (s : State) : WritesPayload s (paethBody16 b s) := by
  rw [paethBody16]
  split
  · exact (writesPayload_seedCarry b s).trans ((payloadBlock_paethBlock16 b).blocks _)
  · exact .refl s

/-- A row of the SIMD kernel writes the payload alone when its body does. -/
theorem writesPayload_simdRow {b : Bpp} {body : State → State} {s : State} (f : Filter) (hb : b.toNat ≤ s.n)
    (hbody : ∀ t, WritesPayload t (body t)) : WritesPayload s (simdRow f b body s) := by
  have hset : ∀ (t : State) i, WritesPayload t { t with i := i } := fun t i => .of_mem_eq { SameRow.refl t with } rfl
  have hprologue := writesPayload_scalar (lo := 0) hb f b.toNat
  have hhead := hprologue.trans (writesPayload_scalar (lo := b.toNat)
    (hi := min s.n (b.toNat + alignDiff (s.p + b.toNat) 16)) (by rw [hprologue.same.n_eq]; omega) f b.toNat)
  have htail : ∀ {t}, WritesPayload s t → WritesPayload s (scalar f b.toNat t.i.toNat s.n t) := fun ht =>
    ht.trans (writesPayload_scalar (Nat.le_of_eq ht.same.n_eq.symm) f b.toNat)
  rw [simdRow]
  refine htail ?_
  split
  · exact (hhead.trans (hset _ _)).trans (hbody _)
  · exact hhead.trans (hset _ _)

theorem writesPayload_dropIndex (s : State) : WritesPayload s s.dropIndex :=
  .of_mem_eq (sameRow_dropIndex s) (State.dropIndex_mem s)

theorem writesPayload_dropVectors (s : State) : WritesPayload s s.dropVectors :=
  .of_mem_eq (sameRow_dropVectors s) (State.dropVectors_mem s)

theorem writesPayload_dropCarry (s : State) : WritesPayload s s.dropCarry :=
  .of_mem_eq (sameRow_dropCarry s) (State.dropCarry_mem s)

theorem writesPayload_dropRolling (s : State) : WritesPayload s s.dropRolling :=
  .of_mem_eq (sameRow_dropRolling s) (State.dropRolling_mem s)

theorem writesPayload_dropRunning (s : State) : WritesPayload s s.dropRunning :=
  .of_mem_eq (sameRow_dropRunning s) (State.dropRunning_mem s)

theorem writesPayload_subRow {b : Bpp} {s : State} (hb : b.toNat ≤ s.n) : WritesPayload s (subRow b s) :=
  (((writesPayload_simdRow .sub hb (writesPayload_subBody b)).trans (writesPayload_dropIndex _)).trans
    (writesPayload_dropVectors _)).trans (writesPayload_dropCarry _)

theorem writesPayload_upRow {b : Bpp} {s : State} (hb : b.toNat ≤ s.n) : WritesPayload s (upRow b s) :=
  ((writesPayload_simdRow .up hb writesPayload_upBody).trans (writesPayload_dropIndex _)).trans
    (writesPayload_dropVectors _)

theorem writesPayload_avgRow1 {s : State} (hb : Bpp.b1.toNat ≤ s.n) : WritesPayload s (avgRow1 s) :=
  ((((writesPayload_simdRow .avg hb writesPayload_avgBody1).trans (writesPayload_dropIndex _)).trans
    (writesPayload_dropVectors _)).trans (writesPayload_dropRunning _)).trans (writesPayload_dropCarry _)

theorem writesPayload_avgRowScalar {b : Bpp} {s : State} (hb : b.toNat ≤ s.n) : WritesPayload s (avgRowScalar b s) :=
  (writesPayload_simdRow .avg hb .refl).trans (writesPayload_dropIndex _)

theorem writesPayload_avgRow16 {b : Bpp} {s : State} (hb : b.toNat ≤ s.n) : WritesPayload s (avgRow16 b s) :=
  (((writesPayload_simdRow .avg hb (writesPayload_avgBody16 b)).trans (writesPayload_dropIndex _)).trans
    (writesPayload_dropVectors _)).trans (writesPayload_dropCarry _)

theorem writesPayload_paethRow1 {s : State} (hb : Bpp.b1.toNat ≤ s.n) : WritesPayload s (paethRow1 s) :=
  ((writesPayload_simdRow .paeth hb writesPayload_paethBody1).trans (writesPayload_dropIndex _)).trans
    (writesPayload_dropRolling _)

theorem writesPayload_paethRow2 {s : State} (hb : Bpp.b2.toNat ≤ s.n) : WritesPayload s (paethRow2 s) :=
  (writesPayload_simdRow .paeth hb .refl).trans (writesPayload_dropIndex _)

theorem writesPayload_paethRow3 {s : State} (hb : Bpp.b3.toNat ≤ s.n) : WritesPayload s (paethRow3 s) :=
  (((writesPayload_simdRow .paeth hb writesPayload_paethBody8).trans (writesPayload_dropIndex _)).trans
    (writesPayload_dropVectors _)).trans (writesPayload_dropCarry _)

theorem writesPayload_paethRow16 {b : Bpp} {s : State} (hb : b.toNat ≤ s.n) : WritesPayload s (paethRow16 b s) :=
  (((writesPayload_simdRow .paeth hb (writesPayload_paethBody16 b)).trans (writesPayload_dropIndex _)).trans
    (writesPayload_dropVectors _)).trans (writesPayload_dropCarry _)

/-! ### Every row instruction -/

theorem writesPayload_base {s : State} (f : Filter) (hb : s.bpp.toNat ≤ s.n) :
    WritesPayload s (bodyOf (Instr.base f) s) := by
  cases f with
  | none => exact .refl s
  | sub => exact (writesPayload_addLoop (Nat.le_refl _) _).trans (writesPayload_dropIndex _)
  | up => exact (writesPayload_addLoop (Nat.le_refl _) _).trans (writesPayload_dropIndex _)
  | avg =>
    have hprologue := writesPayload_addLoop (lo := 0) hb fun i s => (s.above i).toNat >>> 1
    exact (hprologue.trans (writesPayload_addLoop (Nat.le_of_eq hprologue.same.n_eq.symm) _)).trans
      (writesPayload_dropIndex _)
  | paeth =>
    have hprologue := writesPayload_addLoop (lo := 0) hb fun i s => (s.above i).toNat
    exact (hprologue.trans (writesPayload_addLoop (Nat.le_of_eq hprologue.same.n_eq.symm) _)).trans
      (writesPayload_dropIndex _)

theorem writesPayload_special {s : State} (f : Filter) {b : Bpp} (hb : b.toNat ≤ s.n) :
    WritesPayload s (bodyOf (Instr.special f b) s) := by
  cases f with
  | none => cases b <;> exact .refl s
  | sub => cases b <;> exact writesPayload_subRow hb
  | up => cases b <;> exact writesPayload_upRow hb
  | avg =>
    cases b with
    | b1 => exact writesPayload_avgRow1 hb
    | b2 | b3 => exact writesPayload_avgRowScalar hb
    | b4 | b6 | b8 => exact writesPayload_avgRow16 hb
  | paeth =>
    cases b with
    | b1 => exact writesPayload_paethRow1 hb
    | b2 => exact writesPayload_paethRow2 hb
    | b3 => exact writesPayload_paethRow3 hb
    | b4 | b6 | b8 => exact writesPayload_paethRow16 hb

/-- A row instruction that answers a next state has written the payload alone and advanced the cursor. -/
theorem exec_writesPayload {i : Instr} {s t : State} (h : exec i s = .next t) :
    ∃ r, WritesPayload s r ∧ t = r.advance := by
  obtain ⟨_, hi⟩ | ⟨b, _, hi⟩ := i.base_or_special
  · rw [hi, exec_base] at h
    obtain ⟨hg, _, ht⟩ := runRow_next h
    obtain ⟨_, hn, _, _⟩ := State.geometry_n hg
    exact ⟨_, writesPayload_base i.filter hn, ht⟩
  · rw [hi, exec_special] at h
    obtain ⟨hm, hg, _, ht⟩ := runSpecial_next h
    obtain ⟨_, hn, _, _⟩ := State.geometry_n hg
    exact ⟨_, writesPayload_special i.filter (by rwa [← (State.mode_bpp hm).1] at hn), ht⟩

end Sys2Proof.Machine
end

section
/-! A running invocation: where its rows lie (10_state.md R26 to R31, R52, R66), and that the row at the cursor can be
executed. -/

namespace Sys2Proof.Machine

/-- An invocation violates none of P1 to P6 (R252) when it meets each of their tests. -/
theorem violation_eq_none_iff {addrW : Nat} {holes : List Region} {v : Invocation} :
    v.violation addrW holes = none ↔
      (Bpp.ofNat? v.bpp.toNat).isNone = false ∧ bplOk v.bpp.toNat v.bpl.toNat = true ∧ 0 < v.h.toNat ∧
      clearOf holes v.buf (v.h.toNat * v.bpl.toNat) = true ∧ v.buf + v.h.toNat * v.bpl.toNat ≤ 2 ^ addrW ∧
      (Kernel.ofBits? v.ksel).isNone = false := by
  rw [Invocation.violation]
  split_ifs <;> simp_all [Nat.pos_iff_ne_zero, Option.isSome_iff_ne_none]

/-- The row parameters have a meaning when the invocation's preconditions are met. -/
theorem State.geometry?_of_wf {s : State} (h : s.invocation.wf s.addrW s.holes) : s.geometry? = none := by
  obtain ⟨hbpp, hbpl, _⟩ := violation_eq_none_iff.1 h
  rw [State.geometry?, if_neg (by rw [show s.bpp = s.invocation.bpp from rfl, hbpp]; decide),
    if_neg (by rw [show s.bpp = s.invocation.bpp from rfl, show s.bpl = s.invocation.bpl from rfl, hbpl]; decide)]

/-- The buffer lies in the address space (P5) clear of its holes (P4), so every part of it can be accessed. -/
theorem State.accessFault_buffer {s : State} (h : s.invocation.wf s.addrW s.holes) {a k : Nat} (ha : s.buf ≤ a)
    (hk : a + k ≤ s.buf + s.h.toNat * s.bpl.toNat) : s.accessFault a k = none := by
  obtain ⟨_, _, _, hclear, hspace, _⟩ := violation_eq_none_iff.1 h
  exact State.accessFault_none.2 ⟨Nat.le_trans hk hspace, clearOf_part hclear ha hk⟩

/-- The buffer ends within the address space (P5). -/
theorem State.buffer_le {s : State} (h : s.invocation.wf s.addrW s.holes) :
    s.buf + s.h.toNat * s.bpl.toNat ≤ 2 ^ s.addrW := by
  obtain ⟨_, _, _, _, hspace, _⟩ := violation_eq_none_iff.1 h
  exact hspace

/-- Row `k` of a buffer of `h` rows ends within it. -/
theorem rows_le {h k : Nat} (bpl : Nat) (hk : k < h) : k * bpl + bpl ≤ h * bpl := by
  rw [← Nat.succ_mul]
  exact Nat.mul_le_mul_right _ hk

namespace State.Running

variable {s : State} (h : s.Running)
include h

/-- Filter byte and payload make a row, of at least two bytes. -/
theorem bpl_eq : s.bpl.toNat = s.n + 1 ∧ 1 ≤ s.n := by
  have := State.geometry_n (State.geometry?_of_wf h.wf)
  omega

/-- The row at the cursor lies in the buffer (R31). -/
theorem row_in_buffer : s.buf + 1 ≤ s.p ∧ s.p + s.n ≤ s.buf + s.h.toNat * s.bpl.toNat := by
  have hrow := rows_le s.bpl.toNat h.row
  have hbpl := h.bpl_eq
  rw [h.cursor]
  omega

/-- The previous row's payload ends at the filter byte of the current row (R52, R66). -/
theorem above_adjacent (hy : s.y ≠ 0#32) : s.buf + 1 ≤ s.u ∧ s.u + s.n + 1 = s.p := by
  have hpos : s.y.toNat ≠ 0 := fun h0 => hy (BitVec.eq_of_toNat_eq h0)
  obtain ⟨k, hk⟩ : ∃ k, s.y.toNat = k + 1 := ⟨s.y.toNat - 1, by omega⟩
  have hbpl := h.bpl_eq
  rw [h.above hy, h.cursor, hk, Nat.add_sub_cancel, Nat.succ_mul]
  omega

theorem footprintFault_none (f : Filter) : s.footprintFault f = none := by
  obtain ⟨hp, hend⟩ := h.row_in_buffer
  refine State.footprintFault_none.2 ⟨fun _ => ?_, fun _ hy => ?_⟩
  · exact State.accessFault_buffer h.wf (by omega) hend
  · obtain ⟨hu, hadj⟩ := h.above_adjacent hy
    exact State.accessFault_buffer h.wf (by omega) (by omega)

theorem rowReady (hmem : s.mem.wf) (f : Filter) : s.RowReady f where
  memWf := hmem
  geometry := State.geometry?_of_wf h.wf
  footprint := h.footprintFault_none f
  apart := by
    by_cases hy : s.y = 0#32
    · exact .inl hy
    · have := h.above_adjacent hy
      exact .inr (by omega)

theorem fetchFault_none : s.fetchFault = none := by
  obtain ⟨hp, hend⟩ := h.row_in_buffer
  have hbpl := h.bpl_eq
  exact State.fetchFault_none.2 ⟨by omega, State.accessFault_buffer h.wf (by omega) (by omega)⟩

end State.Running

/-- Settles O21: the rows of a running invocation lie one after the other in its buffer, which P4 and P5 (R252) make
memory that can be accessed. -/
theorem runningRowIsReady : Obligations.RunningRowIsReady := by
  intro s f hinv hbusy
  have hrun := hinv.running hbusy
  obtain ⟨hp, hend⟩ := hrun.row_in_buffer
  have hspace := State.buffer_le hrun.wf
  have hn := hrun.bpl_eq
  exact ⟨hrun.rowReady hinv.memWf f, hrun.fetchFault_none, by omega, by omega, hend, hrun.above_adjacent⟩

end Sys2Proof.Machine
end

section
/-! The invariant of the machine (10_state.md R26 to R28, R31, R50, R270): at reset, and through every step. -/

namespace Sys2Proof.Machine

/-- A reset state meets the invariant when its memory does: its address registers have the width they hold. -/
theorem inv_resetAt {addrW : Nat} {mem : Memory} (hw : mem.wf) (hb : mem.below (2 ^ addrW)) (holes : List Region)
    (k : Nat) (inputs : List HostInput) (readData : Nat) :
    (State.resetAt addrW holes k mem inputs readData).Inv where
  memWf := hw
  memBelow := hb
  bufBelow := (Config.freeValue addrW .buf k).isLt
  cursorBelow := (Config.freeValue addrW .p k).isLt
  aboveBelow := (Config.freeValue addrW .u k).isLt
  running h := by cases h
  faultRecord h := by cases h

/-- Settles O19: the memory after `State.reset` lists nothing. -/
theorem resetMeetsInvariant : Obligations.ResetMeetsInvariant :=
  inv_resetAt Memory.wf_nil (by simp) [] 0 [] 0

/-- An address register holds a value of its width (log 3). -/
theorem fitAddr_lt (s : State) (site : FreeSite) (a : Nat) : fitAddr s site a < 2 ^ s.addrW := by
  rw [fitAddr]
  split
  · assumption
  · exact (Config.freeValue s.addrW site s.fresh).isLt

/-! ### The engine's step -/

/-- The payload at the cursor lies in the address space. -/
theorem State.Running.payload_end_le {s : State} (h : s.Running) : s.p + s.n ≤ 2 ^ s.addrW :=
  Nat.le_trans h.row_in_buffer.2 (State.buffer_le h.wf)

theorem SameRow.invocation_eq {s t : State} (h : SameRow s t) : t.invocation = s.invocation := by
  rw [State.invocation, State.invocation, h.ksel, h.buf, h.h, h.bpp, h.bpl]

/-- A row that is being reconstructed belongs to the same running invocation. -/
theorem State.Running.of_sameRow {s t : State} (h : s.Running) (hst : SameRow s t) : t.Running where
  busy := hst.status.trans h.busy
  written := by rw [hst.written, h.written]
  wf := by rw [hst.invocation_eq, hst.addrW, hst.holes]; exact h.wf
  row := by rw [hst.y, hst.h]; exact h.row
  cursor := by rw [hst.p, hst.buf, hst.y, hst.bpl]; exact h.cursor
  above := by rw [hst.u, hst.buf, hst.y, hst.bpl]; exact h.above

/-- Where the advanced cursor meets no end of the invocation, it stands at the next row (R131, R132). -/
theorem State.Running.advance {s : State} (h : s.Running) (hbusy : s.advance.status = .busy) : s.advance.Running := by
  have hne : s.y + 1#32 ≠ s.h := fun he => by
    rw [State.advance_status, if_pos he] at hbusy
    cases hbusy
  have hrow := h.row
  have hlt := s.h.isLt
  have hy : (s.y + 1#32).toNat = s.y.toNat + 1 := by
    rw [BitVec.toNat_add, BitVec.toNat_ofNat, Nat.mod_eq_of_lt (by omega)]
  have hnext : s.y.toNat + 1 < s.h.toNat := by
    have : (s.y + 1#32).toNat ≠ s.h.toNat := fun he => hne (BitVec.eq_of_toNat_eq he)
    omega
  have hp : s.p + s.bpl.toNat = s.buf + (s.y.toNat + 1) * s.bpl.toNat + 1 := by
    rw [h.cursor, Nat.succ_mul]
    omega
  have hfit : s.p + s.bpl.toNat < 2 ^ s.addrW := by
    have hrows := rows_le s.bpl.toNat hnext
    have hspace := State.buffer_le h.wf
    have hbpl := h.bpl_eq
    rw [hp]
    omega
  exact
    { busy := hbusy
      written := h.written
      wf := h.wf
      row := by rw [State.advance_y, hy]; exact hnext
      cursor := by rw [State.advance_p, fitAddr, if_pos hfit, State.advance_y, hy]; exact hp
      above := fun _ => by rw [State.advance_u, State.advance_y, hy]; exact h.cursor }

/-- A row keeps the invariant: it writes its payload alone and advances the cursor. -/
theorem State.Inv.row {s r : State} (h : s.Inv) (hbusy : s.status = .busy) (hr : WritesPayload s r) :
    r.advance.Inv := by
  have hrun := h.running hbusy
  have hrun' := hrun.of_sameRow hr.same
  exact
    { memWf := hr.memWf h.memWf
      memBelow := by
        rw [State.advance_addrW, hr.same.addrW]
        exact hr.memBelow _ hrun.payload_end_le h.memBelow
      bufBelow := by
        rw [State.advance_buf, State.advance_addrW, hr.same.buf, hr.same.addrW]
        exact h.bufBelow
      cursorBelow := fitAddr_lt r .p _
      aboveBelow := by
        rw [State.advance_u, State.advance_addrW, hr.same.p, hr.same.addrW]
        exact h.cursorBelow
      running := hrun'.advance
      faultRecord := fun hf => by
        rw [State.advance_status, hrun'.busy] at hf
        split at hf <;> cases hf }

/-- Whether an invocation runs well does not depend on the latch FT and on memory. -/
theorem State.Running.latch_memory {s : State} (h : s.Running) (ft : Byte) (mem : Memory) :
    ({ s with ft := ft, mem := mem } : State).Running :=
  ⟨h.busy, h.written, h.wf, h.row, h.cursor, h.above⟩

/-- Latching the filter byte keeps the invariant. -/
theorem State.Inv.fetch {s : State} (h : s.Inv) : s.fetch.Inv where
  memWf := h.memWf
  memBelow := h.memBelow
  bufBelow := h.bufBelow
  cursorBelow := h.cursorBelow
  aboveBelow := h.aboveBelow
  running hb := (h.running hb).latch_memory _ _
  faultRecord := h.faultRecord

/-- Fault entry records FORMAT (R270, R274). -/
theorem State.Inv.raiseFormat {s : State} (h : s.Inv) (hft : 5 ≤ s.ft.toNat) : s.raiseFormat.Inv where
  memWf := h.memWf
  memBelow := h.memBelow
  bufBelow := h.bufBelow
  cursorBelow := h.cursorBelow
  aboveBelow := h.aboveBelow
  running hb := by cases hb
  faultRecord _ := ⟨rfl, hft⟩

/-- What the engine's step from a BUSY state has done: it has written the payload of the row and advanced the cursor, or
taken the FORMAT fault. -/
theorem engineStep_busy_writes {s t : State} (hb : s.status = .busy) (h : engineStep s = .next t) :
    (∃ r, WritesPayload s.fetch r ∧ t = r.advance) ∨ (5 ≤ s.fetch.ft.toNat ∧ t = s.fetch.raiseFormat) := by
  obtain ⟨_, _, _, ⟨_, _, he⟩ | hr⟩ := engineStep_busy_cases hb h
  · exact .inl (exec_writesPayload he)
  · exact .inr hr

theorem State.Inv.engineStep {s t : State} (h : s.Inv) (hs : engineStep s = .next t) : t.Inv := by
  by_cases hb : s.status = .busy
  · obtain ⟨r, hr, rfl⟩ | ⟨hft, rfl⟩ := engineStep_busy_writes hb hs
    · exact h.fetch.row hb hr
    · exact h.fetch.raiseFormat hft
  · rw [engineStep_stopped hb] at hs
    cases hs
    exact h

/-! ### The host's moves -/

/-- Between invocations the parameter registers may hold anything of their width. -/
theorem State.Inv.parameters {s : State} (h : s.Inv) (hs : s.status ≠ .busy) {buf : Nat} (hbuf : buf < 2 ^ s.addrW)
    (height bpp bpl : Word) (ksel : BitVec 2) (w : Written) :
    ({ s with buf := buf, h := height, bpp := bpp, bpl := bpl, ksel := ksel, written := w } : State).Inv where
  memWf := h.memWf
  memBelow := h.memBelow
  bufBelow := hbuf
  cursorBelow := h.cursorBelow
  aboveBelow := h.aboveBelow
  running hb := absurd hb hs
  faultRecord := h.faultRecord

theorem State.startViolation_eq_none {s : State} (h : s.startViolation = none) :
    s.written.all = true ∧ s.invocation.wf s.addrW s.holes := by
  rw [State.startViolation] at h
  split at h
  · exact ⟨‹_›, h⟩
  · cases h

/-- START leaves an invocation at row 0, whose payload starts one byte into the buffer (R251). -/
theorem running_started {s : State} (h : s.startViolation = none) : s.started.Running := by
  obtain ⟨hwritten, hwf⟩ := State.startViolation_eq_none h
  obtain ⟨_, _, hrows, _⟩ := violation_eq_none_iff.1 hwf
  have hfirst : 0 * s.bpl.toNat + s.bpl.toNat ≤ s.h.toNat * s.bpl.toNat := rows_le _ hrows
  have hn := State.geometry_n (State.geometry?_of_wf hwf)
  have hspace := State.buffer_le hwf
  have hfit : s.buf + 1 < 2 ^ s.addrW := by omega
  exact
    { busy := State.started_status s
      written := by rw [State.started_written]; exact hwritten
      wf := by
        rw [State.invocation, State.started_ksel, State.started_buf, State.started_h, State.started_bpp,
          State.started_bpl, State.started_addrW, State.started_holes]
        exact hwf
      row := by rw [State.started_y, State.started_h]; exact hrows
      cursor := by simp [fitAddr, hfit]
      above := fun hy => absurd (State.started_y s) hy }

theorem State.Inv.started {s : State} (h : s.Inv) (hs : s.startViolation = none) : s.started.Inv where
  memWf := by rw [State.started_mem]; exact h.memWf
  memBelow := by rw [State.started_mem, State.started_addrW]; exact h.memBelow
  bufBelow := by rw [State.started_buf, State.started_addrW]; exact h.bufBelow
  cursorBelow := by rw [State.started_p, State.started_addrW]; exact fitAddr_lt s .p _
  aboveBelow := by rw [State.started_u, State.started_addrW]; exact (Config.freeValue s.addrW .u s.fresh).isLt
  running _ := running_started hs
  faultRecord hf := by rw [State.started_status] at hf; cases hf

theorem State.Inv.writeMem {s : State} (h : s.Inv) {a : Nat} (ha : s.accessFault a 1 = none) (b : Byte) :
    ({ s with mem := s.mem.write a b } : State).Inv where
  memWf := Memory.wf_write h.memWf a b
  memBelow := Memory.below_write h.memBelow (State.accessFault_none.1 ha).1 b
  bufBelow := h.bufBelow
  cursorBelow := h.cursorBelow
  aboveBelow := h.aboveBelow
  running hb := (h.running hb).latch_memory _ _
  faultRecord := h.faultRecord

/-- A reset scrambles bytes of the buffer alone, and those of a running invocation's buffer have an address (R292). -/
theorem State.Inv.resetMove {s : State} (h : s.Inv) : s.resetMove.Inv := by
  have hmem : s.memAfterReset.wf ∧ s.memAfterReset.below (2 ^ s.addrW) := by
    rw [State.memAfterReset]
    split
    · rename_i hb
      exact ⟨(read_scramblePayload h.memWf _ _ _ _ 0).1,
        below_scramblePayload h.memBelow (State.buffer_le (h.running hb).wf) _ _⟩
    · exact ⟨h.memWf, h.memBelow⟩
  exact inv_resetAt hmem.1 hmem.2 _ _ _ _

theorem State.Inv.hostWrite {s t : State} {r : HostReg} {x : Nat} (h : s.Inv) (hs : hostWrite r x s = .next t) :
    t.Inv := by
  obtain ⟨hb, ⟨hx, rfl⟩ | ⟨_, rfl⟩ | ⟨_, rfl⟩ | ⟨_, rfl⟩ | ⟨_, rfl⟩ | rfl | ⟨hv, rfl⟩⟩ := hostWrite_cases hs
  · exact h.parameters hb hx _ _ _ _ _
  · exact h.parameters hb h.bufBelow _ _ _ _ _
  · exact h.parameters hb h.bufBelow _ _ _ _ _
  · exact h.parameters hb h.bufBelow _ _ _ _ _
  · exact h.parameters hb h.bufBelow _ _ _ _ _
  · exact h
  · exact h.started hv

theorem State.Inv.hostMove {s t : State} {v : HostMove} (h : s.Inv) (hs : hostMove v s = .next t) : t.Inv := by
  obtain ⟨_, _, _, _, hw⟩ | ⟨_, _, rfl⟩ | ⟨_, _, _, ha, _, rfl⟩ | ⟨_, _, _, rfl⟩ | ⟨_, rfl⟩ := hostMove_cases hs
  · exact h.hostWrite hw
  · exact h.polled _ _ _
  · exact h.writeMem ha _
  · exact h.polled _ _ _
  · exact h.resetMove

/-- Settles O20: a step is a move of the host or a step of the engine, and each keeps the invariant. -/
theorem stepKeepsInvariant : Obligations.StepKeepsInvariant := by
  intro s t hinv hs
  obtain ⟨v, rest, hdue⟩ | hnone := s.due_or_not
  · rw [step_due hdue] at hs
    exact (hinv.polled rest s.readData s.fresh).hostMove hs
  · rw [step_noMoveDue hnone] at hs
    exact (hinv.polled (tick s.inputs) s.readData s.fresh).engineStep hs

/-! ### What a step of a running invocation writes -/

/-- No filter byte stands in a row's payload (R63). -/
theorem State.Running.filter_outside_payload {s : State} (h : s.Running) (y : Nat) :
    ¬(s.p ≤ s.buf + y * s.bpl.toNat ∧ s.buf + y * s.bpl.toNat < s.p + s.n) := by
  have hbpl := h.bpl_eq
  rw [h.cursor]
  rcases Nat.lt_or_ge s.y.toNat y with hlt | hle
  · have := rows_le s.bpl.toNat hlt
    omega
  · have := Nat.mul_le_mul_right s.bpl.toNat hle
    omega

/-- The system's memory map and the parameter registers hold what they held (R44). -/
abbrev ParametersKept (s t : State) : Prop :=
  t.addrW = s.addrW ∧ t.holes = s.holes ∧ t.buf = s.buf ∧ t.h = s.h ∧ t.bpp = s.bpp ∧ t.bpl = s.bpl ∧
    t.ksel = s.ksel ∧ t.written = s.written

theorem RowFrame.parametersKept {s t : State} (h : RowFrame s t) : ParametersKept s t :=
  ⟨h.addrW, h.holes, h.buf, h.h, h.bpp, h.bpl, h.ksel, h.written⟩

/-- A row writes its payload alone; the FORMAT fault writes no memory (R274). -/
theorem engineStep_busy_frame {s t : State} (hb : s.status = .busy) (h : engineStep s = .next t) :
    OutsidePayloadKept s t ∧ ParametersKept s t := by
  obtain ⟨r, hr, rfl⟩ | ⟨_, rfl⟩ := engineStep_busy_writes hb h
  · exact ⟨hr.outside, (rowFrame_advance hr.same).parametersKept⟩
  · exact ⟨fun _ _ => rfl, rfl, rfl, rfl, rfl, rfl, rfl, rfl, rfl⟩

/-- Settles O23: the engine's step keeps what is outside the payload, where the filter bytes are. -/
theorem stepWritesCurrentPayloadOnly : Obligations.StepWritesCurrentPayloadOnly := by
  intro s t hinv hbusy hnone hs
  rw [step_noMoveDue hnone] at hs
  obtain ⟨houtside, hkept⟩ := engineStep_busy_frame (s := s.tick) hbusy hs
  have hfilter := (hinv.running hbusy).filter_outside_payload
  exact ⟨houtside, fun y _ => houtside _ (hfilter y), hkept⟩

end Sys2Proof.Machine
end

section
/-! The stopped engine, and the host's register and memory moves (10_state.md R21, R33 to R35, R41, R43, R50). -/

namespace Sys2Proof.Machine

/-- Settles O8: the engine's step while stopped is no step, and the host's next move comes nearer. -/
theorem stoppedEngineKeepsState : Obligations.StoppedEngineKeepsState := by
  intro s hs hnone
  rw [step_noMoveDue hnone]
  exact engineStep_stopped hs

/-- START with a parameter register unwritten is refused by P7 (R252). -/
theorem hostMove_start_unwritten {s : State} (hs : s.status ≠ .busy) (hw : s.written.all = false) :
    hostMove (.writeReg .ctrl 1) s = .refused (.precondition .p7) := by
  have hv : s.startViolation = some .p7 := by rw [State.startViolation, hw]; rfl
  rw [hostMove, hostWrite, if_neg hs, if_neg (by decide), if_pos rfl, State.start, hv]

/-- Settles O9: the values reset gives, and no parameter register among them counts as written. -/
theorem resetLeavesIdle : Obligations.ResetLeavesIdle :=
  ⟨rfl, rfl, rfl, rfl, rfl, hostMove_start_unwritten (by decide) rfl⟩

/-! ### Register writes while not BUSY (R21, R33) -/

section

variable {s : State} (hs : s.status ≠ .busy) (x : Nat)
include hs

theorem hostMove_writeReg_buf : hostMove (.writeReg .buf x) s =
    if x < 2 ^ s.addrW then .next { s with buf := x, written := { s.written with buf := true } }
    else .refused .valueTooWide := by rw [hostMove, hostWrite, if_neg hs]

theorem hostMove_writeReg_h : hostMove (.writeReg .h x) s =
    if x < 2 ^ 32 then .next { s with h := BitVec.ofNat 32 x, written := { s.written with h := true } }
    else .refused .valueTooWide := by rw [hostMove, hostWrite, if_neg hs]

theorem hostMove_writeReg_bpp : hostMove (.writeReg .bpp x) s =
    if x < 2 ^ 32 then .next { s with bpp := BitVec.ofNat 32 x, written := { s.written with bpp := true } }
    else .refused .valueTooWide := by rw [hostMove, hostWrite, if_neg hs]

theorem hostMove_writeReg_bpl : hostMove (.writeReg .bpl x) s =
    if x < 2 ^ 32 then .next { s with bpl := BitVec.ofNat 32 x, written := { s.written with bpl := true } }
    else .refused .valueTooWide := by rw [hostMove, hostWrite, if_neg hs]

theorem hostMove_writeReg_ksel : hostMove (.writeReg .ksel x) s =
    if x < 4 then .next { s with ksel := BitVec.ofNat 2 x, written := { s.written with ksel := true } }
    else .refused .valueTooWide := by rw [hostMove, hostWrite, if_neg hs]

theorem hostMove_writeReg_ctrl : hostMove (.writeReg .ctrl x) s =
    if x = 0 then .next s else if x = 1 then s.start else .refused .reservedCtrlBits := by
  rw [hostMove, hostWrite, if_neg hs]

theorem hostMove_writeReg_readOnly {r : HostReg} (hr : r = .status ∨ r = .fcause ∨ r = .frow ∨ r = .fbyte) :
    hostMove (.writeReg r x) s = .refused .readOnlyRegister := by
  rcases hr with rfl | rfl | rfl | rfl <;> rw [hostMove, hostWrite, if_neg hs]

end

/-- Settles O13: each register's own test of the value decides between holding it and the refusal. -/
theorem registerWriteIsHeldOrRefused : Obligations.RegisterWriteIsHeldOrRefused := by
  intro s x hs
  refine ⟨fun hx => ?buf, fun hx => ?h, fun hx => ?bpp, fun hx => ?bpl, fun hx => ?ksel, ?zero, fun hx => ?reserved,
    fun _ hr => hostMove_writeReg_readOnly hs x hr, fun hx => ?wideBuf, fun hx r hr => ?wideWord, fun hx => ?wideKsel⟩
  case buf => rw [hostMove_writeReg_buf hs, if_pos hx]
  case h => exact ⟨_, (hostMove_writeReg_h hs x).trans (if_pos hx), Nat.mod_eq_of_lt hx, rfl⟩
  case bpp => exact ⟨_, (hostMove_writeReg_bpp hs x).trans (if_pos hx), Nat.mod_eq_of_lt hx, rfl⟩
  case bpl => exact ⟨_, (hostMove_writeReg_bpl hs x).trans (if_pos hx), Nat.mod_eq_of_lt hx, rfl⟩
  case ksel => exact ⟨_, (hostMove_writeReg_ksel hs x).trans (if_pos hx), Nat.mod_eq_of_lt hx, rfl⟩
  case zero => rw [hostMove_writeReg_ctrl hs, if_pos rfl]
  case reserved => rw [hostMove_writeReg_ctrl hs, if_neg (by omega), if_neg (by omega)]
  case wideBuf => rw [hostMove_writeReg_buf hs, if_neg (by omega)]
  case wideWord =>
    rcases hr with rfl | rfl | rfl
    · rw [hostMove_writeReg_h hs, if_neg (by omega)]
    · rw [hostMove_writeReg_bpp hs, if_neg (by omega)]
    · rw [hostMove_writeReg_bpl hs, if_neg (by omega)]
  case wideKsel => rw [hostMove_writeReg_ksel hs, if_neg (by omega)]

/-! ### Register reads (R21, R34, R35) -/

/-- A read that R21 allows answers the register's value and changes nothing but the host's own record. -/
theorem hostMove_readReg {r : HostReg} {s : State} {x : Nat} (hr : r.isParameter = true → s.status ≠ .busy)
    (hx : regValue r s = x) :
    ∃ t, hostMove (.readReg r) s = .next t ∧ t.readData = x ∧
      t = { s with readData := t.readData, fresh := t.fresh } := by
  refine ⟨{ s with readData := regValue r s, fresh := s.fresh + 1 }, ?_, hx, rfl⟩
  rw [hostMove, hostRead, if_neg]
  simpa using hr

/-- Settles O14: what a register that holds a value answers is that value. -/
theorem registerReadAnswersValue : Obligations.RegisterReadAnswersValue := by
  intro s
  refine ⟨?status, fun hf => ⟨?fcause, ?frow, ?fbyte⟩,
    fun hs => ⟨fun hw => ?buf, fun hw => ?h, fun hw => ?bpp, fun hw => ?bpl, fun hw => ?ksel⟩⟩
  case status =>
    refine hostMove_readReg (fun h => by cases h) ?_
    rw [regValue]
    cases s.status <;> rfl
  case fcause => exact hostMove_readReg (fun h => by cases h) (if_pos hf)
  case frow => exact hostMove_readReg (fun h => by cases h) (if_pos hf)
  case fbyte => exact hostMove_readReg (fun h => by cases h) (if_pos hf)
  case buf => exact hostMove_readReg (fun _ => hs) (if_pos hw)
  case h => exact hostMove_readReg (fun _ => hs) (if_pos hw)
  case bpp => exact hostMove_readReg (fun _ => hs) (if_pos hw)
  case bpl => exact hostMove_readReg (fun _ => hs) (if_pos hw)
  case ksel => exact hostMove_readReg (fun _ => hs) (if_pos hw)

/-! ### The host's accesses to memory between invocations (R41, R50) -/

/-- A byte can be accessed where it is an address of the space and in no hole. -/
theorem State.accessFault_byte {s : State} {a : Nat} (ha : a < 2 ^ s.addrW)
    (hholes : ∀ r ∈ s.holes, ¬(r.base ≤ a ∧ a < r.base + r.size)) : s.accessFault a 1 = none :=
  State.accessFault_none.2 ⟨ha, clearOf_iff.2 fun x h1 h2 r hr => by
    obtain rfl : x = a := by omega
    exact hholes r hr⟩

theorem State.accessFault_outside {s : State} {a : Nat} (ha : 2 ^ s.addrW ≤ a) :
    s.accessFault a 1 = some .outsideAddressSpace := if_pos (Nat.lt_succ_of_le ha)

theorem State.accessFault_hole {s : State} {a : Nat} (ha : a < 2 ^ s.addrW)
    (hhole : ∃ r ∈ s.holes, r.base ≤ a ∧ a < r.base + r.size) : s.accessFault a 1 = some .noOrdinaryMemory := by
  obtain ⟨r, hr, hin⟩ := hhole
  have hclear : ¬clearOf s.holes a 1 = true := fun h => clearOf_iff.1 h a (Nat.le_refl a) (Nat.lt_succ_self a) r hr hin
  rw [State.accessFault, if_neg (by omega), if_neg hclear]

theorem hostMem_stopped {s : State} {a : Nat} (hs : s.status ≠ .busy) (t : State) (ha : s.accessFault a 1 = none) :
    hostMem a s t = .next t := by
  rw [hostMem, if_neg (by simp [hs]), ha]

theorem hostMem_fault {s : State} {a : Nat} {e : Fault} (hs : s.status ≠ .busy) (t : State)
    (ha : s.accessFault a 1 = some e) : hostMem a s t = .fault e := by
  rw [hostMem, if_neg (by simp [hs]), ha]

/-- Settles O18: the access test has three outcomes, and a write in canonical memory is read back. -/
theorem hostMemoryWriteReadsBack : Obligations.HostMemoryWriteReadsBack := by
  intro s a b hmem hs
  refine ⟨fun ha hholes => ?_, fun ha => ?_, fun ha hhole => ?_⟩
  · have hacc := State.accessFault_byte ha hholes
    refine ⟨{ s with mem := s.mem.write a b }, _, hostMem_stopped hs _ hacc, hostMem_stopped hs _ hacc, ?_, rfl,
      fun x hx => Memory.read_write_ne b hx, rfl⟩
    exact congrArg BitVec.toNat (Memory.read_write_same hmem a b)
  · exact ⟨hostMem_fault hs _ (State.accessFault_outside ha), hostMem_fault hs _ (State.accessFault_outside ha)⟩
  · exact ⟨hostMem_fault hs _ (State.accessFault_hole ha hhole), hostMem_fault hs _ (State.accessFault_hole ha hhole)⟩

end Sys2Proof.Machine
end

section
/-! The host's moves that a running invocation refuses (20_memory.md R60; R21, R258, R304). -/

namespace Sys2Proof.Machine

theorem State.inBuffer_iff {s : State} {a : Nat} :
    s.inBuffer a = true ↔ s.buf ≤ a ∧ a < s.buf + s.h.toNat * s.bpl.toNat := by
  rw [State.inBuffer, Bool.and_eq_true, decide_eq_true_iff, decide_eq_true_iff]

section

variable {s : State} (hs : s.status = .busy)
include hs

theorem hostWrite_busy (r : HostReg) (x : Nat) : hostWrite r x s = .refused .hostMoveWhileBusy := by
  rw [hostWrite.eq_def, if_pos hs]

theorem hostRead_busy {r : HostReg} (hr : r.isParameter = true) : hostRead r s = .refused .hostMoveWhileBusy := by
  rw [hostRead, if_pos (by simp [hr, hs])]

/-- The refusal comes before the access test, and whatever the access would do. -/
theorem hostMem_busy {a : Nat} (ha : s.inBuffer a = true) (t : State) :
    hostMem a s t = .refused .hostMoveWhileBusy := by
  rw [hostMem, if_pos (by simp [ha, hs])]

end

/-- Settles O15: each kind of move tests for BUSY before anything else it tests. -/
theorem busyHostMovesRefused : Obligations.BusyHostMovesRefused := by
  intro s hs
  refine ⟨hostWrite_busy hs, fun r hr => hostRead_busy hs ?parameter, fun a hlow hhigh => ?buffer⟩
  case parameter => rcases hr with rfl | rfl | rfl | rfl | rfl <;> rfl
  case buffer =>
    have ha : s.inBuffer a = true := State.inBuffer_iff.2 ⟨hlow, hhigh⟩
    exact ⟨hostMem_busy hs ha _, fun _ => hostMem_busy hs ha _⟩

end Sys2Proof.Machine
end

section
/-! The coding of rows (30_encoding.md): what decodes, and the instruction that an opcode byte and a mode select. -/

namespace Sys2Proof

theorem Row.wf_iff {m : Mode} {bpl : Nat} {r : Row} :
    r.wf m bpl = true ↔ r.op.wf m = true ∧ bplOk m.bpp.toNat bpl = true ∧ r.payload.length + 1 = bpl := by
  rw [Row.wf, Bool.and_eq_true, Bool.and_eq_true, beq_iff_eq, and_assoc]

/-- What the decoder accepts: an opcode byte the mode has an instruction for, an allowed row length, and as many bytes
(R80, R83). -/
theorem decode_cons_eq_ok_iff {m : Mode} {bpl : Nat} {ft : Byte} {bytes : List Byte} {r : Row} {rest : List Byte} :
    decode m bpl (ft :: bytes) = .ok (r, rest) ↔
      decodeOpcode m ft = .ok r.op ∧ bplOk m.bpp.toNat bpl = true ∧ bpl ≤ bytes.length + 1 ∧
      bytes.take (bpl - 1) = r.payload ∧ bytes.drop (bpl - 1) = rest := by
  obtain ⟨op, payload⟩ := r
  rw [decode]
  cases hop : decodeOpcode m ft with
  | error e => simp
  | ok i =>
    cases hlen : bplOk m.bpp.toNat bpl with
    | false => simp
    | true =>
      by_cases hshort : bytes.length + 1 < bpl
      · simp [hshort, Nat.not_le.2 hshort]
      · simp [hshort, Nat.not_lt.1 hshort, and_assoc]

theorem decode_reserved {m : Mode} {ft : Byte} (h : 5 ≤ ft.toNat) (bpl : Nat) (bytes : List Byte) :
    decode m bpl (ft :: bytes) = .error (.reservedOpcode ft) := by
  rw [decode, decodeOpcode_reserved h]

/-- An instruction of the mode is what its own opcode byte selects (R86, R89). -/
theorem decodeOpcode_opcode {m : Mode} {i : Instr} (h : i.wf m = true) : decodeOpcode m i.opcode = .ok i := by
  rw [Instr.opcode, decodeOpcode_ok (Filter.ofByte?_toByte i.filter), Instr.select_of_wf h]

/-- An opcode byte selects an instruction of the mode, and it is that instruction's opcode byte. -/
theorem decodeOpcode_eq_ok {m : Mode} {ft : Byte} {i : Instr} (h : decodeOpcode m ft = .ok i) :
    i.wf m = true ∧ i.opcode = ft := by
  rw [decodeOpcode] at h
  cases hf : Filter.ofByte? ft with
  | none => rw [hf] at h; cases h
  | some f =>
    rw [hf] at h
    cases h
    exact ⟨Instr.wf_select m f, by rw [Instr.opcode, Instr.filter_select, Filter.toByte_of_ofByte? hf]⟩

/-- Settles O1: a well-formed row passes each test of the decoder, and its length is where the decoder cuts. -/
theorem rowRoundTrip : Obligations.RowRoundTrip := by
  intro m bpl r rest hwf
  obtain ⟨hop, hbpl, hlen⟩ := Row.wf_iff.1 hwf
  have hcut : bpl - 1 = r.payload.length := by omega
  rw [encode, List.cons_append, decode_cons_eq_ok_iff, hcut]
  refine ⟨decodeOpcode_opcode hop, hbpl, ?_, List.take_left, List.drop_left⟩
  rw [List.length_append]
  omega

/-- Settles O2: the opcode byte is that of the decoded instruction, and the cut loses no byte. -/
theorem decodedRowReencodes : Obligations.DecodedRowReencodes := by
  intro m bpl bytes r rest h
  cases bytes with
  | nil => cases h
  | cons ft bytes =>
    obtain ⟨hop, hbpl, hlen, hpayload, hrest⟩ := decode_cons_eq_ok_iff.1 h
    obtain ⟨hwf, hft⟩ := decodeOpcode_eq_ok hop
    refine ⟨Row.wf_iff.2 ⟨hwf, hbpl, ?length⟩, ?bytes⟩
    case length =>
      have := (bplOk_iff.1 hbpl).1
      rw [← hpayload, List.length_take]
      omega
    case bytes => rw [encode, hft, List.cons_append, ← hpayload, ← hrest, List.take_append_drop]

/-- Settles O3: the opcode byte of each filter selects it in every mode, and the bytes from 5 on are no filter's. -/
theorem opcodeByteDecides : Obligations.OpcodeByteDecides := by
  intro m b
  have hselect : ∀ f : Filter, b = f.toByte → decodeOpcode m b = .ok (Instr.select m f) := fun f hb => by
    rw [hb, decodeOpcode_ok (Filter.ofByte?_toByte f)]
  exact ⟨hselect .none, hselect .sub, hselect .up, hselect .avg, hselect .paeth, decodeOpcode_reserved⟩

theorem Instr.select_of_ne_simd {m : Mode} (h : m.kernel ≠ .simd) (f : Filter) : Instr.select m f = Instr.base f := by
  obtain ⟨k, b⟩ := m
  cases k with
  | ref => rfl
  | opt => rfl
  | simd => exact absurd rfl h

/-- Filter and bytes per pixel can be read off a specialization. -/
theorem Instr.special_inj {f f' : Filter} {b b' : Bpp} (h : Instr.special f b = Instr.special f' b') :
    b = b' ∧ f = f' := by
  have hbpp := congrArg Instr.bpp? h
  have hfilter := congrArg Instr.filter h
  rw [Instr.bpp?_special, Instr.bpp?_special] at hbpp
  rw [Instr.filter_special, Instr.filter_special] at hfilter
  exact ⟨Option.some.inj hbpp, hfilter⟩

/-- Settles O4: the mode selects a base row or a specialization, and a specialization says which one it is. -/
theorem modeSelectsInstruction : Obligations.ModeSelectsInstruction :=
  ⟨fun _ f hm => Instr.select_of_ne_simd hm f, fun b f => ⟨Instr.filter_special f b, Instr.bpp?_special f b⟩,
    fun _ _ _ _ h => Instr.special_inj h⟩

/-- Settles O5: each of the three rows is well formed in its mode, and 0x81 is a reserved opcode. -/
theorem specRowsDecode : Obligations.SpecRowsDecode :=
  ⟨rowRoundTrip ⟨.ref, .b1⟩ 5 ⟨.sub, [10, 20, 30, 40]⟩ [] (by decide),
    rowRoundTrip ⟨.opt, .b2⟩ 7 ⟨.up, [10, 20, 30, 40, 50, 60]⟩ [] (by decide),
    rowRoundTrip ⟨.simd, .b3⟩ 7 ⟨.paethV3, [1, 1, 1, 1, 1, 1]⟩ [] (by decide),
    decode_reserved (by decide) 2 [0]⟩

end Sys2Proof
end

section
/-! When a row instruction stops (30_encoding.md R89; R252, R50; logs 15 and 16): the tests of the shared operation, one
outcome each. -/

namespace Sys2Proof.Machine

/-- A base row runs in every mode. -/
theorem runsIn_base (s : State) (f : Filter) : s.RunsIn (Instr.base f) := fun b hb => by
  rw [Instr.bpp?_base] at hb
  cases hb

/-- A specialization runs in its own mode alone. -/
theorem runsIn_special_iff {s : State} {f : Filter} {b : Bpp} :
    s.RunsIn (Instr.special f b) ↔ s.mode = some ⟨.simd, b⟩ := by
  rw [State.RunsIn, Instr.bpp?_special]
  exact ⟨fun h => h b rfl, fun h b' hb => by cases hb; exact h⟩

theorem exec_of_runsIn {i : Instr} {s : State} (h : s.RunsIn i) : exec i s = runRow i.filter (bodyOf i) s := by
  obtain ⟨_, hi⟩ | ⟨b, _, hi⟩ := i.base_or_special
  · rw [hi, exec_base, Instr.filter_base]
  · rw [hi] at h
    rw [hi, exec_special, Instr.filter_special, runSpecial, if_pos (runsIn_special_iff.1 h)]

theorem exec_of_not_runsIn {i : Instr} {s : State} (h : ¬s.RunsIn i) : exec i s = .refused .wrongMode := by
  obtain ⟨_, hi⟩ | ⟨b, _, hi⟩ := i.base_or_special
  · rw [hi] at h
    exact absurd (runsIn_base s i.filter) h
  · rw [hi] at h
    rw [hi, exec_special, runSpecial, if_neg fun hm => h (runsIn_special_iff.2 hm)]

section

variable {s : State} {f : Filter} (body : State → State)

theorem runRow_refused {q : Precondition} (h : s.geometry? = some q) :
    runRow f body s = .refused (.precondition q) := by rw [runRow, h]

theorem runRow_fault {e : Fault} (hg : s.geometry? = none) (hf : s.footprintFault f = some e) :
    runRow f body s = .fault e := by
  rw [runRow, hg]
  simp only [hf]

theorem runRow_completes (hg : s.geometry? = none) (hf : s.footprintFault f = none) :
    runRow f body s = .next (body s).advance := by
  rw [runRow, hg]
  simp only [hf]

end

/-- Settles O60: a row in its mode is the shared operation, whose tests come in the statement's order. -/
theorem rowStopsExactlyWhen : Obligations.RowStopsExactlyWhen := by
  intro i s
  refine ⟨exec_of_not_runsIn, fun hrun q hg => ?precondition, fun hrun hg e hf => ?access,
    fun hrun hg hf => ?completes⟩
  case precondition => rw [exec_of_runsIn hrun, runRow_refused _ hg]
  case access => rw [exec_of_runsIn hrun, runRow_fault _ hg hf]
  case completes => exact ⟨_, by rw [exec_of_runsIn hrun, runRow_completes _ hg hf]⟩

end Sys2Proof.Machine
end

section
/-! The byte primitives and the predictor (40_primitives.md R101 to R106): the third and the mean as quotients, and one
selection by thirds of the interval that both forms of the predictor compute. -/

namespace Sys2Proof.Machine

/-! ### The third and the mean -/

theorem udiv3_eq_div {x : Nat} (h : x ≤ 511) : udiv3 x = x / 3 := by
  rw [udiv3, Nat.shiftRight_eq_div_pow]
  omega

theorem avg_eq_div (a b : Nat) : avg a b = (a + b) / 2 := by rw [avg, Nat.shiftRight_one]

theorem avg_comm (a b : Nat) : avg a b = avg b a := by rw [avg, avg, Nat.add_comm]

/-- The factor `0x5580` is `0xAB` shifted left by 7, which the 16 places of the high half undo beyond the 9 of R102. -/
theorem mul_5580_shiftRight (x : Nat) : (x * 0x5580) >>> 16 = udiv3 x := by
  rw [udiv3, Nat.shiftRight_eq_div_pow, Nat.shiftRight_eq_div_pow]
  omega

/-- Every lane of the multiply-high by `0x5580` is the total formula of R102, also beyond byte range. -/
theorem toNat_lane16_vmulhuw_k5580 (x : V128) {k : Nat} (hk : k < 8) :
    (lane16 (vmulhuw x k5580) k).toNat = udiv3 (lane16 x k).toNat := by
  have hlt : udiv3 (lane16 x k).toNat < 2 ^ 16 := by
    rw [udiv3, Nat.shiftRight_eq_div_pow]
    omega
  rw [lane16_vmulhuw _ _ hk, lane16_k5580 hk, BitVec.toNat_ofNat,
    show (0x5580#16).toNat = 0x5580 from rfl, mul_5580_shiftRight, Nat.mod_eq_of_lt hlt]

/-- Settles O28: the formula is the quotient up to 511, which is at most 85 on bytes, and 512 is computed. -/
theorem udivIsThird : Obligations.UdivIsThird := by
  refine ⟨fun x hx => udiv3_eq_div hx, fun x hx => ?_, by decide⟩
  rw [udiv3_eq_div (by omega)]
  omega

/-- Settles O29: the mean is a quotient by 2, of a sum that does not depend on the order. -/
theorem avgIsFloorMean : Obligations.AvgIsFloorMean := by
  intro a b ha hb
  refine ⟨?notRoundedUp, ?floor, ?byte, avg_comm a b, ?zeroLeft, ?zeroRight⟩ <;> rw [avg_eq_div] <;> omega

/-- Settles O36: the lane is the formula of R102, which is the quotient on bytes. -/
theorem vectorThirdIsExact : Obligations.VectorThirdIsExact := by
  intro x k hk hx
  have h := toNat_lane16_vmulhuw_k5580 x hk
  exact ⟨h, h.trans (udiv3_eq_div (by omega))⟩

/-! ### The sign masks (R105 steps 3 and 4) -/

/-- The arithmetic shift by 31 leaves -1 of a negative word and 0 of any other. -/
theorem nonNegMask32_eq {v : Int} (h1 : -2 ^ 31 ≤ v) (h2 : v < 2 ^ 31) :
    nonNegMask32 v = if 0 ≤ v then BitVec.allOnes 32 else 0#32 := by
  have hshift : ((BitVec.ofInt 32 v).sshiftRight 31).toInt = v / 2 ^ 31 := by
    rw [BitVec.toInt_sshiftRight, BitVec.toInt_ofInt_eq_self (by decide) h1 h2, Int.shiftRight_eq_div_pow]
    rfl
  rw [nonNegMask32]
  split
  · have hzero : (BitVec.ofInt 32 v).sshiftRight 31 = 0#32 :=
      BitVec.eq_of_toInt_eq (hshift.trans (show v / 2 ^ 31 = 0 by omega))
    rw [hzero, BitVec.not_zero]
  · have hones : (BitVec.ofInt 32 v).sshiftRight 31 = BitVec.allOnes 32 :=
      BitVec.eq_of_toInt_eq (hshift.trans (show v / 2 ^ 31 = -1 by omega))
    rw [hones, BitVec.not_allOnes]

/-- A mask passes the word or puts 0 in its place. -/
theorem ofInt_and_nonNegMask32 (x : Int) {v : Int} (h1 : -2 ^ 31 ≤ v) (h2 : v < 2 ^ 31) :
    BitVec.ofInt 32 x &&& nonNegMask32 v = BitVec.ofInt 32 (if 0 ≤ v then x else 0) := by
  rw [nonNegMask32_eq h1 h2]
  split
  · exact BitVec.and_allOnes
  · exact BitVec.and_zero

/-! ### The predictor selects by thirds -/

/-- The value the predictor selects, by where `c` stands in the interval of `a` and `b`: the upper end in the lower third
and below, the lower end in the upper third and above, `c` itself between them. -/
def paethSelect (a b c : Nat) : Nat :=
  if c ≤ min a b + (max a b - min a b) / 3 then max a b
  else if max a b ≤ c + (max a b - min a b) / 3 then min a b
  else c

theorem paethSelect_hi {a b c : Nat} (h : c ≤ min a b + (max a b - min a b) / 3) : paethSelect a b c = max a b :=
  if_pos h

/-- Where both outer thirds hold `c`, the interval has one point and the two ends are equal. -/
theorem paethSelect_lo {a b c : Nat} (h : max a b ≤ c + (max a b - min a b) / 3) : paethSelect a b c = min a b := by
  rw [paethSelect]
  split
  · omega
  · rfl

theorem paethSelect_mid {a b c : Nat} (h1 : min a b + (max a b - min a b) / 3 < c)
    (h2 : c + (max a b - min a b) / 3 < max a b) : paethSelect a b c = c := by
  rw [paethSelect, if_neg (by omega), if_neg (by omega)]

theorem paethSelect_comm (a b c : Nat) : paethSelect a b c = paethSelect b a c := by
  rw [paethSelect, paethSelect, Nat.max_comm, Nat.min_comm]

theorem paethSelect_mem (a b c : Nat) :
    paethSelect a b c = a ∨ paethSelect a b c = b ∨ paethSelect a b c = c := by
  rw [paethSelect]
  split
  · omega
  · split <;> omega

theorem paethSelect_zero_left (b : Nat) : paethSelect 0 b 0 = b := by
  rw [paethSelect_hi (Nat.zero_le _), Nat.zero_max]

theorem paethSelect_self (a c : Nat) : paethSelect a a c = a := by
  obtain h | h := Nat.le_total c a
  · rw [paethSelect_hi (by omega), Nat.max_self]
  · rw [paethSelect_lo (by omega), Nat.min_self]

/-- Above-left equal to above: `c` is an end of the interval, and the other end is selected. -/
theorem paethSelect_eq_left (a b : Nat) : paethSelect a b b = a := by
  obtain h | h := Nat.le_total b a
  · rw [paethSelect_hi (by omega), Nat.max_eq_left h]
  · rw [paethSelect_lo (by omega), Nat.min_eq_left h]

/-- The canonical predictor compares the distances from `a + b - c`, which is as far from `a` as `c` is from `b`: the
nearest of the three is an end of the interval exactly where `c` lies in or beyond the other end's third. -/
theorem paethRef_eq_paethSelect (a b c : Nat) : paethRef a b c = paethSelect a b c := by
  simp only [paethRef, paethSelect]
  obtain h | h := Nat.le_total a b
  · rw [Nat.min_eq_left h, Nat.max_eq_right h]
    split_ifs <;> omega
  · rw [Nat.min_eq_right h, Nat.max_eq_left h]
    split_ifs <;> omega

/-- The sum of R105 step 5, with its masks read as conditions. -/
theorem paethOpt_eq_masked {a b c : Nat} (ha : a ≤ 255) (hb : b ≤ 255) (hc : c ≤ 255) :
    (paethOpt a b c : Int) = ((c : Int) +
      (if c ≤ min a b + (max a b - min a b) / 3 then ((max a b : Nat) : Int) - c else 0) +
      (if max a b ≤ c + (max a b - min a b) / 3 then ((min a b : Nat) : Int) - c else 0)) % 2 ^ 32 % 256 := by
  have hHi : c ≤ min a b + (max a b - min a b) / 3 ↔
      0 ≤ (((max a b - min a b) / 3 : Nat) : Int) + ((min a b : Nat) - c) := by omega
  have hLo : max a b ≤ c + (max a b - min a b) / 3 ↔
      0 ≤ (((max a b - min a b) / 3 : Nat) : Int) - ((max a b : Nat) - c) := by omega
  simp only [paethOpt, hHi, hLo]
  rw [udiv3_eq_div (by omega), ofInt_and_nonNegMask32 _ (by omega) (by omega),
    ofInt_and_nonNegMask32 _ (by omega) (by omega), ← BitVec.ofInt_natCast, ← BitVec.ofInt_add, ← BitVec.ofInt_add,
    BitVec.toNat_ofInt, Int.natCast_mod, Int.toNat_of_nonneg (by omega)]
  rfl

/-- At most one mask is set where the ends differ, and the sum is then `c` plus the distance to the selected end; no sum
leaves the byte. -/
theorem paethOpt_eq_paethSelect {a b c : Nat} (ha : a ≤ 255) (hb : b ≤ 255) (hc : c ≤ 255) :
    paethOpt a b c = paethSelect a b c := by
  have h := paethOpt_eq_masked ha hb hc
  obtain hHi | hAbove := le_or_gt c (min a b + (max a b - min a b) / 3)
  · rw [paethSelect_hi hHi]
    rw [if_pos hHi] at h
    split at h <;> omega
  rw [if_neg (by omega)] at h
  obtain hLo | hBelow := le_or_gt (max a b) (c + (max a b - min a b) / 3)
  · rw [paethSelect_lo hLo]
    rw [if_pos hLo] at h
    omega
  · rw [paethSelect_mid hAbove hBelow]
    rw [if_neg (by omega)] at h
    omega

/-- Settles O30: the three clauses of the selection by thirds, which the masks make. -/
theorem paethOptSelects : Obligations.PaethOptSelects := by
  intro a b c ha hb hc
  rw [paethOpt_eq_paethSelect ha hb hc]
  exact ⟨paethSelect_hi, paethSelect_lo, paethSelect_mid⟩

/-- Settles O31: both forms are the selection by thirds, and the laws of the predictor are laws of the selection. -/
theorem paethOptEqualsPaethRef : Obligations.PaethOptEqualsPaethRef := by
  intro a b c ha hb hc
  refine ⟨(paethOpt_eq_paethSelect ha hb hc).trans (paethRef_eq_paethSelect a b c).symm, ?_⟩
  simp only [paethRef_eq_paethSelect]
  exact ⟨paethSelect_comm a b c, paethSelect_zero_left b, (paethSelect_comm a 0 0).trans (paethSelect_zero_left a),
    paethSelect_mem a b c, paethSelect_self a c, paethSelect_eq_left a b,
    (paethSelect_comm a b a).trans (paethSelect_eq_left b a)⟩

end Sys2Proof.Machine
end

section
/-! A row instruction that can be executed completes, and the step of a running invocation runs it (41_scalar_filters.md
R120, R121, R131, R132; 60_exceptions.md R270, R271). -/

namespace Sys2Proof.Machine

/-- A row that can be executed in its mode answers its body's state with the cursor advanced. -/
theorem exec_ready {i : Instr} {s : State} (hr : s.RowReady i.filter) (hi : s.RunsIn i) :
    exec i s = .next (bodyOf i s).advance := by
  rw [exec_of_runsIn hi, runRow_ready hr]

/-- Settles O6: the filter byte is the head of the row's bytes, and it decides the decoded row's instruction. -/
theorem stepRunsDecodedRow : Obligations.StepRunsDecodedRow := by
  intro s m r rest hbusy hnone hm hf hd
  have hbpl : 0 < s.bpl.toNat := by
    by_contra h0
    rw [State.rowBytes, show s.bpl.toNat = 0 by omega, List.range_zero, List.map_nil] at hd
    cases hd
  obtain ⟨more, hbytes⟩ := State.rowBytes_cons hbpl
  rw [hbytes] at hd
  rw [step_noMoveDue hnone, engineStep_busy (s := s.tick) hbusy hm hf, runFetched_ok (decode_head hd)]
  rfl

/-! ### The cursor (R131, R132) -/

/-- A row instruction that answers a next state has advanced the cursor of a state of the same row. -/
theorem exec_sameRow {i : Instr} {s t : State} (h : exec i s = .next t) : ∃ r, SameRow s r ∧ t = r.advance := by
  obtain ⟨r, hr, ht⟩ := exec_writesPayload h
  exact ⟨r, hr.same, ht⟩

/-- Settles O59: the advanced cursor stands at the next row while the invocation has rows left. -/
theorem everyRowAdvancesCursor : Obligations.EveryRowAdvancesCursor := by
  intro i s t h
  obtain ⟨r, hsame, rfl⟩ := exec_sameRow h
  have hcursor := cursorAdvanced_advance hsame
  refine ⟨hcursor, fun hrun hleft => ?_⟩
  have hlt := s.h.isLt
  have hy : (s.y + 1#32).toNat = s.y.toNat + 1 := by
    rw [BitVec.toNat_add, BitVec.toNat_ofNat, Nat.mod_eq_of_lt (by omega)]
  have hne : s.y + 1#32 ≠ s.h := fun he => by
    rw [← he, hy] at hleft
    omega
  have hbusy : r.advance.status = .busy := by rw [hcursor.status, if_neg hne, hrun.busy]
  have hnext := (hrun.of_sameRow hsame).advance hbusy
  have hbuf : r.advance.buf = s.buf := hsame.buf
  have hbpl : r.advance.bpl = s.bpl := hsame.bpl
  have hyt : r.advance.y.toNat = s.y.toNat + 1 := by rw [hcursor.y, hy]
  refine ⟨?above, ?cursor, hyt, hbusy⟩
  case above => rw [hcursor.u, hrun.cursor, hyt, Nat.add_sub_cancel]
  case cursor => rw [hnext.cursor, hbuf, hbpl]

/-! ### The step of a running invocation (R120, R270) -/

/-- What a mode selects runs in it. -/
theorem runsIn_select {s : State} {m : Mode} (hm : s.mode = some m) (f : Filter) : s.RunsIn (Instr.select m f) := by
  obtain ⟨k, b⟩ := m
  cases k with
  | ref => exact runsIn_base s f
  | opt => exact runsIn_base s f
  | simd => exact runsIn_special_iff.2 hm

/-- The parameters of a running invocation select a mode (P1, P6). -/
theorem State.Running.mode_eq_some {s : State} (h : s.Running) : ∃ m, s.mode = some m := by
  obtain ⟨hbpp, _, _, _, _, hksel⟩ := violation_eq_none_iff.1 h.wf
  obtain ⟨b, hb⟩ := Option.isSome_iff_exists.1 (Option.isNone_eq_false_iff.1 hbpp)
  obtain ⟨k, hk⟩ := Option.isSome_iff_exists.1 (Option.isNone_eq_false_iff.1 hksel)
  refine ⟨⟨k, b⟩, ?_⟩
  rw [State.mode, show Kernel.ofBits? s.ksel = some k from hk, show Bpp.ofNat? s.bpp.toNat = some b from hb]

/-- The engine's step from a running invocation: the row that the mode selects for the filter byte, which can be
executed, or the FORMAT fault. -/
theorem engineStep_running {s : State} (h : s.Inv) (hbusy : s.status = .busy) :
    ∃ m, s.mode = some m ∧
      ((∃ f, Filter.ofByte? (s.mem.read (s.p - 1)) = some f ∧ s.fetch.RowReady f ∧
          engineStep s = .next (bodyOf (Instr.select m f) s.fetch).advance) ∨
        (5 ≤ (s.mem.read (s.p - 1)).toNat ∧ engineStep s = .next s.fetch.raiseFormat)) := by
  have hrun := h.running hbusy
  obtain ⟨m, hm⟩ := hrun.mode_eq_some
  have hstep := engineStep_busy hbusy hm hrun.fetchFault_none
  refine ⟨m, hm, ?_⟩
  cases hf : Filter.ofByte? (s.mem.read (s.p - 1)) with
  | none =>
    have h5 := Filter.ofByte?_eq_none.1 hf
    exact .inr ⟨h5, by rw [hstep, runFetched_reserved h5]⟩
  | some f =>
    have hready := (h.fetch.running hbusy).rowReady h.fetch.memWf f
    refine .inl ⟨f, rfl, hready, ?_⟩
    rw [hstep, runFetched_ok (decodeOpcode_ok hf)]
    exact exec_ready (by rwa [Instr.filter_select]) (runsIn_select hm f)

/-- Settles O22: the row of a defined filter byte can be executed, and any other byte is a reserved one. -/
theorem runningStepAnswersNext : Obligations.RunningStepAnswersNext := by
  intro s hinv hbusy hnone
  obtain ⟨m, hm, ⟨f, hf, hready, hstep⟩ | ⟨h5, hstep⟩⟩ :=
    engineStep_running (hinv.polled (tick s.inputs) s.readData s.fresh) hbusy
  · refine ⟨_, (step_noMoveDue hnone).trans hstep, .inl ⟨m, _, hm, decodeOpcode_ok hf, ?_⟩⟩
    exact exec_ready (by rwa [Instr.filter_select]) (runsIn_select hm f)
  · exact ⟨_, (step_noMoveDue hnone).trans hstep, .inr ⟨h5, rfl⟩⟩

/-! ### The NONE rows (R121, R202) -/

theorem bodyOf_none {i : Instr} (h : i.filter = .none) : bodyOf i = id := by
  obtain ⟨_, hi⟩ | ⟨b, _, hi⟩ := i.base_or_special
  · rw [hi, h]
    rfl
  · rw [hi, h]
    cases b <;> rfl

/-- Settles O47: a NONE row has an empty body, so that the cursor's advance is all it does. -/
theorem noneRowsOnlyAdvance : Obligations.NoneRowsOnlyAdvance := by
  intro i hi
  have hfilter : i.filter = .none := by
    revert i
    decide
  refine ⟨by rw [Instr.opcode, hfilter]; rfl, fun s hr hrun => ?_⟩
  have hexec : exec i s = .next s.advance := by
    rw [exec_ready (by rwa [hfilter]) hrun, bodyOf_none hfilter, id]
  exact ⟨_, hexec, rowFrame_advance (.refl s), cursorAdvanced_advance (.refl s), ⟨rfl, ⟨rfl, rfl⟩, ⟨rfl, rfl⟩, rfl⟩,
    rfl, rfl⟩

end Sys2Proof.Machine
end

section
/-! How a row is finished byte by byte and block by block (43_simd_sub_up_none.md R184, R185, R188; R127): what a store
at I has to write, and what it leaves in the carries. -/

namespace Sys2Proof.Machine

theorem sumMod256_eq (a b : Nat) : sumMod256 a b = (a + b) % 256 := and_255 (a + b)

/-! ### Stores at I -/

/-- The bytes `out` are the reconstructions of the next `size` payload bytes from I, the left neighbours the bytes
before I and then `out` itself (R127). -/
def BlockReconstructs (f : Filter) (b : Bpp) (size : Nat) (s : State) (out : Nat → Byte) : Prop :=
  ∀ j < size, (out j).toNat = recon f (s.payload (s.i.toNat + j)).toNat
    (if j < b.toNat then s.payload (s.i.toNat - b.toNat + j) else out (j - b.toNat)).toNat
    (s.above (s.i.toNat + j)).toNat (s.above (s.i.toNat - b.toNat + j)).toNat

/-- A store of such bytes at I finishes them. -/
theorem RowAt.store {f : Filter} {b : Bpp} {k size : Nat} {s t r : State} {out : Nat → Byte} (h : RowAt f b k s t)
    (ha : s.y = 0#32 ∨ s.u + s.n ≤ s.p) (hk : k + size ≤ s.n) (hsame : SameRow t r)
    (hmem : r.mem = t.mem.writeBytes (t.p + t.i.toNat) out size) (hi : r.i = BitVec.ofNat 32 (t.i.toNat + size))
    (hout : BlockReconstructs f b size t out) : RowAt f b (k + size) s r := by
  have hge := h.ge
  refine ⟨h.prog.store (Bpp.toNat_pos b) hsame (by rw [hmem, h.i]) fun j hj => ?_, ?_, by omega, hk⟩
  · rw [hout j hj, h.i, h.prog.payload_raw (by omega), h.prog.above ha (by omega), h.prog.above ha (by omega),
      if_pos (show b.toNat ≤ k + j by omega), if_pos (show b.toNat ≤ k + j by omega),
      show k - b.toNat + j = k + j - b.toNat by omega]
    by_cases hjb : j < b.toNat
    · rw [if_pos hjb, if_neg (by omega)]
    · rw [if_neg hjb, if_pos (by omega)]
  · rw [hi, toNat_index_add (by rw [h.i, h.prog.same.n_eq]; exact hk), h.i]

/-- What a store of `size` bytes at I leaves: the bytes, and I behind them. -/
structure StoredAtIndex (size : Nat) (t r : State) (out : Nat → Byte) : Prop where
  payload : ∀ j < size, r.payload (t.i.toNat + j) = out j
  i : r.i.toNat = t.i.toNat + size

theorem RowAt.storedAtIndex {f : Filter} {b : Bpp} {k size : Nat} {s t r : State} {out : Nat → Byte}
    (h : RowAt f b k s t) (hk : k + size ≤ s.n) (hsame : SameRow t r)
    (hmem : r.mem = t.mem.writeBytes (t.p + t.i.toNat) out size) (hi : r.i = BitVec.ofNat 32 (t.i.toNat + size)) :
    StoredAtIndex size t r out where
  payload j hj := by
    rw [State.payload, hsame.p, hmem, Memory.read_writeBytes h.prog.memWf, if_pos (by omega)]
    congr 1
    omega
  i := by rw [hi, toNat_index_add (by rw [h.i, h.prog.same.n_eq]; exact hk)]

/-- The last bytes stored are the bytes before I. -/
theorem StoredAtIndex.payload_last {size : Nat} {t r : State} {out : Nat → Byte} (h : StoredAtIndex size t r out)
    {c j : Nat} (hc : c ≤ size) (hj : j < c) : r.payload (r.i.toNat - c + j) = out (size - c + j) := by
  rw [h.i, ← h.payload (size - c + j) (by omega)]
  congr 1
  omega

/-- One payload byte reconstructed at I. -/
theorem RowAt.byte {f : Filter} {b : Bpp} {k e : Nat} {s t r : State} (h : RowAt f b k s t)
    (hk : k < s.n) (hsame : SameRow t r)
    (hmem : r.mem = t.mem.write (t.p + k) (BitVec.ofNat 8 e)) (hi : r.i = BitVec.ofNat 32 (k + 1))
    (he : e = recon f (s.payload k).toNat (t.payload (k - b.toNat)).toNat (s.above k).toNat
      (s.above (k - b.toNat)).toNat) : RowAt f b (k + 1) s r ∧ r.payload k = BitVec.ofNat 8 e := by
  have hge := h.ge
  refine ⟨⟨h.prog.byte (Bpp.toNat_pos b) hsame hmem (by rw [he, if_pos hge, if_pos hge]), ?_, by omega, hk⟩, ?_⟩
  · have := s.n_lt
    rw [hi, BitVec.toNat_ofNat, Nat.mod_eq_of_lt (by omega)]
  · rw [State.payload, hsame.p, hmem, Memory.read_write_same h.prog.memWf]

/-! ### Blocks -/

/-- A block that, entered in the row of `s` with `size` payload bytes left and `J` holding, finishes as many bytes and
leaves `J` holding (R184). -/
def FinishesBlock (f : Filter) (b : Bpp) (size : Nat) (s : State) (J : State → Prop) (block : State → State) : Prop :=
  ∀ k t, RowAt f b k s t → J t → k + size ≤ s.n → RowAt f b (k + size) s (block t) ∧ J (block t)

theorem FinishesBlock.repeatN {f : Filter} {b : Bpp} {size : Nat} {s : State} {J : State → Prop}
    {block : State → State} (h : FinishesBlock f b size s J block) (count : Nat) :
    FinishesBlock f b (size * count) s J (repeatN block count) := fun k t ht hJ hk => by
  refine repeatN_induct (P := fun j r => RowAt f b (k + size * j) s r ∧ J r) ⟨ht, hJ⟩ ?_
  rintro j hj r ⟨hr, hJr⟩
  have hle : size * (j + 1) ≤ size * count := Nat.mul_le_mul_left _ hj
  rw [Nat.mul_succ] at hle ⊢
  rw [← Nat.add_assoc]
  exact h _ r hr hJr (by omega)

/-- The body of a row that is on the way may seed its carries (R185). -/
theorem RowAt.seedCarry {f : Filter} {b : Bpp} {k : Nat} {s t : State} (h : RowAt f b k s t) (b' : Bpp) :
    RowAt f b k s (t.seedCarry b') :=
  ⟨h.prog.congr (sameRow_seedCarry t b') (t.seedCarry_mem b'), by rw [State.seedCarry_i, h.i], h.ge, h.le⟩

theorem RowAt.carry_seed {f : Filter} {b : Bpp} {k : Nat} {s t : State} (h : RowAt f b k s t) :
    Carry b (t.seedCarry b) := Machine.carry_seed (by rw [h.i]; exact h.ge)

theorem RowAt.carryW_seed {f : Filter} {b : Bpp} {k : Nat} {s t : State} (h : RowAt f b k s t) :
    CarryW b (t.seedCarry b) := Machine.carryW_seed (by rw [h.i]; exact h.ge)

/-- A loop of such blocks keeps the row on the way. -/
theorem FinishesBlock.blocks {f : Filter} {b : Bpp} {k size : Nat} {s t : State} {J : State → Prop}
    {block : State → State} (h : FinishesBlock f b size s J block) (hsize : 0 < size) (ht : RowAt f b k s t)
    (hJ : J t) : ∃ k', RowAt f b k' s (blocks size block t) ∧ J (blocks size block t) :=
  blocks_at ht hJ hsize h

/-! ### The UP rows (R199 to R201) -/

/-- Sixteen bytes of a 64-byte block: the byte above added to each. -/
theorem upStore16_progress {b : Bpp} {k r : Nat} {s t : State} (h : Progress .up b.toNat (k + 16 * r) s t)
    (hi : t.i.toNat = k) (ha : s.y = 0#32 ∨ s.u + s.n ≤ s.p) (hk : k + 16 * r + 16 ≤ s.n) :
    Progress .up b.toNat (k + 16 * r + 16) s (upStore16 r t) := by
  refine h.store (Bpp.toNat_pos b) (sameRow_upStore16 r t)
    (by rw [upStore16_mem, show t.p + (t.i.toNat + 16 * r) = t.p + (k + 16 * r) by rw [hi]]) fun j hj => ?_
  rw [lane8_vaddb _ _ hj, lane8_vld16a _ _ hj, lane8_uvec16 hj, hi, h.above ha (by omega), ← h.payload_raw (by omega),
    State.payload, recon, sumMod256_eq, BitVec.toNat_add, Nat.add_assoc]

theorem upBlock64_finishes (b : Bpp) {s : State} (ha : s.y = 0#32 ∨ s.u + s.n ≤ s.p) :
    FinishesBlock .up b 64 s (fun _ => True) upBlock64 := fun k t h _ hk => by
  have p0 := upStore16_progress (r := 0) h.prog h.i ha (by omega)
  have p1 := upStore16_progress (r := 1) p0 (by rw [upStore16_i, h.i]) ha (by omega)
  have p2 := upStore16_progress (r := 2) p1 (by rw [upStore16_i, upStore16_i, h.i]) ha (by omega)
  have p3 := upStore16_progress (r := 3) p2 (by rw [upStore16_i, upStore16_i, upStore16_i, h.i]) ha (by omega)
  have hge := h.ge
  refine ⟨⟨p3.congr (sameRow_bumpIndex _ 64) (State.bumpIndex_mem _ 64), ?_, by omega, hk⟩, trivial⟩
  rw [(payloadBlock_upBlock64 t (by rw [h.i, h.prog.same.n_eq]; exact hk)).2, h.i]

theorem upBlock8_finishes (b : Bpp) {s : State} (ha : s.y = 0#32 ∨ s.u + s.n ≤ s.p) :
    FinishesBlock .up b 8 s (fun _ => True) upBlock8 := fun k t h _ hk => by
  refine ⟨h.store ha hk (sameRow_upBlock8 t) (upBlock8_mem t) (upBlock8_i t) fun j hj => ?_, trivial⟩
  rw [lane8_vaddb _ _ (by omega), lane8_vld8 _ _ (by omega), if_pos hj, lane8_uvec8 hj, State.payload, recon,
    sumMod256_eq, BitVec.toNat_add, Nat.add_assoc]

theorem upRow_progress {b : Bpp} {s : State} (hr : s.RowReady .up) (hb : b.toNat = s.bpp.toNat) :
    Progress .up b.toNat s.n s (upRow b s) := by
  have h := simdRow_progress (body := upBody) hr hb fun k t ht _ => by
    obtain ⟨k1, h1, _⟩ := (upBlock64_finishes b hr.apart).blocks (by decide) ht trivial
    obtain ⟨k2, h2, _⟩ := (upBlock8_finishes b hr.apart).blocks (by decide) h1 trivial
    exact ⟨k2, h2⟩
  exact (h.congr (sameRow_dropIndex _) rfl).congr (sameRow_dropVectors _) rfl

/-! ### The SUB rows (R188 to R198) -/

/-- The sum of the first `count` bytes of the column of lane `k`, going down from it in steps of `b`. -/
def columnSum (b : Nat) (x : V128) (count k : Nat) : Byte :=
  ∑ j ∈ Finset.range count, if j * b ≤ k then lane8 x (k - j * b) else 0#8

/-- One step of the schedule doubles the column that a lane sums (R170, R189). -/
theorem lane8_sllAddb1x_columnSum {b count : Nat} {x y : V128} (h : ∀ k < 16, lane8 y k = columnSum b x count k)
    {k : Nat} (hk : k < 16) : lane8 (sllAddb1x y (count * b)) k = columnSum b x (count + count) k := by
  rw [sllAddb1x, lane8_vaddb _ _ hk, lane8_vslldq _ _ hk, h k hk, columnSum, columnSum, Finset.sum_range_add]
  congr 1
  by_cases hc : count * b ≤ k
  · rw [if_pos hc, h _ (by omega), columnSum]
    refine Finset.sum_congr rfl fun j _ => ?_
    rw [Nat.add_mul]
    exact if_congr (by omega) (by congr 1; omega) rfl
  · rw [if_neg hc]
    exact (Finset.sum_eq_zero fun j _ => if_neg (by rw [Nat.add_mul]; omega)).symm

/-- The schedule of R190: the bytes per pixel doubled again and again. -/
theorem sched_eq (b : Bpp) : sched b = (List.range (sched b).length).map fun m => 2 ^ m * b.toNat := by
  cases b <;> rfl

theorem lane8_foldl_columnSum (b : Nat) (x : V128) (m : Nat) : ∀ k < 16,
    lane8 (((List.range m).map fun j => 2 ^ j * b).foldl sllAddb1x x) k = columnSum b x (2 ^ m) k := by
  induction m with
  | zero => simp [columnSum]
  | succ m ih =>
    intro k hk
    rw [List.range_succ, List.map_append, List.foldl_append, List.map_singleton, List.foldl_cons, List.foldl_nil,
      lane8_sllAddb1x_columnSum ih hk, pow_succ, Nat.mul_two]

/-- A column that covers the register is the lane and the column of the lane `b` before it. -/
theorem columnSum_rec {b count : Nat} (x : V128) (hcover : 16 ≤ count * b) {k : Nat} (hk : k < 16) :
    columnSum b x count k = lane8 x k + if b ≤ k then columnSum b x count (k - b) else 0#8 := by
  obtain ⟨c, rfl⟩ : ∃ c, count = c + 1 := ⟨count - 1, by rcases count with _ | _ <;> simp at hcover ⊢⟩
  rw [Nat.succ_mul] at hcover
  rw [columnSum, Finset.sum_range_succ', add_comm, Nat.zero_mul, if_pos (Nat.zero_le k), Nat.sub_zero]
  congr 1
  by_cases hb : b ≤ k
  · rw [if_pos hb, columnSum, Finset.sum_range_succ, if_neg (by omega)]
    refine (Finset.sum_congr rfl fun j _ => ?_).trans (add_zero _).symm
    rw [Nat.succ_mul]
    exact if_congr (by omega) (by congr 1; omega) rfl
  · rw [if_neg hb]
    exact Finset.sum_eq_zero fun j _ => if_neg (by rw [Nat.succ_mul]; omega)

/-- The log-step schedule sums each column from the bottom (R189). -/
theorem lane8_prefixSum (b : Bpp) (x : V128) {k : Nat} (hk : k < 16) :
    lane8 (prefixSum b x) k = lane8 x k + if b.toNat ≤ k then lane8 (prefixSum b x) (k - b.toNat) else 0#8 := by
  have hlane : ∀ k < 16, lane8 (prefixSum b x) k = columnSum b.toNat x (2 ^ (sched b).length) k := by
    rw [prefixSum, sched_eq, List.length_map, List.length_range]
    exact lane8_foldl_columnSum b.toNat x _
  rw [hlane k hk, columnSum_rec x (by cases b <;> decide) hk]
  by_cases hb : b.toNat ≤ k
  · rw [if_pos hb, if_pos hb, hlane _ (by omega)]
  · rw [if_neg hb, if_neg hb]

/-- The bytes of a SUB block: each is its raw byte plus the byte of the block `b` before it, the first ones plus the
carry (R188). -/
theorem lane8_subOut {b : Bpp} {c : V128} (hc : ∀ j, b.toNat ≤ j → lane8 c j = 0#8) (x : V128) {k : Nat}
    (hk : k < 16) : lane8 (subOut b x c) k =
      lane8 x k + if k < b.toNat then lane8 c k else lane8 (subOut b x c) (k - b.toNat) := by
  rw [subOut, rep, lane8_vaddb _ _ hk, lane8_prefixSum b x hk, lane8_prefixSum b c hk]
  by_cases hb : k < b.toNat
  · rw [if_neg (by omega), if_neg (by omega), if_pos hb, BitVec.add_zero, BitVec.add_zero]
  · rw [if_pos (by omega), if_pos (by omega), if_neg hb, hc k (by omega), BitVec.zero_add, lane8_vaddb _ _ (by omega),
      BitVec.add_assoc]

theorem subBlock16_finishes (b : Bpp) {s : State} (ha : s.y = 0#32 ∨ s.u + s.n ≤ s.p) :
    FinishesBlock .sub b 16 s (Carry b) (subBlock16 b) := fun k t h hc hk => by
  have hle := Bpp.toNat_le b
  have hstored := h.storedAtIndex hk (sameRow_subBlock16 b t) (subBlock16_mem b t) (subBlock16_i b t)
  refine ⟨h.store ha hk (sameRow_subBlock16 b t) (subBlock16_mem b t) (subBlock16_i b t) fun j hj => ?_,
    ⟨fun j hj => ?_, fun j hj => ?_⟩⟩
  · rw [lane8_subOut hc.cz _ hj, lane8_vld16a _ _ hj, recon, sumMod256_eq, State.payload, Nat.add_assoc,
      BitVec.toNat_add]
    by_cases hb : j < b.toNat
    · rw [if_pos hb, if_pos hb, hc.c j hb]
    · rw [if_neg hb, if_neg hb]
  · rw [hstored.payload_last (by omega) hj, subBlock16_c, lane8_vsrldq _ _ (by omega), Nat.add_comm j]
  · by_cases h16 : j < 16
    · rw [subBlock16_c, lane8_vsrldq _ _ h16, lane8_of_ge _ (by omega)]
    · exact lane8_of_ge _ (by omega)

theorem subRow_progress {b : Bpp} {s : State} (hr : s.RowReady .sub) (hb : b.toNat = s.bpp.toNat) :
    Progress .sub b.toNat s.n s (subRow b s) := by
  have h16 := subBlock16_finishes b hr.apart
  have h := simdRow_progress (body := subBody b) hr hb fun k t ht _ => by
    rw [subBody]
    split
    · obtain ⟨k1, h1, c1⟩ := (h16.repeatN 4).blocks (by decide) (ht.seedCarry b) ht.carry_seed
      obtain ⟨k2, h2, _⟩ := h16.blocks (by decide) h1 c1
      exact ⟨k2, h2⟩
    · exact ⟨k, ht⟩
  exact ((h.congr (sameRow_dropIndex _) rfl).congr (sameRow_dropVectors _) rfl).congr (sameRow_dropCarry _) rfl

end Sys2Proof.Machine
end

section
/-! The 16-bit-lane blocks of the SIMD kernel (44_simd_avg.md, 45_simd_paeth.md): what a stage computes in a lane, what
the stages of a block leave, and that each block finishes its bytes (R215 to R219, R230, R234 to R239). -/

namespace Sys2Proof.Machine

/-! ### Lanes of byte range -/

theorem lane16_eq_ofInt (v : V128) (k : Nat) : lane16 v k = BitVec.ofInt 16 (lane16 v k).toNat := by
  rw [BitVec.ofInt_natCast, BitVec.ofNat_toNat, BitVec.setWidth_eq]

section

variable {x y : V128} {k : Nat} {v w : Int} (hk : k < 8) (hx : lane16 x k = BitVec.ofInt 16 v)
  (hy : lane16 y k = BitVec.ofInt 16 w)
include hk hx hy

theorem lane16_vaddw_ofInt : lane16 (vaddw x y) k = BitVec.ofInt 16 (v + w) := by
  rw [lane16_vaddw _ _ hk, hx, hy, BitVec.ofInt_add]

theorem lane16_vsubw_ofInt : lane16 (vsubw x y) k = BitVec.ofInt 16 (v - w) := by
  rw [lane16_vsubw _ _ hk, hx, hy]
  exact (eq_sub_of_add_eq (by rw [← BitVec.ofInt_add, Int.sub_add_cancel])).symm

end

section

variable {a b : V128} {k : Nat} (hk : k < 8) (ha : (lane16 a k).toNat < 256) (hb : (lane16 b k).toNat < 256)
include hk ha hb

theorem lane16_vminsw_byte :
    lane16 (vminsw a b) k = BitVec.ofInt 16 (min (lane16 a k).toNat (lane16 b k).toNat : Nat) := by
  rw [lane16_vminsw _ _ hk, BitVec.toInt_eq_toNat_of_lt (by omega), BitVec.toInt_eq_toNat_of_lt (by omega)]
  split
  · rw [Nat.min_eq_left (by omega)]; exact lane16_eq_ofInt a k
  · rw [Nat.min_eq_right (by omega)]; exact lane16_eq_ofInt b k

theorem lane16_vmaxsw_byte :
    lane16 (vmaxsw a b) k = BitVec.ofInt 16 (max (lane16 a k).toNat (lane16 b k).toNat : Nat) := by
  rw [lane16_vmaxsw _ _ hk, BitVec.toInt_eq_toNat_of_lt (by omega), BitVec.toInt_eq_toNat_of_lt (by omega)]
  split
  · rw [Nat.max_eq_left (by omega)]; exact lane16_eq_ofInt a k
  · rw [Nat.max_eq_right (by omega)]; exact lane16_eq_ofInt b k

end

/-- Of a lane that is the number `n`, at most 511, the multiply-high by `0x5580` makes its third (R103). -/
theorem lane16_vmulhuw_k5580 {x : V128} {k n : Nat} (hk : k < 8) (hx : lane16 x k = BitVec.ofInt 16 n) (hn : n ≤ 511) :
    lane16 (vmulhuw x k5580) k = BitVec.ofInt 16 (n / 3 : Nat) := by
  have hnat : (lane16 x k).toNat = n := by
    rw [hx, BitVec.ofInt_natCast, BitVec.toNat_ofNat, Nat.mod_eq_of_lt (by omega)]
  rw [lane16_eq_ofInt (vmulhuw x k5580), toNat_lane16_vmulhuw_k5580 x hk, hnat, udiv3_eq_div hn]

/-- The complemented sign of a lane passes the other operand or puts 0 in its place (R230). -/
theorem lane16_vandn_vsraw {m x : V128} {k : Nat} {v w : Int} (hk : k < 8) (hm : lane16 m k = BitVec.ofInt 16 v)
    (hx : lane16 x k = BitVec.ofInt 16 w) (h1 : -2 ^ 15 ≤ v) (h2 : v < 2 ^ 15) :
    lane16 (vandn (vsraw m 15) x) k = BitVec.ofInt 16 (if 0 ≤ v then w else 0) := by
  have hshift : ((BitVec.ofInt 16 v).sshiftRight 15).toInt = v / 2 ^ 15 := by
    rw [BitVec.toInt_sshiftRight, BitVec.toInt_ofInt_eq_self (by decide) h1 h2, Int.shiftRight_eq_div_pow]
    rfl
  rw [lane16_vandn _ _ hk, lane16_vsraw _ _ hk, hm, hx]
  split
  · have hzero : (BitVec.ofInt 16 v).sshiftRight 15 = 0#16 :=
      BitVec.eq_of_toInt_eq (hshift.trans (show v / 2 ^ 15 = 0 by omega))
    rw [hzero, BitVec.not_zero, BitVec.allOnes_and]
  · have hones : (BitVec.ofInt 16 v).sshiftRight 15 = BitVec.allOnes 16 :=
      BitVec.eq_of_toInt_eq (hshift.trans (show v / 2 ^ 15 = -1 by omega))
    rw [hones, BitVec.not_allOnes, BitVec.zero_and]
    rfl

/-- The masked sum of R105 and R230 is the selection by thirds: where both masks are set, both terms are 0. -/
theorem masked_sum_eq_paethSelect (a b c : Nat) :
    (c : Int) +
      ((if 0 ≤ (((max a b - min a b) / 3 : Nat) : Int) + ((min a b : Nat) - c)
          then ((max a b : Nat) : Int) - c else 0) +
        (if 0 ≤ (((max a b - min a b) / 3 : Nat) : Int) - ((max a b : Nat) - c)
          then ((min a b : Nat) : Int) - c else 0)) =
      paethSelect a b c := by
  obtain hHi | hAbove := le_or_gt c (min a b + (max a b - min a b) / 3)
  · rw [paethSelect_hi hHi, if_pos (by omega)]
    split <;> omega
  rw [if_neg (by omega)]
  obtain hLo | hBelow := le_or_gt (max a b) (c + (max a b - min a b) / 3)
  · rw [paethSelect_lo hLo, if_pos (by omega)]
    omega
  · rw [paethSelect_mid hAbove hBelow, if_neg (by omega)]
    omega

theorem paethSelect_lt {a b c n : Nat} (ha : a < n) (hb : b < n) (hc : c < n) : paethSelect a b c < n := by
  obtain h | h | h := paethSelect_mem a b c <;> omega

/-- `PAETH16` predicts in every lane of byte range (R230). -/
theorem toNat_lane16_paeth16 {a b c : V128} {k : Nat} (hk : k < 8) (ha : (lane16 a k).toNat < 256)
    (hb : (lane16 b k).toNat < 256) (hc : (lane16 c k).toNat < 256) :
    (lane16 (paeth16 a b c) k).toNat = paethRef (lane16 a k).toNat (lane16 b k).toNat (lane16 c k).toNat := by
  have hlt := paethSelect_lt ha hb hc
  have hlo := lane16_vminsw_byte hk ha hb
  have hhi := lane16_vmaxsw_byte hk ha hb
  have hd := lane16_vmulhuw_k5580 (n := max (lane16 a k).toNat (lane16 b k).toNat -
      min (lane16 a k).toNat (lane16 b k).toNat) hk
    (by rw [lane16_vsubw_ofInt hk hhi hlo, Nat.cast_sub (by omega)]) (by omega)
  have hc' := lane16_eq_ofInt c k
  have hlo' := lane16_vsubw_ofInt hk hlo hc'
  have hhi' := lane16_vsubw_ofInt hk hhi hc'
  have ht1 := lane16_vandn_vsraw hk (lane16_vaddw_ofInt hk hd hlo') hhi' (by omega) (by omega)
  have ht2 := lane16_vandn_vsraw hk (lane16_vsubw_ofInt hk hd hhi') hlo' (by omega) (by omega)
  rw [paethRef_eq_paethSelect, paeth16, lane16_vaddw_ofInt hk hc' (lane16_vaddw_ofInt hk ht1 ht2),
    masked_sum_eq_paethSelect, BitVec.ofInt_natCast, BitVec.toNat_ofNat, Nat.mod_eq_of_lt (by omega)]

/-! ### What a stage computes in a lane -/

/-- A stage over the register pair reconstructs in each lane the byte of `xb` from the left neighbour in the lane, the
byte above in `bb` and the byte above-left in `cb` (R216, R239). -/
def ReconstructsLanes (f : Filter) (xb bb cb : V128) (stage : V128 × V128 → V128 × V128) : Prop :=
  ∀ l, (∀ k < 16, (wide l k).toNat < 256) → ∀ k < 16, (wide (stage l) k).toNat =
    recon f (lane8 xb k).toNat (wide l k).toNat (lane8 bb k).toNat (lane8 cb k).toNat

/-- One stage of a 16-byte block whose lanes are computed by `g` from the raw bytes, the bytes above, the bytes
above-left and the left neighbours (R216, R239). -/
def laneStage (g : V128 → V128 → V128 → V128 → V128) (xb bb cb : V128) (left : V128 × V128) : V128 × V128 :=
  (g (vunpklbw xb zeroV) (vunpklbw bb zeroV) (vunpklbw cb zeroV) left.1,
    g (vunpkhbw xb zeroV) (vunpkhbw bb zeroV) (vunpkhbw cb zeroV) left.2)

/-- In lanes of byte range `g` computes the reconstruction of the raw byte. -/
def LanesReconstruct (f : Filter) (g : V128 → V128 → V128 → V128 → V128) : Prop :=
  ∀ (x above aboveLeft left : V128), ∀ k < 8, (lane16 x k).toNat < 256 → (lane16 above k).toNat < 256 →
    (lane16 aboveLeft k).toNat < 256 → (lane16 left k).toNat < 256 →
    (lane16 (g x above aboveLeft left) k).toNat =
      recon f (lane16 x k).toNat (lane16 left k).toNat (lane16 above k).toNat (lane16 aboveLeft k).toNat

/-- Both forms, T and U, add the floor mean: twice the raw byte halves to itself (R210). -/
theorem avgLanes_reconstruct (b : Bpp) : LanesReconstruct .avg (fun x above _ left => avgLanes b x above left) := by
  intro x above _ left k hk hx ha _ hl
  rw [recon, sumMod256_eq, avg_eq_div]
  have hT : ((lane16 x k + lane16 x k + lane16 above k + lane16 left k) >>> 1).toNat =
      (lane16 x k).toNat + ((lane16 left k).toNat + (lane16 above k).toNat) / 2 := by
    simp only [BitVec.toNat_ushiftRight, BitVec.toNat_add, Nat.shiftRight_one]
    omega
  have hU : (lane16 x k + (lane16 above k + lane16 left k) >>> 1).toNat =
      (lane16 x k).toNat + ((lane16 left k).toNat + (lane16 above k).toNat) / 2 := by
    simp only [BitVec.toNat_ushiftRight, BitVec.toNat_add, Nat.shiftRight_one]
    omega
  cases b <;>
    simp only [avgLanes, lane16_vand, lane16_m00FF hk, lane16_vsrlw _ _ hk, lane16_vaddw _ _ hk, lane16_and_00FF, hT,
      hU, BitVec.toNat_ofNat] <;> omega

theorem paethLanes_reconstruct : LanesReconstruct .paeth paethLanes := by
  intro x above aboveLeft left k hk hx ha hc hl
  have hlt := paethSelect_lt hl ha hc
  rw [← paethRef_eq_paethSelect] at hlt
  rw [recon, sumMod256_eq, paethLanes, lane16_vand, lane16_m00FF hk, lane16_and_00FF, lane16_vaddw _ _ hk,
    BitVec.toNat_ofNat, BitVec.toNat_add, toNat_lane16_paeth16 hk hl ha hc]
  omega

/-- A byte widened to 16 bits is the same number. -/
theorem toNat_widened (x : Byte) : (x.setWidth 16).toNat = x.toNat := by
  have := x.isLt
  rw [BitVec.toNat_setWidth]
  omega

theorem widened_lt (x : Byte) : (x.setWidth 16).toNat < 256 := (toNat_widened x).trans_lt x.isLt

/-- What holds of the lanes of both registers of a pair holds of the pair's lanes. -/
theorem wide_of_halves {P : Nat → Half → Prop} {o : V128 × V128} (hlow : ∀ k < 8, P k (lane16 o.1 k))
    (hhigh : ∀ k < 8, P (8 + k) (lane16 o.2 k)) {k : Nat} (hk : k < 16) : P k (wide o k) := by
  rw [wide]
  split
  · exact hlow k ‹_›
  · have := hhigh (k - 8) (by omega)
    rwa [show 8 + (k - 8) = k by omega] at this

theorem wide_low {o : V128 × V128} {k : Nat} (hk : k < 8) : wide o k = lane16 o.1 k := if_pos hk

theorem wide_high (o : V128 × V128) (k : Nat) : wide o (8 + k) = lane16 o.2 k := by
  rw [wide, if_neg (by omega), show 8 + k - 8 = k by omega]

/-- The two registers of a stage are the low and the high half of its lanes. -/
theorem LanesReconstruct.laneStage {f : Filter} {g : V128 → V128 → V128 → V128 → V128} (hg : LanesReconstruct f g)
    (xb bb cb : V128) : ReconstructsLanes f xb bb cb (laneStage g xb bb cb) := by
  intro l hl k hk
  refine wide_of_halves (P := fun k v => v.toNat = recon f (lane8 xb k).toNat (wide l k).toNat (lane8 bb k).toNat
    (lane8 cb k).toNat) (fun k hk => ?_) (fun k hk => ?_) hk
  · have hlk := hl k (by omega)
    rw [wide_low hk] at hlk ⊢
    have h := hg (vunpklbw xb zeroV) (vunpklbw bb zeroV) (vunpklbw cb zeroV) l.1 k hk
    simp only [lane16_vunpklbw_zero _ hk, toNat_widened] at h
    exact h (BitVec.isLt _) (BitVec.isLt _) (BitVec.isLt _) hlk
  · have hlk := hl (8 + k) (by omega)
    rw [wide_high] at hlk ⊢
    have h := hg (vunpkhbw xb zeroV) (vunpkhbw bb zeroV) (vunpkhbw cb zeroV) l.2 k hk
    simp only [lane16_vunpkhbw_zero _ hk, toNat_widened] at h
    exact h (BitVec.isLt _) (BitVec.isLt _) (BitVec.isLt _) hlk

/-! ### What the stages of a block leave -/

theorem CarryW.lane_lt {b : Bpp} {s : State} (h : CarryW b s) (j : Nat) : (lane16 s.cw j).toNat < 256 := by
  by_cases hj : j < b.toNat
  · rw [h.cw j hj]
    exact widened_lt _
  · rw [h.cwz j (by omega)]
    decide

section

variable {f : Filter} {b : Bpp} {s : State} {xb bb cb : V128} {stage : V128 × V128 → V128 × V128} {m size : Nat}
  (hst : ReconstructsLanes f xb bb cb stage) (hc : CarryW b s)
include hst hc

/-- The lanes after every number of stages are bytes. -/
theorem stages_byte {k : Nat} (hk : k < 16) : (wide (stages b s.cw stage m) k).toNat < 256 :=
  (stages_recNat (F := fun k x => recon f (lane8 xb k).toNat x (lane8 bb k).toNat (lane8 cb k).toNat) hc.cwz
    hc.lane_lt (fun k _ => recon_lt f (lane8 xb k).isLt _ _ _) hst m).1 k hk

/-- The stages reconstruct the bytes they cover, from a carry that holds the bytes before I. -/
theorem stages_reconstruct (hx : ∀ k < size, lane8 xb k = s.payload (s.i.toNat + k))
    (hb : ∀ k < size, lane8 bb k = s.above (s.i.toNat + k))
    (hcb : ∀ k < size, lane8 cb k = s.above (s.i.toNat - b.toNat + k)) (hsize : size ≤ 16)
    (hm : size ≤ m * b.toNat) :
    BlockReconstructs f b size s
      (lane8 (vpackuswb (stages b s.cw stage m).1 (stages b s.cw stage m).2)) := by
  intro k hk
  have hlane := (stages_recNat (F := fun k x => recon f (lane8 xb k).toNat x (lane8 bb k).toNat (lane8 cb k).toNat)
    hc.cwz hc.lane_lt (fun k _ => recon_lt f (lane8 xb k).isLt _ _ _) hst m).2 k (by omega) (by omega)
  have hbyte := fun k hk => stages_byte (m := m) (k := k) hst hc hk
  rw [lane8_pack hbyte (by omega), hlane, hx k hk, hb k hk, hcb k hk]
  by_cases hkb : k < b.toNat
  · rw [if_pos hkb, if_pos hkb, hc.cw k hkb, toNat_widened]
  · rw [if_neg hkb, if_neg hkb, lane8_pack hbyte (by omega)]

end

/-- A lane of byte range is the byte it packs to, widened. -/
theorem wide_eq_widened {o : V128 × V128} (h : ∀ k < 16, (wide o k).toNat < 256) {k : Nat} (hk : k < 16) :
    wide o k = (lane8 (vpackuswb o.1 o.2) k).setWidth 16 :=
  BitVec.eq_of_toNat_eq (by rw [toNat_widened, lane8_pack h hk])

/-! ### The 16-byte blocks (R215, R234) -/

/-- The register pair of the 16-byte block at I (R216, R239). -/
def blockPair (b : Bpp) (g : V128 → V128 → V128 → V128 → V128) (s : State) : V128 × V128 :=
  stages b s.cw (laneStage g (vld16a s.mem (s.p + s.i.toNat)) (s.uvec16 s.i.toNat) (s.uvec16 (s.i.toNat - b.toNat)))
    (stageCount b)

/-- A block that stores its packed register pair and leaves the last lanes in CW finishes 16 bytes. -/
theorem pairBlock_finishes {f : Filter} {b : Bpp} {s : State} {block : State → State}
    {g : V128 → V128 → V128 → V128 → V128} (hg : LanesReconstruct f g) (ha : s.y = 0#32 ∨ s.u + s.n ≤ s.p)
    (hsame : ∀ t, SameRow t (block t))
    (hmem : ∀ t, (block t).mem = t.mem.writeBytes (t.p + t.i.toNat)
      (lane8 (vpackuswb (blockPair b g t).1 (blockPair b g t).2)) 16)
    (hcw : ∀ t, (block t).cw = vsrldq (blockPair b g t).2 (16 - 2 * b.toNat))
    (hi : ∀ t, (block t).i = BitVec.ofNat 32 (t.i.toNat + 16)) :
    FinishesBlock f b 16 s (CarryW b) block := fun k t h hc hk => by
  have hle := Bpp.toNat_le b
  have hst := hg.laneStage (vld16a t.mem (t.p + t.i.toNat)) (t.uvec16 t.i.toNat) (t.uvec16 (t.i.toNat - b.toNat))
  have hstored := h.storedAtIndex hk (hsame t) (hmem t) (hi t)
  have hcw' : ∀ j < 8, lane16 (block t).cw j = lane16 (blockPair b g t).2 (j + (8 - b.toNat)) := fun j hj => by
    rw [hcw, show 16 - 2 * b.toNat = 2 * (8 - b.toNat) by omega, lane16_vsrldq_even _ _ hj]
  refine ⟨h.store ha hk (hsame t) (hmem t) (hi t) (stages_reconstruct hst hc (fun j hj => ?_)
    (fun j hj => lane8_uvec16 hj) (fun j hj => lane8_uvec16 hj) (Nat.le_refl 16) (stageCount_covers b)),
    ⟨fun j hj => ?_, fun j hj => ?_⟩⟩
  · rw [lane8_vld16a _ _ hj, State.payload, Nat.add_assoc]
  · rw [hstored.payload_last (by omega) hj,
      ← wide_eq_widened (o := blockPair b g t) (fun k hk => stages_byte hst hc hk) (by omega), hcw' j (by omega),
      ← wide_high]
    congr 1
    omega
  · by_cases h8 : j < 8
    · rw [hcw' j h8, lane16_of_ge _ (by omega)]
    · exact lane16_of_ge _ (by omega)

theorem avgBlock16_finishes (b : Bpp) {s : State} (ha : s.y = 0#32 ∨ s.u + s.n ≤ s.p) :
    FinishesBlock .avg b 16 s (CarryW b) (avgBlock16 b) :=
  pairBlock_finishes (avgLanes_reconstruct b) ha (sameRow_avgBlock16 b) (avgBlock16_mem b) (avgBlock16_cw b)
    (avgBlock16_i b)

theorem paethBlock16_finishes (b : Bpp) {s : State} (ha : s.y = 0#32 ∨ s.u + s.n ≤ s.p) :
    FinishesBlock .paeth b 16 s (CarryW b) (paethBlock16 b) :=
  pairBlock_finishes paethLanes_reconstruct ha (sameRow_paethBlock16 b) (paethBlock16_mem b) (paethBlock16_cw b)
    (paethBlock16_i b)

/-! ### The 8-byte PAETH block (R235) -/

/-- The single register of the 8-byte block is the low register of the pair that the 16-byte stages make. -/
theorem paethOut3_eq_stages (xb bb cb cw : V128) (m : Nat) :
    paethOut3 (vunpklbw xb zeroV) (vunpklbw bb zeroV) (vunpklbw cb zeroV) cw m =
      (stages .b3 cw (laneStage paethLanes xb bb cb) m).1 := by
  induction m with
  | zero => rfl
  | succ m ih => rw [paethOut3, ih]; rfl

theorem lane8_vpackuswb_low {a b b' : V128} {k : Nat} (hk : k < 8) :
    lane8 (vpackuswb a b) k = lane8 (vpackuswb a b') k := by
  rw [lane8_vpackuswb _ _ (by omega), lane8_vpackuswb _ _ (by omega), if_pos hk, if_pos hk]

theorem BlockReconstructs.congr {f : Filter} {b : Bpp} {size : Nat} {s : State} {out out' : Nat → Byte}
    (h : BlockReconstructs f b size s out) (he : ∀ j < size, out' j = out j) : BlockReconstructs f b size s out' :=
  fun j hj => by rw [he j hj, he (j - b.toNat) (by omega)]; exact h j hj

theorem paethBlock8_finishes {s : State} (ha : s.y = 0#32 ∨ s.u + s.n ≤ s.p) :
    FinishesBlock .paeth .b3 8 s (CarryW .b3) paethBlock8 := fun k t h hc hk => by
  have hst := paethLanes_reconstruct.laneStage (vld8 t.mem (t.p + t.i.toNat)) (t.uvec8 t.i.toNat)
    (t.uvec8 (t.i.toNat - 3))
  have hmem := paethBlock8_mem t
  have hcw := paethBlock8_cw t
  rw [paethOut3_eq_stages] at hmem hcw
  have hstored := h.storedAtIndex hk (sameRow_paethBlock8 t) hmem (paethBlock8_i t)
  have hcw' : ∀ j < 8, lane16 (paethBlock8 t).cw j = _ := fun j hj =>
    (congrArg (lane16 · j) hcw).trans (lane16_vsrldq_even _ 5 hj)
  refine ⟨h.store ha hk (sameRow_paethBlock8 t) hmem (paethBlock8_i t)
    ((stages_reconstruct (m := 3) hst hc (fun j hj => ?_) (fun j hj => lane8_uvec8 hj) (fun j hj => lane8_uvec8 hj)
      (by decide) (by decide)).congr fun j hj => lane8_vpackuswb_low hj), ⟨fun j hj => ?_, fun j hj => ?_⟩⟩
  · rw [lane8_vld8 _ _ (by omega), if_pos hj, State.payload, Nat.add_assoc]
  · have hj3 : j < 3 := hj
    have hlow : 8 - Bpp.b3.toNat + j < 8 := by simp only [Bpp.toNat]; omega
    rw [hstored.payload_last (by decide) hj, lane8_vpackuswb_low (b' := (stages .b3 t.cw _ 3).2) hlow,
      ← wide_eq_widened (fun k hk => stages_byte hst hc hk) (by omega), wide_low hlow, hcw' j (by omega),
      Nat.add_comm j]
    rfl
  · by_cases h8 : j < 8
    · have hj3 : 3 ≤ j := hj
      rw [hcw' j h8, lane16_of_ge _ (by omega)]
    · exact lane16_of_ge _ (by omega)

end Sys2Proof.Machine
end

section
/-! Every row instruction reconstructs its row (41_scalar_filters.md R121 to R127; 43, 44, 45): the scalar loops, the
two scalar walks of the SIMD kernel, and the rows of the SIMD kernel from their blocks. -/

namespace Sys2Proof.Machine

/-! ### The AVG walk at one byte per pixel (R212) -/

/-- T0 holds the last reconstructed byte (R39). -/
def RunningHolds (t : State) : Prop := t.t0.toNat = (t.payload (t.i.toNat - 1)).toNat

/-- A step of the walk finishes the byte whose doubled value and byte above are in the lane. -/
theorem avgWalk_at {base j : Nat} {s t : State} {v : V128} (h : RowAt .avg .b1 (base + j) s t) (ht : RunningHolds t)
    (hk : base + j < s.n)
    (hv : (lane16 v j).toNat = 2 * (s.payload (base + j)).toNat + (s.above (base + j)).toNat) :
    RowAt .avg .b1 (base + j + 1) s (avgWalk v base j t) ∧ RunningHolds (avgWalk v base j t) := by
  set e := ((t.t0.toNat + (lane16 v j).toNat) >>> 1) &&& 0xFF with he
  have hrecon : e = recon .avg (s.payload (base + j)).toNat (t.payload (base + j - 1)).toNat
      (s.above (base + j)).toNat (s.above (base + j - 1)).toNat := by
    rw [he, hv, ht, h.i, recon, and_255, sumMod256_eq, avg_eq_div, Nat.shiftRight_one]
    omega
  have hlt : e < 256 := hrecon ▸ recon_lt .avg (s.payload (base + j)).isLt _ _ _
  obtain ⟨hrow, hpay⟩ := h.byte (r := avgWalk v base j t) hk { sameRow_setPayload t (base + j) e with } rfl rfl hrecon
  refine ⟨hrow, ?_⟩
  rw [RunningHolds, hrow.i, Nat.add_sub_cancel, hpay]
  show (BitVec.ofNat 32 e).toNat = _
  rw [BitVec.toNat_ofNat, BitVec.toNat_ofNat, Nat.mod_eq_of_lt (by omega), Nat.mod_eq_of_lt hlt]

theorem avgTurn8_finishes {s : State} (ha : s.y = 0#32 ∨ s.u + s.n ≤ s.p) :
    FinishesBlock .avg .b1 8 s RunningHolds avgTurn8 := fun k t h ht hk => by
  have hblock : RowAt .avg .b1 (k + 8) s (avgBlock8 t) ∧ RunningHolds (avgBlock8 t) := by
    rw [avgBlock8, h.i]
    refine forUp_induct (P := fun j r => RowAt .avg .b1 (k + j) s r ∧ RunningHolds r) ⟨h, ht⟩ ?_
    rintro j hj r ⟨hr, hrt⟩
    rw [Nat.zero_add]
    refine avgWalk_at hr hrt (by omega) ?_
    rw [lane16_vaddw _ _ hj, lane16_vaddw _ _ hj, lane16_vunpklbw_zero _ hj, lane16_vunpklbw_zero _ hj,
      lane8_vld8 _ _ (by omega), if_pos hj, lane8_uvec8 hj, h.prog.above ha (by omega), ← h.prog.payload_raw (by omega),
      BitVec.toNat_add, BitVec.toNat_add, toNat_widened, toNat_widened, State.payload, Nat.add_assoc t.p]
    have := (t.mem.read (t.p + (k + j))).isLt
    have := (s.above (k + j)).isLt
    omega
  obtain ⟨hrow, hrun⟩ := hblock
  exact ⟨hrow.seedCarry .b1, hrun⟩

/-! ### The rolling words of PAETH at one byte per pixel (R232) -/

/-- PZ holds the last reconstructed byte and UZ the byte above it (R39). -/
def RollingHolds (s t : State) : Prop :=
  t.pz.toNat = (t.payload (t.i.toNat - 1)).toNat ∧ t.uz.toNat = (s.above (t.i.toNat - 1)).toNat

theorem paethRoll_at {k : Nat} {s t : State} (h : RowAt .paeth .b1 k s t) (ht : RollingHolds s t)
    (ha : s.y = 0#32 ∨ s.u + s.n ≤ s.p) (hk : k < s.n) :
    RowAt .paeth .b1 (k + 1) s (paethRoll k t) ∧ RollingHolds s (paethRoll k t) := by
  obtain ⟨hpz, huz⟩ := ht
  rw [h.i] at hpz huz
  set e := sumMod256 (t.payload k).toNat (paethOpt t.pz.toNat (t.above k).toNat t.uz.toNat) with he
  have hrecon : e = recon .paeth (s.payload k).toNat (t.payload (k - 1)).toNat (s.above k).toNat
      (s.above (k - 1)).toNat := by
    have := (t.payload (k - 1)).isLt
    have := (s.above k).isLt
    have := (s.above (k - 1)).isLt
    rw [he, hpz, huz, h.prog.payload_raw (Nat.le_refl k), h.prog.above ha hk, recon, paethRef_eq_paethSelect,
      paethOpt_eq_paethSelect (by omega) (by omega) (by omega)]
  have hlt : e < 256 := sumMod256_lt _ _
  obtain ⟨hrow, hpay⟩ := h.byte (r := paethRoll k t) hk { sameRow_setPayload t k e with } rfl rfl hrecon
  refine ⟨hrow, ?_, ?_⟩
  · rw [hrow.i, Nat.add_sub_cancel, hpay]
    show (BitVec.ofNat 32 e).toNat = _
    rw [BitVec.toNat_ofNat, BitVec.toNat_ofNat, Nat.mod_eq_of_lt (by omega), Nat.mod_eq_of_lt hlt]
  · rw [hrow.i, Nat.add_sub_cancel, ← h.prog.above ha hk]
    show (BitVec.ofNat 32 (t.above k).toNat).toNat = _
    have := (t.above k).isLt
    rw [BitVec.toNat_ofNat, Nat.mod_eq_of_lt (by omega)]

/-- The rolling words carry the row to its end. -/
theorem paethBody1_at {k : Nat} {s t : State} (h : RowAt .paeth .b1 k s t) (ha : s.y = 0#32 ∨ s.u + s.n ≤ s.p) :
    RowAt .paeth .b1 s.n s (paethBody1 t) := by
  have hle := h.le
  have hge : 1 ≤ k := h.ge
  rw [paethBody1, forRange, h.i, h.prog.same.n_eq]
  set r : State := { t with pz := (t.payload (k - 1)).setWidth 32, uz := (t.above (k - 1)).setWidth 32 } with hr
  have hrow : RowAt .paeth .b1 k s r := ⟨h.prog.congr { SameRow.refl t with } rfl, h.i, h.ge, h.le⟩
  have hwide : ∀ x : Byte, (x.setWidth 32).toNat = x.toNat := fun x => by
    have := x.isLt
    rw [BitVec.toNat_setWidth, Nat.mod_eq_of_lt (by omega)]
  have hroll : RollingHolds s r := by
    refine ⟨?_, ?_⟩
    · rw [hrow.i]
      exact hwide _
    · rw [hrow.i, ← h.prog.above ha (by omega)]
      exact hwide _
  have := forUp_induct (f := paethRoll) (lo := k) (count := s.n - k) (s := r)
    (P := fun j r => RowAt .paeth .b1 (k + j) s r ∧ RollingHolds s r) ⟨hrow, hroll⟩
    fun j hj q ⟨hq, hqr⟩ => paethRoll_at hq hqr ha (show k + j < s.n by omega)
  rw [Nat.add_sub_cancel' hle] at this
  exact this.1

/-! ### The rows of the SIMD kernel (R181) -/

/-- A body that seeds the carry and runs its blocks where one fits keeps the row on the way (R184, R185). -/
theorem RowAt.seededBlocks {f : Filter} {b : Bpp} {k size : Nat} {s t : State} {block : State → State}
    (h : RowAt f b k s t) (hsize : 0 < size) (hblock : FinishesBlock f b size s (CarryW b) block) :
    ∃ k', RowAt f b k' s (if size ≤ t.n - t.i.toNat then blocks size block (t.seedCarry b) else t) := by
  split
  · obtain ⟨k', h', _⟩ := hblock.blocks hsize (h.seedCarry b) h.carryW_seed
    exact ⟨k', h'⟩
  · exact ⟨k, h⟩

section

variable {b : Bpp} {s : State}

theorem avgRow1_progress (hr : s.RowReady .avg) (hb : Bpp.b1.toNat = s.bpp.toNat) :
    Progress .avg Bpp.b1.toNat s.n s (avgRow1 s) := by
  have h := simdRow_progress (body := avgBody1) hr hb fun k t ht _ => by
    rw [avgBody1]
    split
    · have hseed := ht.seedCarry .b1
      have hrow : RowAt .avg .b1 k s { t.seedCarry .b1 with t0 := (t.payload (t.i.toNat - 1)).setWidth 32 } :=
        ⟨hseed.prog.congr { SameRow.refl (t.seedCarry .b1) with } rfl, hseed.i, hseed.ge, hseed.le⟩
      have hrun : RunningHolds { t.seedCarry .b1 with t0 := (t.payload (t.i.toNat - 1)).setWidth 32 } := by
        have := (t.payload (t.i.toNat - 1)).isLt
        show ((t.payload (t.i.toNat - 1)).setWidth 32).toNat = _
        rw [BitVec.toNat_setWidth, Nat.mod_eq_of_lt (by omega)]
        rfl
      obtain ⟨k', h', _⟩ := (avgTurn8_finishes hr.apart).blocks (by decide) hrow hrun
      exact ⟨k', h'⟩
    · exact ⟨k, ht⟩
  exact (((h.congr (sameRow_dropIndex _) rfl).congr (sameRow_dropVectors _) rfl).congr (sameRow_dropRunning _)
    rfl).congr (sameRow_dropCarry _) rfl

theorem avgRowScalar_progress (hr : s.RowReady .avg) (hb : b.toNat = s.bpp.toNat) :
    Progress .avg b.toNat s.n s (avgRowScalar b s) :=
  (simdRow_progress (body := id) hr hb fun k _ ht _ => ⟨k, ht⟩).congr (sameRow_dropIndex _) rfl

theorem avgRow16_progress (hr : s.RowReady .avg) (hb : b.toNat = s.bpp.toNat) :
    Progress .avg b.toNat s.n s (avgRow16 b s) :=
  (((simdRow_progress (body := avgBody16 b) hr hb fun _ _ ht _ =>
    ht.seededBlocks (by decide) (avgBlock16_finishes b hr.apart)).congr (sameRow_dropIndex _) rfl).congr
      (sameRow_dropVectors _) rfl).congr (sameRow_dropCarry _) rfl

theorem paethRow1_progress (hr : s.RowReady .paeth) (hb : Bpp.b1.toNat = s.bpp.toNat) :
    Progress .paeth Bpp.b1.toNat s.n s (paethRow1 s) :=
  ((simdRow_progress (body := paethBody1) hr hb fun _ _ ht _ => ⟨s.n, paethBody1_at ht hr.apart⟩).congr
    (sameRow_dropIndex _) rfl).congr (sameRow_dropRolling _) rfl

theorem paethRow2_progress (hr : s.RowReady .paeth) (hb : Bpp.b2.toNat = s.bpp.toNat) :
    Progress .paeth Bpp.b2.toNat s.n s (paethRow2 s) :=
  (simdRow_progress (body := id) hr hb fun k _ ht _ => ⟨k, ht⟩).congr (sameRow_dropIndex _) rfl

theorem paethRow3_progress (hr : s.RowReady .paeth) (hb : Bpp.b3.toNat = s.bpp.toNat) :
    Progress .paeth Bpp.b3.toNat s.n s (paethRow3 s) :=
  (((simdRow_progress (body := paethBody8) hr hb fun _ _ ht _ =>
    ht.seededBlocks (by decide) (paethBlock8_finishes hr.apart)).congr (sameRow_dropIndex _) rfl).congr
      (sameRow_dropVectors _) rfl).congr (sameRow_dropCarry _) rfl

theorem paethRow16_progress (hr : s.RowReady .paeth) (hb : b.toNat = s.bpp.toNat) :
    Progress .paeth b.toNat s.n s (paethRow16 b s) :=
  (((simdRow_progress (body := paethBody16 b) hr hb fun _ _ ht _ =>
    ht.seededBlocks (by decide) (paethBlock16_finishes b hr.apart)).congr (sameRow_dropIndex _) rfl).congr
      (sameRow_dropVectors _) rfl).congr (sameRow_dropCarry _) rfl

/-! ### The base rows (R121 to R125) -/

/-- Bytes that are their own reconstruction are finished as they stand. -/
theorem Progress.untouched {f : Filter} {bpp k : Nat} (hw : s.mem.wf)
    (h : ∀ i < k, recon f (s.payload i).toNat (if bpp ≤ i then (s.payload (i - bpp)).toNat else 0) (s.above i).toNat
      (if bpp ≤ i then (s.above (i - bpp)).toNat else 0) = (s.payload i).toNat) : Progress f bpp k s s :=
  ⟨SameRow.refl s, hw, fun _ _ => rfl, fun i hi => (h i hi).symm⟩

theorem subLoop_progress (hr : s.RowReady .sub) : Progress .sub s.bpp.toNat s.n s (subLoop s.bpp.toNat s) := by
  obtain ⟨hpos, hle, _⟩ := State.geometry_n hr.geometry
  have hprologue : Progress .sub s.bpp.toNat s.bpp.toNat s s :=
    .untouched hr.memWf fun i hi => by rw [recon, if_neg (by omega), sumMod256_zero]
  exact hprologue.addLoop hpos hle fun i r hi _ _ => by rw [recon, if_pos hi]

theorem upLoop_progress (hr : s.RowReady .up) : Progress .up s.bpp.toNat s.n s (upLoop s) := by
  obtain ⟨hpos, _⟩ := State.geometry_n hr.geometry
  exact (Progress.start hr.memWf).addLoop hpos (Nat.zero_le _) fun i r _ hi h => by
    rw [recon, h.above hr.apart hi]

theorem avgLoop_progress (hr : s.RowReady .avg) : Progress .avg s.bpp.toNat s.n s (avgLoop s.bpp.toNat s) := by
  obtain ⟨hpos, hle, _⟩ := State.geometry_n hr.geometry
  have hprologue := (Progress.start (f := .avg) (bpp := s.bpp.toNat) hr.memWf).addLoop
    (g := fun i r => (r.above i).toNat >>> 1) hpos (Nat.zero_le s.bpp.toNat) fun i r _ hi h => by
      rw [recon, if_neg (by omega), avg, Nat.zero_add, h.above hr.apart (by omega)]
  exact hprologue.addLoop hpos hle fun i r hi hn h => by rw [recon, if_pos hi, h.above hr.apart hn]

theorem paethLoop_progress (hr : s.RowReady .paeth) :
    Progress .paeth s.bpp.toNat s.n s (paethLoop s.bpp.toNat s) := by
  obtain ⟨hpos, hle, _⟩ := State.geometry_n hr.geometry
  have hprologue := (Progress.start (f := .paeth) (bpp := s.bpp.toNat) hr.memWf).addLoop
    (g := fun i r => (r.above i).toNat) hpos (Nat.zero_le s.bpp.toNat) fun i r _ hi h => by
      rw [recon, if_neg (by omega), if_neg (by omega), paethRef_eq_paethSelect, paethSelect_zero_left,
        h.above hr.apart (by omega)]
  exact hprologue.addLoop hpos hle fun i r hi hn h => by
    rw [recon, if_pos hi, if_pos hi, h.above hr.apart hn, h.above hr.apart (by omega)]

/-! ### Every row (R127) -/

theorem base_progress {f : Filter} (hr : s.RowReady f) :
    Progress f s.bpp.toNat s.n s (bodyOf (Instr.base f) s) := by
  cases f with
  | none => exact .untouched hr.memWf fun _ _ => rfl
  | sub => exact (subLoop_progress hr).congr (sameRow_dropIndex _) rfl
  | up => exact (upLoop_progress hr).congr (sameRow_dropIndex _) rfl
  | avg => exact (avgLoop_progress hr).congr (sameRow_dropIndex _) rfl
  | paeth => exact (paethLoop_progress hr).congr (sameRow_dropIndex _) rfl

theorem special_progress {f : Filter} (hr : s.RowReady f) (hb : b.toNat = s.bpp.toNat) :
    Progress f b.toNat s.n s (bodyOf (Instr.special f b) s) := by
  cases f with
  | none => cases b <;> exact .untouched hr.memWf fun _ _ => rfl
  | sub => cases b <;> exact subRow_progress hr hb
  | up => cases b <;> exact upRow_progress hr hb
  | avg =>
    cases b with
    | b1 => exact avgRow1_progress hr hb
    | b2 | b3 => exact avgRowScalar_progress hr hb
    | b4 | b6 | b8 => exact avgRow16_progress hr hb
  | paeth =>
    cases b with
    | b1 => exact paethRow1_progress hr hb
    | b2 => exact paethRow2_progress hr hb
    | b3 => exact paethRow3_progress hr hb
    | b4 | b6 | b8 => exact paethRow16_progress hr hb

/-- The unified form: the body of every row instruction reconstructs the row. -/
theorem bodyOf_progress {i : Instr} (hr : s.RowReady i.filter) (hi : s.RunsIn i) :
    Progress i.filter s.bpp.toNat s.n s (bodyOf i s) := by
  obtain ⟨_, he⟩ | ⟨b, hbpp, he⟩ := i.base_or_special
  · rw [he, Instr.filter_base]
    exact base_progress hr
  · have hb := (State.mode_bpp (hi b hbpp)).1
    rw [he, Instr.filter_special, ← hb]
    exact special_progress hr hb

end

end Sys2Proof.Machine
end

section
/-! The row instructions' results and frames (41_scalar_filters.md R121 to R127): what each row leaves in the payload,
and the registers it keeps. -/

namespace Sys2Proof.Machine

/-- A row instruction that can be executed in its mode completes, reconstructs its row, and writes nothing but the
payload and the cursor. -/
theorem exec_reconstructs {i : Instr} {f : Filter} {s : State} (hf : i.filter = f) (hr : s.RowReady f)
    (hi : s.RunsIn i) :
    exec i s = .next (bodyOf i s).advance ∧ RowFrame s (bodyOf i s).advance ∧ CursorAdvanced s (bodyOf i s).advance ∧
      OutsidePayloadKept s (bodyOf i s).advance ∧ Reconstructed f s.bpp.toNat s (bodyOf i s).advance := by
  subst hf
  have h := bodyOf_progress hr hi
  exact ⟨exec_ready hr hi, rowFrame_advance h.same, cursorAdvanced_advance h.same, h.outside, h.done⟩

/-! ### The base rows -/

theorem KeepsWorking.trans {s t r : State} (h1 : KeepsWorking s t) (h2 : KeepsWorking t r) : KeepsWorking s r := by
  obtain ⟨hv, ⟨hc, hcw⟩, ⟨hpz, huz⟩, ht0⟩ := h1
  obtain ⟨hv', ⟨hc', hcw'⟩, ⟨hpz', huz'⟩, ht0'⟩ := h2
  exact ⟨hv'.trans hv, ⟨hc'.trans hc, hcw'.trans hcw⟩, ⟨hpz'.trans hpz, huz'.trans huz⟩, ht0'.trans ht0⟩

theorem KeepsWorking.refl (s : State) : KeepsWorking s s := ⟨rfl, ⟨rfl, rfl⟩, ⟨rfl, rfl⟩, rfl⟩

/-- The loops of the base rows write payload bytes and I. -/
theorem addLoop_working (g : Nat → State → Nat) (lo hi : Nat) (s : State) :
    KeepsWorking s (forRange lo hi (fun i s => s.addPayload i (g i s)) s) :=
  forUp_setPayload_working (fun i s => sumMod256 (s.payload i).toNat (g i s)) _ _ _

/-- A base row keeps the working registers but I. -/
theorem base_working (f : Filter) (s : State) : KeepsWorking s (bodyOf (Instr.base f) s).advance := by
  cases f with
  | none => exact .refl s
  | sub => exact addLoop_working _ _ _ s
  | up => exact addLoop_working _ _ _ s
  | avg => exact (addLoop_working _ _ _ s).trans (addLoop_working _ _ _ _)
  | paeth => exact (addLoop_working _ _ _ s).trans (addLoop_working _ _ _ _)

/-- A sequence in which each number is its own input plus the number `b` places back sums each column of the inputs. -/
theorem column_sum_of_recurrence {b n : Nat} {x y : Nat → Nat} (hb : 0 < b) (hfirst : ∀ i < b, i < n → y i = x i % 256)
    (hlater : ∀ i, b ≤ i → i < n → y i = (x i + y (i - b)) % 256) (i : Nat) :
    i < n → y i = ((List.range (i / b + 1)).map fun j => x (i - j * b)).sum % 256 := by
  induction i using Nat.strong_induction_on with
  | _ i ih =>
    intro hi
    by_cases hbi : b ≤ i
    · have hcolumn : ((List.range (i / b + 1)).map fun j => x (i - j * b)).sum =
          x i + ((List.range ((i - b) / b + 1)).map fun j => x (i - b - j * b)).sum := by
        rw [List.range_succ_eq_map, List.map_cons, List.sum_cons, List.map_map, Nat.zero_mul, Nat.sub_zero,
          Nat.div_eq_sub_div hb hbi]
        congr 3
        funext j
        rw [Function.comp_apply, Nat.succ_mul]
        congr 1
        omega
      rw [hlater i hbi hi, ih (i - b) (by omega) (by omega), hcolumn, Nat.add_mod_mod]
    · rw [hfirst i (by omega) hi, Nat.div_eq_of_lt (by omega)]
      simp

/-- Settles O48: the unified form of SUB, whose left neighbour is 0 at the left edge, and the recurrence of a column. -/
theorem subRowAddsLeft : Obligations.SubRowAddsLeft := by
  refine ⟨rfl, fun s hr => ?_⟩
  obtain ⟨hpos, hle, _⟩ := State.geometry_n hr.geometry
  obtain ⟨hexec, hframe, hcursor, houtside, hrec⟩ := exec_reconstructs (i := .sub) (f := .sub) rfl hr
    (runsIn_base s .sub)
  have hfirst : ∀ i < s.bpp.toNat,
      (bodyOf .sub s).advance.mem.read (s.p + i) = s.mem.read (s.p + i) := fun i hi => by
    apply BitVec.eq_of_toNat_eq
    have h := hrec i (by omega)
    rwa [recon, if_neg (by omega), sumMod256_zero] at h
  have hlater : ∀ i, s.bpp.toNat ≤ i → i < s.n → ((bodyOf .sub s).advance.mem.read (s.p + i)).toNat =
      ((s.mem.read (s.p + i)).toNat + ((bodyOf .sub s).advance.mem.read (s.p + (i - s.bpp.toNat))).toNat) % 256 :=
    fun i hi hn => by
      have h := hrec i hn
      rwa [recon, if_pos hi, sumMod256_eq] at h
  refine ⟨_, hexec, hframe, hcursor, base_working .sub s, houtside, hfirst, hlater, fun i hi => ?_⟩
  refine column_sum_of_recurrence (x := fun i => (s.mem.read (s.p + i)).toNat)
    (y := fun i => ((bodyOf .sub s).advance.mem.read (s.p + i)).toNat) hpos (fun i hi _ => ?_) hlater i hi
  have := (s.mem.read (s.p + i)).isLt
  simp only [hfirst i hi]
  omega

/-- Settles O49: the unified form of UP. -/
theorem upRowAddsAbove : Obligations.UpRowAddsAbove := by
  refine ⟨rfl, fun s hr => ?_⟩
  obtain ⟨hexec, hframe, hcursor, houtside, hrec⟩ := exec_reconstructs (i := .up) (f := .up) rfl hr
    (runsIn_base s .up)
  refine ⟨_, hexec, hframe, hcursor, base_working .up s, houtside, fun i hi => ?_⟩
  have habove : (s.above i).toNat = if s.y = 0 then 0 else (s.mem.read (s.u + i)).toNat := by
    rw [State.above]
    exact apply_ite BitVec.toNat _ _ _
  rw [hrec i hi, recon, sumMod256_eq, habove, State.payload]

/-- Settles O50: the unified form of AVG; at the left edge the mean with 0 is half the byte above. -/
theorem avgRowAddsFloorMean : Obligations.AvgRowAddsFloorMean := by
  refine ⟨rfl, fun s hr => ?_⟩
  obtain ⟨_, hle, _⟩ := State.geometry_n hr.geometry
  obtain ⟨hexec, hframe, hcursor, houtside, hrec⟩ := exec_reconstructs (i := .avg) (f := .avg) rfl hr
    (runsIn_base s .avg)
  refine ⟨_, hexec, hframe, hcursor, base_working .avg s, houtside, fun i hi => ?_, fun i hi hn => ?_⟩
  · rw [hrec i (by omega), recon, if_neg (by omega), avg_eq_div, Nat.zero_add, sumMod256_eq, State.payload]
  · rw [hrec i hn, recon, if_pos hi, avg_eq_div, sumMod256_eq, State.payload]

/-- Settles O51: the unified form of PAETH; at the left edge the predictor is the byte above. -/
theorem paethRowAddsPredictor : Obligations.PaethRowAddsPredictor := by
  refine ⟨rfl, fun s hr => ?_⟩
  obtain ⟨_, hle, _⟩ := State.geometry_n hr.geometry
  obtain ⟨hexec, hframe, hcursor, houtside, hrec⟩ := exec_reconstructs (i := .paeth) (f := .paeth) rfl hr
    (runsIn_base s .paeth)
  refine ⟨_, hexec, hframe, hcursor, base_working .paeth s, houtside, fun i hi => ?_, fun i hi hn => ?_⟩
  · rw [hrec i (by omega), recon, if_neg (by omega), if_neg (by omega), paethRef_eq_paethSelect,
      paethSelect_zero_left, sumMod256_eq, State.payload]
  · rw [hrec i hn, recon, if_pos hi, if_pos hi, sumMod256_eq, State.payload]

/-! ### What the rows of the SIMD kernel keep -/

/-- A register, or several, that payload writes, I and the body leave, a SIMD row leaves. -/
theorem simdRow_keeps_eq {α : Type} (g : State → α) {f : Filter} {b : Bpp} {body : State → State} {s : State}
    (hset : ∀ (s : State) i e, g (s.setPayload i e) = g s) (hi : ∀ (s : State) i, g { s with i := i } = g s)
    (hbody : ∀ t, g (body t) = g t) : g (simdRow f b body s) = g s :=
  simdRow_keeps (R := fun s t => g t = g s) (fun _ _ _ h1 h2 => h2.trans h1) hset hi hbody

theorem blocks_keeps_eq {α : Type} (g : State → α) {size : Nat} {block : State → State} {s : State}
    (h : ∀ t, g (block t) = g t) : g (blocks size block s) = g s :=
  blocks_keeps (R := fun s t => g t = g s) (fun _ => rfl) (fun _ _ _ h1 h2 => h2.trans h1) h

theorem forUp_keeps_eq {α : Type} (g : State → α) {f : Nat → State → State} {lo count : Nat} {s : State}
    (h : ∀ i t, g (f i t) = g t) : g (forUp f lo count s) = g s :=
  forUp_induct (P := fun _ t => g t = g s) rfl fun _ _ t ht => (h _ t).trans ht

/-- PZ, UZ and T0, which a row that works with vectors and carries keeps. -/
def State.scalarWords (s : State) : Word × Word × Word := (s.pz, s.uz, s.t0)

theorem keeps_of_scalarWords {s t : State} (h : t.scalarWords = s.scalarWords) :
    KeepsRolling s t ∧ KeepsRunning s t := by
  simp only [State.scalarWords, Prod.mk.injEq] at h
  obtain ⟨hpz, huz, ht0⟩ := h
  exact ⟨⟨hpz, huz⟩, ht0⟩

@[simp] theorem State.dropIndex_scalarWords (s : State) : s.dropIndex.scalarWords = s.scalarWords := by
  simp only [State.scalarWords, State.dropIndex_pz, State.dropIndex_uz, State.dropIndex_t0]

@[simp] theorem State.dropVectors_scalarWords (s : State) : s.dropVectors.scalarWords = s.scalarWords := by
  simp only [State.scalarWords, State.dropVectors_pz, State.dropVectors_uz, State.dropVectors_t0]

@[simp] theorem State.dropCarry_scalarWords (s : State) : s.dropCarry.scalarWords = s.scalarWords := by
  simp only [State.scalarWords, State.dropCarry_pz, State.dropCarry_uz, State.dropCarry_t0]

@[simp] theorem State.seedCarry_scalarWords (s : State) (b : Bpp) : (s.seedCarry b).scalarWords = s.scalarWords := by
  simp only [State.scalarWords, State.seedCarry_pz, State.seedCarry_uz, State.seedCarry_t0]

theorem subBlock16_scalarWords (b : Bpp) (s : State) : (subBlock16 b s).scalarWords = s.scalarWords := by
  unfold subBlock16 State.scalarWords
  rfl

theorem avgBlock16_scalarWords (b : Bpp) (s : State) : (avgBlock16 b s).scalarWords = s.scalarWords := by
  unfold avgBlock16 State.scalarWords
  rfl

theorem paethBlock8_scalarWords (s : State) : (paethBlock8 s).scalarWords = s.scalarWords := by
  unfold paethBlock8 State.scalarWords
  rfl

theorem paethBlock16_scalarWords (b : Bpp) (s : State) : (paethBlock16 b s).scalarWords = s.scalarWords := by
  unfold paethBlock16 State.scalarWords
  rfl

/-- A row that works with vectors and carries in its body alone. -/
theorem simdRow_scalarWords {f : Filter} {b : Bpp} {body : State → State}
    (hbody : ∀ t, (body t).scalarWords = t.scalarWords) (s : State) :
    (simdRow f b body s).dropIndex.dropVectors.dropCarry.scalarWords = s.scalarWords := by
  rw [State.dropCarry_scalarWords, State.dropVectors_scalarWords, State.dropIndex_scalarWords]
  exact simdRow_keeps_eq State.scalarWords (fun _ _ _ => rfl) (fun _ _ => rfl) hbody

theorem seededBlocks_scalarWords {b : Bpp} {size : Nat} {block : State → State}
    (h : ∀ t, (block t).scalarWords = t.scalarWords) (t : State) :
    (if size ≤ t.n - t.i.toNat then blocks size block (t.seedCarry b) else t).scalarWords = t.scalarWords := by
  split
  · rw [blocks_keeps_eq State.scalarWords h, State.seedCarry_scalarWords]
  · rfl

theorem subBody_scalarWords (b : Bpp) (t : State) : (subBody b t).scalarWords = t.scalarWords := by
  have h64 : ∀ t, (subBlock64 b t).scalarWords = t.scalarWords := fun t =>
    repeatN_induct (P := fun _ r => r.scalarWords = t.scalarWords) rfl fun _ _ r hr =>
      (subBlock16_scalarWords b r).trans hr
  rw [subBody]
  split
  · rw [blocks_keeps_eq State.scalarWords (subBlock16_scalarWords b), blocks_keeps_eq State.scalarWords h64,
      State.seedCarry_scalarWords]
  · rfl

theorem subRow_keeps (b : Bpp) (s : State) : KeepsRolling s (subRow b s) ∧ KeepsRunning s (subRow b s) :=
  keeps_of_scalarWords (simdRow_scalarWords (subBody_scalarWords b) s)

theorem avgRow16_keeps (b : Bpp) (s : State) : KeepsRolling s (avgRow16 b s) ∧ KeepsRunning s (avgRow16 b s) :=
  keeps_of_scalarWords (simdRow_scalarWords (fun t => by
    rw [avgBody16]
    exact seededBlocks_scalarWords (avgBlock16_scalarWords b) t) s)

theorem paethRow16_keeps (b : Bpp) (s : State) : KeepsRolling s (paethRow16 b s) ∧ KeepsRunning s (paethRow16 b s) :=
  keeps_of_scalarWords (simdRow_scalarWords (fun t => by
    rw [paethBody16]
    exact seededBlocks_scalarWords (paethBlock16_scalarWords b) t) s)

theorem paethRow3_keeps (s : State) : KeepsRolling s (paethRow3 s) ∧ KeepsRunning s (paethRow3 s) :=
  keeps_of_scalarWords (simdRow_scalarWords (fun t => by
    rw [paethBody8]
    exact seededBlocks_scalarWords paethBlock8_scalarWords t) s)

/-- A SIMD row whose body works with memory and I alone keeps the working registers. -/
theorem simdRow_working {f : Filter} {b : Bpp} {body : State → State} (hbody : ∀ t, KeepsWorking t (body t))
    (s : State) : KeepsWorking s (simdRow f b body s) :=
  simdRow_keeps (fun _ _ _ => KeepsWorking.trans) (fun s _ _ => .refl s) (fun s _ => .refl s) hbody

theorem upStore16_working (r : Nat) (s : State) : KeepsWorking s (upStore16 r s) := by
  unfold upStore16
  exact ⟨rfl, ⟨rfl, rfl⟩, ⟨rfl, rfl⟩, rfl⟩

theorem bumpIndex_working (s : State) (k : Nat) : KeepsWorking s (s.bumpIndex k) := ⟨rfl, ⟨rfl, rfl⟩, ⟨rfl, rfl⟩, rfl⟩

theorem upBlock64_working (s : State) : KeepsWorking s (upBlock64 s) := by
  rw [upBlock64]
  exact ((((upStore16_working 0 s).trans (upStore16_working 1 _)).trans (upStore16_working 2 _)).trans
    (upStore16_working 3 _)).trans (bumpIndex_working _ _)

theorem upBlock8_working (s : State) : KeepsWorking s (upBlock8 s) := by
  unfold upBlock8
  exact ⟨rfl, ⟨rfl, rfl⟩, ⟨rfl, rfl⟩, rfl⟩

theorem upBody_working (s : State) : KeepsWorking s (upBody s) :=
  (blocks_keeps KeepsWorking.refl (fun _ _ _ => KeepsWorking.trans) upBlock64_working).trans
    (blocks_keeps KeepsWorking.refl (fun _ _ _ => KeepsWorking.trans) upBlock8_working)

theorem upRow_keeps (b : Bpp) (s : State) :
    KeepsCarry s (upRow b s) ∧ KeepsRolling s (upRow b s) ∧ KeepsRunning s (upRow b s) :=
  (simdRow_working (f := .up) (b := b) upBody_working s).2

theorem avgRowScalar_working (b : Bpp) (s : State) : KeepsWorking s (avgRowScalar b s) :=
  simdRow_working (f := .avg) (b := b) (body := id) .refl s

theorem paethRow2_working (s : State) : KeepsWorking s (paethRow2 s) :=
  simdRow_working (f := .paeth) (b := .b2) (body := id) .refl s

/-- PZ and UZ, which the AVG walk keeps: it works with T0 and the carries. -/
def State.rollingWords (s : State) : Word × Word := (s.pz, s.uz)

theorem avgWalk_rollingWords (v : V128) (base k : Nat) (s : State) :
    (avgWalk v base k s).rollingWords = s.rollingWords := by
  unfold avgWalk State.rollingWords
  rfl

theorem avgTurn8_rollingWords (s : State) : (avgTurn8 s).rollingWords = s.rollingWords := by
  rw [avgTurn8, State.rollingWords, State.seedCarry_pz, State.seedCarry_uz, avgBlock8]
  exact forUp_keeps_eq State.rollingWords (avgWalk_rollingWords _ _)

theorem avgRow1_rolling (s : State) : KeepsRolling s (avgRow1 s) := by
  have h : (simdRow .avg .b1 avgBody1 s).rollingWords = s.rollingWords := by
    refine simdRow_keeps_eq State.rollingWords (fun _ _ _ => rfl) (fun _ _ => rfl) fun t => ?_
    rw [avgBody1]
    split
    · rw [blocks_keeps_eq State.rollingWords avgTurn8_rollingWords]
      simp only [State.rollingWords, State.seedCarry_pz, State.seedCarry_uz]
    · rfl
  simp only [State.rollingWords, Prod.mk.injEq] at h
  simp only [KeepsRolling, avgRow1, State.dropCarry_pz, State.dropRunning_pz, State.dropVectors_pz, State.dropIndex_pz,
    State.dropCarry_uz, State.dropRunning_uz, State.dropVectors_uz, State.dropIndex_uz]
  exact h

/-- The registers that the rolling walk of PAETH keeps: it works with PZ and UZ. -/
def State.vectorWords (s : State) : Vector V128 16 × V128 × V128 × Word := (s.v, s.c, s.cw, s.t0)

theorem paethRoll_vectorWords (k : Nat) (s : State) : (paethRoll k s).vectorWords = s.vectorWords := by
  unfold paethRoll State.vectorWords
  rfl

theorem paethBody1_vectorWords (s : State) : (paethBody1 s).vectorWords = s.vectorWords := by
  rw [paethBody1, forRange]
  exact forUp_keeps_eq State.vectorWords paethRoll_vectorWords

theorem paethRow1_keeps (s : State) :
    KeepsVectors s (paethRow1 s) ∧ KeepsCarry s (paethRow1 s) ∧ KeepsRunning s (paethRow1 s) := by
  have h : (simdRow .paeth .b1 paethBody1 s).vectorWords = s.vectorWords :=
    simdRow_keeps_eq State.vectorWords (fun _ _ _ => rfl) (fun _ _ => rfl) paethBody1_vectorWords
  simp only [State.vectorWords, Prod.mk.injEq] at h
  obtain ⟨hv, hc, hcw, ht0⟩ := h
  exact ⟨hv, ⟨hc, hcw⟩, ht0⟩

/-- The specializations of a filter, for each bytes per pixel. -/
theorem mem_specials {f : Filter} {i : Instr} (h : i ∈ [Bpp.b1, .b2, .b3, .b4, .b6, .b8].map (Instr.special f)) :
    ∃ b, i = Instr.special f b := by
  obtain ⟨b, _, hb⟩ := List.mem_map.1 h
  exact ⟨b, hb.symm⟩

theorem subSpecial_keeps (b : Bpp) (s : State) :
    KeepsRolling s (bodyOf (Instr.special .sub b) s) ∧ KeepsRunning s (bodyOf (Instr.special .sub b) s) := by
  cases b <;> exact subRow_keeps _ s

theorem upSpecial_keeps (b : Bpp) (s : State) :
    KeepsCarry s (bodyOf (Instr.special .up b) s) ∧ KeepsRolling s (bodyOf (Instr.special .up b) s) ∧
      KeepsRunning s (bodyOf (Instr.special .up b) s) := by
  cases b <;> exact upRow_keeps _ s

/-- Settles O52: the unified form of SUB, and the scalar words that no SUB block works with. -/
theorem subVectorRowsReconstruct : Obligations.SubVectorRowsReconstruct := by
  intro i hi s hr hrun
  obtain ⟨b, rfl⟩ := mem_specials (f := .sub) hi
  obtain ⟨hexec, hframe, hcursor, houtside, hrec⟩ := exec_reconstructs (Instr.filter_special .sub b) hr hrun
  obtain ⟨hroll, hrunning⟩ := subSpecial_keeps b s
  exact ⟨_, hexec, hframe, hcursor, hroll, hrunning, houtside, hrec⟩

/-- Settles O53: the unified form of UP, whose blocks work with no carry (R199). -/
theorem upVectorRowsReconstruct : Obligations.UpVectorRowsReconstruct := by
  intro i hi s hr hrun
  obtain ⟨b, rfl⟩ := mem_specials (f := .up) hi
  obtain ⟨hexec, hframe, hcursor, houtside, hrec⟩ := exec_reconstructs (Instr.filter_special .up b) hr hrun
  obtain ⟨hcarry, hroll, hrunning⟩ := upSpecial_keeps b s
  exact ⟨_, hexec, hframe, hcursor, hcarry, hroll, hrunning, houtside, hrec⟩

/-- What each AVG specialization keeps: the walk uses T0, the blocks the carries, the scalar fallbacks neither. -/
theorem avgSpecial_keeps (b : Bpp) (s : State) :
    KeepsRolling s (bodyOf (Instr.special .avg b) s) ∧
    (b = .b2 ∨ b = .b3 →
      KeepsCarry s (bodyOf (Instr.special .avg b) s) ∧ KeepsVectors s (bodyOf (Instr.special .avg b) s)) ∧
    (b ≠ .b1 → KeepsRunning s (bodyOf (Instr.special .avg b) s)) := by
  cases b with
  | b1 => exact ⟨avgRow1_rolling s, fun h => absurd h (by decide), fun h => absurd rfl h⟩
  | b2 | b3 =>
    obtain ⟨hv, hcarry, hroll, hrunning⟩ := avgRowScalar_working _ s
    exact ⟨hroll, fun _ => ⟨hcarry, hv⟩, fun _ => hrunning⟩
  | b4 | b6 | b8 =>
    obtain ⟨hroll, hrunning⟩ := avgRow16_keeps _ s
    exact ⟨hroll, fun h => absurd h (by decide), fun _ => hrunning⟩

/-- Settles O54: the unified form of AVG, and what each of its paths keeps. -/
theorem avgVectorRowsReconstruct : Obligations.AvgVectorRowsReconstruct := by
  intro i hi s hr hrun
  obtain ⟨b, rfl⟩ := mem_specials (f := .avg) hi
  obtain ⟨hexec, hframe, hcursor, houtside, hrec⟩ := exec_reconstructs (Instr.filter_special .avg b) hr hrun
  obtain ⟨hroll, hscalar, hrunning⟩ := avgSpecial_keeps b s
  have hbpp : ∀ {b'}, Instr.special .avg b = Instr.special .avg b' → b = b' := fun h => (Instr.special_inj h).1
  exact ⟨_, hexec, hframe, hcursor, hroll, fun h => hscalar (h.imp (hbpp (b' := .b2)) (hbpp (b' := .b3))),
    fun h => hrunning fun hb => h (congrArg _ hb), houtside, hrec⟩

/-- What each PAETH specialization keeps: the walk uses the rolling words, the blocks the carries, the scalar fallback
neither. -/
theorem paethSpecial_keeps (b : Bpp) (s : State) :
    KeepsRunning s (bodyOf (Instr.special .paeth b) s) ∧
    (b = .b1 ∨ b = .b2 →
      KeepsVectors s (bodyOf (Instr.special .paeth b) s) ∧ KeepsCarry s (bodyOf (Instr.special .paeth b) s)) ∧
    (b ≠ .b1 → KeepsRolling s (bodyOf (Instr.special .paeth b) s)) := by
  cases b with
  | b1 =>
    obtain ⟨hv, hcarry, hrunning⟩ := paethRow1_keeps s
    exact ⟨hrunning, fun _ => ⟨hv, hcarry⟩, fun h => absurd rfl h⟩
  | b2 =>
    obtain ⟨hv, hcarry, hroll, hrunning⟩ := paethRow2_working s
    exact ⟨hrunning, fun _ => ⟨hv, hcarry⟩, fun _ => hroll⟩
  | b3 =>
    obtain ⟨hroll, hrunning⟩ := paethRow3_keeps s
    exact ⟨hrunning, fun h => absurd h (by decide), fun _ => hroll⟩
  | b4 | b6 | b8 =>
    obtain ⟨hroll, hrunning⟩ := paethRow16_keeps _ s
    exact ⟨hrunning, fun h => absurd h (by decide), fun _ => hroll⟩

/-- Settles O55: the unified form of PAETH, and what each of its paths keeps. -/
theorem paethVectorRowsReconstruct : Obligations.PaethVectorRowsReconstruct := by
  intro i hi s hr hrun
  obtain ⟨b, rfl⟩ := mem_specials (f := .paeth) hi
  obtain ⟨hexec, hframe, hcursor, houtside, hrec⟩ := exec_reconstructs (Instr.filter_special .paeth b) hr hrun
  obtain ⟨hrunning, hscalar, hroll⟩ := paethSpecial_keeps b s
  have hbpp : ∀ {b'}, Instr.special .paeth b = Instr.special .paeth b' → b = b' := fun h => (Instr.special_inj h).1
  exact ⟨_, hexec, hframe, hcursor, hrunning, fun h => hscalar (h.imp (hbpp (b' := .b1)) (hbpp (b' := .b2))),
    fun h => hroll fun hb => h (congrArg _ hb), houtside, hrec⟩

end Sys2Proof.Machine
end

section
/-! What a row's result depends on (41_scalar_filters.md R126, R127, R133; 70_reset_and_hazards.md R303): the raw bytes
and the bytes above alone, so that row 0 is the row under zeros. -/

namespace Sys2Proof.Machine

/-- Rows of equal raw bytes under equal bytes above are reconstructed to equal bytes, wherever they stand (R127). -/
theorem Progress.read_eq {f : Filter} {bpp k : Nat} {s t s' t' : State} (hb : 0 < bpp) (h : Progress f bpp k s t)
    (h' : Progress f bpp k s' t') (hpayload : ∀ i < k, s.payload i = s'.payload i)
    (habove : ∀ i < k, s.above i = s'.above i) (i : Nat) :
    i < k → t.mem.read (s.p + i) = t'.mem.read (s'.p + i) := by
  induction i using Nat.strong_induction_on with
  | _ i ih =>
    intro hi
    apply BitVec.eq_of_toNat_eq
    rw [h.done i hi, h'.done i hi, hpayload i hi, habove i hi]
    by_cases hbi : bpp ≤ i
    · rw [if_pos hbi, if_pos hbi, if_pos hbi, if_pos hbi, ih (i - bpp) (by omega) (by omega),
        habove (i - bpp) (by omega)]
    · rw [if_neg hbi, if_neg hbi, if_neg hbi, if_neg hbi]

theorem State.above_first {s : State} (hy : s.y = 0#32) (i : Nat) : s.above i = 0#8 := if_pos hy

theorem State.above_later {s : State} (hy : s.y ≠ 0#32) (i : Nat) : s.above i = s.mem.read (s.u + i) := if_neg hy

/-- Settles O57: on row 0 the bytes above are 0, as they are under a row of zeros. -/
theorem firstRowSeesZeroRow : Obligations.FirstRowSeesZeroRow := by
  intro i s s' hr hr' hrun hy hy' hmem hp hbpp hbpl hksel hzero
  have hn : s'.n = s.n := by rw [State.n, State.n, hbpl]
  have hrun' : s'.RunsIn i := fun b hb => by
    rw [State.mode, hksel, hbpp]
    exact hrun b hb
  have h := bodyOf_progress hr hrun
  have h' := bodyOf_progress hr' hrun'
  rw [hbpp, hn] at h'
  obtain ⟨hpos, _⟩ := State.geometry_n hr.geometry
  refine ⟨_, _, exec_ready hr hrun, exec_ready hr' hrun', Memory.ext_read h.memWf h'.memWf fun a => ?_⟩
  show (bodyOf i s).mem.read a = (bodyOf i s').mem.read a
  by_cases ha : s.p ≤ a ∧ a < s.p + s.n
  · have hread := h.read_eq hpos h' (fun j _ => by rw [State.payload, State.payload, hmem, hp])
      (fun j hj => (State.above_first hy j).trans ((State.above_later hy' j).trans (hzero j hj)).symm) (a - s.p)
      (by omega)
    rwa [hp, Nat.add_sub_cancel' ha.1] at hread
  · rw [h.outside a ha, h'.outside a (by rwa [hp]), hmem]

/-- Filters that agree where the bytes above are 0 reconstruct the same row 0 (R126). -/
theorem Progress.first_row {f g : Filter} {bpp k : Nat} {s t : State} (h : Progress f bpp k s t) (hy : s.y = 0#32)
    (he : ∀ (x : Byte) (a : Nat), recon f x.toNat a 0 0 = recon g x.toNat a 0 0) : Progress g bpp k s t := by
  refine ⟨h.same, h.memWf, h.outside, fun i hi => ?_⟩
  have hdone := h.done i hi
  simp only [State.above_first hy, show (0#8).toNat = 0 from rfl, ite_self] at hdone ⊢
  rw [hdone, he]

/-- What PAETH needs, every filter needs at most. -/
theorem State.RowReady.of_paeth {s : State} (h : s.RowReady .paeth) (f : Filter) : s.RowReady f where
  memWf := h.memWf
  geometry := h.geometry
  footprint := by
    obtain ⟨hp, hu⟩ := State.footprintFault_none.1 h.footprint
    exact State.footprintFault_none.2 ⟨fun _ => hp rfl, fun _ => hu rfl⟩
  apart := h.apart

/-- Settles O58: on row 0 UP has the function of NONE and PAETH that of SUB; AVG is the row of R124 with 0 above. -/
theorem firstRowSubstitution : Obligations.FirstRowSubstitution := by
  intro s hr hy
  obtain ⟨hpos, hle, _⟩ := State.geometry_n hr.geometry
  have hprogress : ∀ f, Progress f s.bpp.toNat s.n s (bodyOf (Instr.base f) s) := fun f => base_progress (hr.of_paeth f)
  have hexec : ∀ f, exec (Instr.base f) s = .next (bodyOf (Instr.base f) s).advance := fun f =>
    exec_ready (by rw [Instr.filter_base]; exact hr.of_paeth f) (runsIn_base s f)
  refine ⟨⟨_, hexec .up, ?up⟩, ⟨_, _, hexec .paeth, hexec .sub, ?paeth⟩, ?avg⟩
  case up =>
    have hnone := (hprogress .up).first_row (g := .none) hy fun x _ => sumMod256_zero x
    exact (State.advance_mem _).trans (hnone.mem_unique hpos (hprogress .none))
  case paeth =>
    have hsub := (hprogress .paeth).first_row (g := .sub) hy fun x a => by
      rw [recon, recon, paethRef_eq_paethSelect, paethSelect_comm, paethSelect_zero_left]
    rw [State.advance_mem, State.advance_mem]
    exact hsub.mem_unique hpos (hprogress .sub)
  case avg =>
    obtain ⟨t, ht, _, _, _, _, hfirst, hlater⟩ := avgRowAddsFloorMean.2 s (hr.of_paeth .avg)
    refine ⟨t, ht, fun i hi => ?_, fun i hi hn => ?_⟩
    · have := (s.mem.read (s.p + i)).isLt
      apply BitVec.eq_of_toNat_eq
      rw [hfirst i hi, State.above_first hy]
      simp only [BitVec.toNat_ofNat]
      omega
    · rw [hlater i hi hn, State.above_first hy]
      rfl

end Sys2Proof.Machine
end

section
/-! Two invocations of the same image go the same way (41_scalar_filters.md R133; 43_simd_sub_up_none.md R186;
70_reset_and_hazards.md R303): the two engines stand at the same row with the same image after each engine step. -/

namespace Sys2Proof.Machine

/-- Two engines in the same situation: the same status and fault record, the same row of an image of the same measures,
and the same bytes of it, at whatever address each has its buffer. -/
structure SameSituation (s s' : State) : Prop where
  status : s.status = s'.status
  h : s.h = s'.h
  bpp : s.bpp = s'.bpp
  bpl : s.bpl = s'.bpl
  y : s.y = s'.y
  fault : s.status = .fault → s.fcause = s'.fcause ∧ s.frow = s'.frow ∧ s.fbyte = s'.fbyte
  image : ∀ o < s.h.toNat * s.bpl.toNat, s.mem.read (s.buf + o) = s'.mem.read (s'.buf + o)

namespace SameSituation

variable {s s' : State} (h : SameSituation s s')
include h

theorem n_eq : s.n = s'.n := by rw [State.n, State.n, h.bpl]

theorem fetch : SameSituation s.fetch s'.fetch := { h with }

/-- The offset of the row at the second cursor is that of the first. -/
theorem cursor (hrun' : s'.Running) : s'.p = s'.buf + s.y.toNat * s.bpl.toNat + 1 := by
  rw [hrun'.cursor, h.y, h.bpl]

section

variable (hrun : s.Running) (hrun' : s'.Running)
include hrun hrun'

theorem filterByte : s.mem.read (s.p - 1) = s'.mem.read (s'.p - 1) := by
  have hrows := rows_le s.bpl.toNat hrun.row
  have hbpl := hrun.bpl_eq
  have := h.image (s.y.toNat * s.bpl.toNat) (by omega)
  rwa [h.cursor hrun', hrun.cursor, Nat.add_sub_cancel, Nat.add_sub_cancel]

theorem payload {i : Nat} (hi : i < s.n) : s.payload i = s'.payload i := by
  have hrows := rows_le s.bpl.toNat hrun.row
  have hbpl := hrun.bpl_eq
  have := h.image (s.y.toNat * s.bpl.toNat + (1 + i)) (by omega)
  rw [State.payload, State.payload, h.cursor hrun', hrun.cursor]
  simpa only [Nat.add_assoc] using this

theorem above {i : Nat} (hi : i < s.n) : s.above i = s'.above i := by
  by_cases hy : s.y = 0#32
  · rw [State.above_first hy, State.above_first (h.y ▸ hy)]
  · have hy' : s'.y ≠ 0#32 := h.y ▸ hy
    have hrow := hrun.row
    have hrows := rows_le (k := s.y.toNat - 1) (h := s.h.toNat) s.bpl.toNat (by omega)
    have hbpl := hrun.bpl_eq
    have := h.image ((s.y.toNat - 1) * s.bpl.toNat + (1 + i)) (by omega)
    rw [State.above_later hy, State.above_later hy', hrun.above hy, hrun'.above hy', ← h.y, ← h.bpl]
    simpa only [Nat.add_assoc] using this

/-- After the same filter's row the two stand at the next row, or in DONE, with the same image. -/
theorem row {f : Filter} {r r' : State} (hr : Progress f s.bpp.toNat s.n s r)
    (hr' : Progress f s'.bpp.toNat s'.n s' r') : SameSituation r.advance r'.advance where
  status := by
    rw [State.advance_status, State.advance_status, hr.same.y, hr'.same.y, hr.same.h, hr'.same.h, hr.same.status,
      hr'.same.status, h.y, h.h, h.status]
  h := hr.same.h.trans (h.h.trans hr'.same.h.symm)
  bpp := hr.same.bpp.trans (h.bpp.trans hr'.same.bpp.symm)
  bpl := hr.same.bpl.trans (h.bpl.trans hr'.same.bpl.symm)
  y := by rw [State.advance_y, State.advance_y, hr.same.y, hr'.same.y, h.y]
  fault hf := by
    rw [State.advance_status, hr.same.status, hrun.busy] at hf
    split at hf <;> cases hf
  image o ho := by
    have hpos := (State.geometry_n (State.geometry?_of_wf hrun.wf)).1
    rw [State.advance_h, State.advance_bpl, hr.same.h, hr.same.bpl] at ho
    rw [State.advance_mem, State.advance_mem, State.advance_buf, State.advance_buf, hr.same.buf, hr'.same.buf]
    rw [← h.bpp, ← h.n_eq] at hr'
    have hp := hrun.cursor
    have hp' := h.cursor hrun'
    by_cases hin : s.p ≤ s.buf + o ∧ s.buf + o < s.p + s.n
    · have := hr.read_eq hpos hr' (fun i hi => h.payload hrun hrun' hi) (fun i hi => h.above hrun hrun' hi)
        (s.buf + o - s.p) (by omega)
      rwa [Nat.add_sub_cancel' hin.1, show s'.p + (s.buf + o - s.p) = s'.buf + o by omega] at this
    · rw [hr.outside _ hin, hr'.outside _ (by omega), h.image o ho]

end

end SameSituation

/-- An engine step answers a next state and leaves the buffer's place, its measures and the host's moves. -/
structure EngineStepTo (s t : State) : Prop where
  step : engineStep s = .next t
  kept : ParametersKept s t
  inputs : t.inputs = s.inputs

/-- Engines in the same situation are in the same situation after a step each: they fetch the same filter byte, and the
rows it selects, whatever the kernels, reconstruct the same bytes. -/
theorem SameSituation.engineStep {s s' : State} (h : SameSituation s s') (hi : s.Inv) (hi' : s'.Inv) :
    ∃ t t', EngineStepTo s t ∧ EngineStepTo s' t' ∧ SameSituation t t' := by
  by_cases hb : s.status = .busy
  · have hb' : s'.status = .busy := h.status ▸ hb
    have hrun := hi.running hb
    have hrun' := hi'.running hb'
    have hft := h.filterByte hrun hrun'
    obtain ⟨m, hm, hstep⟩ := engineStep_running hi hb
    obtain ⟨m', hm', hstep'⟩ := engineStep_running hi' hb'
    rw [← hft] at hstep'
    have hto : ∀ {s t : State}, s.status = .busy → Machine.engineStep s = .next t → t.inputs = s.inputs →
        EngineStepTo s t := fun hb hs hin => ⟨hs, (engineStep_busy_frame hb hs).2, hin⟩
    obtain ⟨f, hf, hready, hs⟩ | ⟨h5, hs⟩ := hstep
    · obtain ⟨f', hf', hready', hs'⟩ | ⟨h5, _⟩ := hstep'
      · obtain rfl : f' = f := Option.some.inj (hf'.symm.trans hf)
        have hp := bodyOf_progress (i := Instr.select m f') (by rwa [Instr.filter_select])
          (runsIn_select (s := s.fetch) hm f')
        have hp' := bodyOf_progress (i := Instr.select m' f') (by rwa [Instr.filter_select])
          (runsIn_select (s := s'.fetch) hm' f')
        rw [Instr.filter_select] at hp hp'
        exact ⟨_, _, hto hb hs hp.same.inputs, hto hb' hs' hp'.same.inputs,
          h.fetch.row (hi.fetch.running hb) (hi'.fetch.running hb') hp hp'⟩
      · rw [Filter.ofByte?_eq_none.2 h5] at hf
        cases hf
    · obtain ⟨f', hf', _⟩ | ⟨_, hs'⟩ := hstep'
      · rw [Filter.ofByte?_eq_none.2 h5] at hf'
        cases hf'
      · exact ⟨_, _, hto hb hs rfl, hto hb' hs' rfl,
          { status := rfl, h := h.h, bpp := h.bpp, bpl := h.bpl, y := h.y, fault := fun _ => ⟨rfl, h.y, hft⟩,
            image := h.image }⟩
  · have hstop : ∀ {s : State}, s.status ≠ .busy → EngineStepTo s s := fun hb =>
      ⟨engineStep_stopped hb, ⟨rfl, rfl, rfl, rfl, rfl, rfl, rfl, rfl⟩, rfl⟩
    exact ⟨s, s', hstop hb, hstop (h.status ▸ hb), h⟩

/-! ### Runs with polls (R258) -/

/-- `t` is `s` but for what polls and the passing of time for the host change. -/
def Polled (s t : State) : Prop := ∃ l d g, t = { s with inputs := l, readData := d, fresh := g }

theorem SameSituation.polled {s s' r r' : State} (h : SameSituation s s') (hr : Polled s r) (hr' : Polled s' r') :
    SameSituation r r' := by
  obtain ⟨_, _, _, rfl⟩ := hr
  obtain ⟨_, _, _, rfl⟩ := hr'
  exact ⟨h.status, h.h, h.bpp, h.bpl, h.y, h.fault, h.image⟩

theorem Polled.inv {s r : State} (hr : Polled s r) (h : s.Inv) : r.Inv := by
  obtain ⟨_, _, _, rfl⟩ := hr
  exact h.polled _ _ _

/-- A run of `k` engine steps and the polls that landed among them. -/
def RunsEngineSteps (k : Nat) (s t : State) : Prop :=
  ∃ j, runFor j s = .next t ∧ j + t.inputs.length = k + s.inputs.length

theorem RunsEngineSteps.trans {k k' : Nat} {s t r : State} (h1 : RunsEngineSteps k s t) (h2 : RunsEngineSteps k' t r) :
    RunsEngineSteps (k + k') s r := by
  obtain ⟨j, hj, hl⟩ := h1
  obtain ⟨j', hj', hl'⟩ := h2
  exact ⟨j + j', (runFor_add hj).trans hj', by omega⟩

/-- One side of a pair of runs: the engine's next step, from a state that the polls before it leave. -/
theorem run_polled_step {n : Nat} {s : State} (ho : OnlyPollsWithin (n + 1) s.inputs)
    (hstep : ∀ r, Polled s r → ∃ t, EngineStepTo r t) :
    ∃ r t, Polled s r ∧ EngineStepTo r t ∧ RunsEngineSteps 1 s t ∧ OnlyPollsWithin n t.inputs := by
  obtain ⟨j, t, hj, hl, ⟨r, hr, ht⟩, hpolls⟩ := run_engine_step (P := Polled s)
    (Q := fun t => ∃ r, Polled s r ∧ EngineStepTo r t) (s := s) ⟨_, _, _, rfl⟩ ho
    (fun r l d g ⟨_, _, _, hr⟩ => ⟨l, d, g, by rw [hr]⟩)
    (fun r hr => by
      obtain ⟨t, ht⟩ := hstep r hr
      exact ⟨t, ht.step, ⟨r, hr, ht⟩, ht.inputs⟩)
  exact ⟨r, t, hr, ht, ⟨j, hj, hl⟩, hpolls⟩

theorem State.Inv.exists_engineStepTo {s : State} (h : s.Inv) : ∃ t, EngineStepTo s t := by
  have hself : SameSituation s s := ⟨rfl, rfl, rfl, rfl, rfl, fun _ => ⟨rfl, rfl, rfl⟩, fun _ _ => rfl⟩
  obtain ⟨t, _, ht, _⟩ := hself.engineStep h h
  exact ⟨t, ht⟩

theorem Polled.parametersKept {s r : State} (hr : Polled s r) : ParametersKept s r := by
  obtain ⟨_, _, _, rfl⟩ := hr
  exact ⟨rfl, rfl, rfl, rfl, rfl, rfl, rfl, rfl⟩

theorem ParametersKept.trans {s t r : State} (h1 : ParametersKept s t) (h2 : ParametersKept t r) :
    ParametersKept s r := by
  obtain ⟨haddrW, hholes, hbuf, hh, hbpp, hbpl, hksel, hwritten⟩ := h1
  rwa [ParametersKept, haddrW, hholes, hbuf, hh, hbpp, hbpl, hksel, hwritten] at h2

/-- What a run with polls carries: the invariant, the parameters, and polls alone for the steps to come. -/
structure OnTheWay (n k : Nat) (s t : State) : Prop where
  run : RunsEngineSteps k s t
  inv : t.Inv
  kept : ParametersKept s t
  polls : OnlyPollsWithin (n - k) t.inputs

theorem OnTheWay.next {n k : Nat} {s t : State} (h : OnTheWay n k s t) (hk : k < n) :
    ∃ r q, Polled t r ∧ EngineStepTo r q ∧ OnTheWay n (k + 1) s q := by
  have ho := h.polls
  rw [show n - k = n - (k + 1) + 1 by omega] at ho
  obtain ⟨r, q, hr, hq, hrun, hpolls⟩ := run_polled_step ho fun r hr => (hr.inv h.inv).exists_engineStepTo
  exact ⟨r, q, hr, hq, h.run.trans hrun, (hr.inv h.inv).engineStep hq.step,
    (h.kept.trans hr.parametersKept).trans hq.kept, hpolls⟩

/-- Engines in the same situation stay in it, whenever each host polls. -/
theorem sameSituation_after {n : Nat} {s s' : State} (h : SameSituation s s') (hi : s.Inv) (hi' : s'.Inv)
    (ho : OnlyPollsWithin n s.inputs) (ho' : OnlyPollsWithin n s'.inputs) :
    ∀ k ≤ n, ∃ t t', OnTheWay n k s t ∧ OnTheWay n k s' t' ∧ SameSituation t t' := by
  intro k
  induction k with
  | zero =>
    intro _
    have hstart : ∀ {s : State}, s.Inv → OnlyPollsWithin n s.inputs → OnTheWay n 0 s s := fun hi ho =>
      ⟨⟨0, rfl, rfl⟩, hi, ⟨rfl, rfl, rfl, rfl, rfl, rfl, rfl, rfl⟩, ho⟩
    exact ⟨s, s', hstart hi ho, hstart hi' ho', h⟩
  | succ k ih =>
    intro hk
    obtain ⟨t, t', ht, ht', hsame⟩ := ih (by omega)
    obtain ⟨r, q, hr, hq, hway⟩ := ht.next hk
    obtain ⟨r', q', hr', hq', hway'⟩ := ht'.next hk
    obtain ⟨p, p', hp, hp', hafter⟩ := (hsame.polled hr hr').engineStep (hr.inv ht.inv) (hr'.inv ht'.inv)
    obtain rfl : p = q := by have := hp.step.symm.trans hq.step; injection this
    obtain rfl : p' = q' := by have := hp'.step.symm.trans hq'.step; injection this
    exact ⟨p, p', hway, hway', hafter⟩

/-- Settles O27: both invocations begin in the same situation, and what is compared is part of it. -/
theorem resultDependsOnImageOnly : Obligations.ResultDependsOnImageOnly := by
  intro s s' hi hi' hb hb' ho ho' hy hy' hh hbpp hbpl himage k hk
  have hsame : SameSituation s s' :=
    ⟨hb.trans hb'.symm, hh, hbpp, hbpl, hy.trans hy'.symm, fun hf => absurd (hb.symm.trans hf) (by decide), himage⟩
  obtain ⟨t, t', ht, ht', hafter⟩ := sameSituation_after hsame hi hi' ho (hh ▸ ho') k hk
  obtain ⟨j, hj, hl⟩ := ht.run
  obtain ⟨j', hj', hl'⟩ := ht'.run
  obtain ⟨_, _, hbuf, hheight, _, hlength, _⟩ := ht.kept
  obtain ⟨_, _, hbuf', _⟩ := ht'.kept
  refine ⟨j, t, j', t', hj, hl, hj', hl', hafter.status, hafter.fault, fun o ho => ?_⟩
  rw [← hbuf, ← hbuf']
  exact hafter.image o (by rwa [hheight, hlength])

end Sys2Proof.Machine
end

section
/-! The vector datapath as numbers and lanes (42_vector_ops.md R142 to R168): the loads and stores, the lane arithmetic,
the lane movement. -/

namespace Sys2Proof.Machine

/-! ### Loads and stores (R142 to R147, R168) -/

/-- The 32-bit load is little-endian: it is 32-bit lane 0 of the vector it is brought into, whose byte lanes are known. -/
theorem toNat_ld32le (m : Memory) (a : Nat) :
    (ld32le m a).toNat = (m.read a).toNat + 2 ^ 8 * (m.read (a + 1)).toNat + 2 ^ 16 * (m.read (a + 2)).toNat +
      2 ^ 24 * (m.read (a + 3)).toNat := by
  have hlane : lane32 (vcvt32 (ld32le m a)) 0 = ld32le m a := lane32_vcvt32 _ (by decide)
  have hbyte : ∀ k < 4, lane8 (vcvt32 (ld32le m a)) k = m.read (a + k) := fun k hk => by
    rw [lane8_vcvt32_ld32le m a (by omega), if_pos hk]
  rw [← hlane, lane32_toNat, hbyte (4 * 0) (by decide), hbyte (4 * 0 + 1) (by decide), hbyte (4 * 0 + 2) (by decide),
    hbyte (4 * 0 + 3) (by decide)]
  rfl

/-- Settles O33: lane `k` of a load is the byte at `a + k`, and a store writes its lanes from `a` upward. -/
theorem vectorLoadsAndStores : Obligations.VectorLoadsAndStores := by
  intro m a v hm
  exact ⟨fun k hk => ⟨lane8_vld16a m a hk, lane8_vld16u m a hk⟩, fun k hk => lane8_vld8 m a hk, toNat_ld32le m a,
    Memory.read_writeBytes hm a (lane8 v) 16, Memory.read_writeBytes hm a (lane8 v) 16,
    Memory.read_writeBytes hm a (lane8 v) 8⟩

/-! ### Lane arithmetic (R148 to R156, R166, R167) -/

/-- The difference of two 16-bit lanes, as a number (R150). -/
theorem toNat_half_sub (x y : Half) : ((x - y).toNat : Int) = ((x.toNat : Int) - y.toNat) % 65536 := by
  have := y.isLt
  rw [BitVec.toNat_sub]
  omega

section

variable (a b : V128) {k : Nat} (hk : k < 8)
include hk

theorem toInt_lane16_vminsw : (lane16 (vminsw a b) k).toInt = min (lane16 a k).toInt (lane16 b k).toInt := by
  rw [lane16_vminsw _ _ hk, apply_ite BitVec.toInt, min_def]

theorem toInt_lane16_vmaxsw : (lane16 (vmaxsw a b) k).toInt = max (lane16 a k).toInt (lane16 b k).toInt := by
  rw [lane16_vmaxsw _ _ hk, apply_ite BitVec.toInt, max_comm, max_def]

/-- The high half of the product fits the lane (R153). -/
theorem toNat_lane16_vmulhuw :
    (lane16 (vmulhuw a b) k).toNat = (lane16 a k).toNat * (lane16 b k).toNat / 65536 := by
  have hprod : (lane16 a k).toNat * (lane16 b k).toNat < 2 ^ 16 * 2 ^ 16 :=
    Nat.mul_lt_mul'' (lane16 a k).isLt (lane16 b k).isLt
  rw [lane16_vmulhuw _ _ hk, BitVec.toNat_ofNat, Nat.shiftRight_eq_div_pow]
  exact Nat.mod_eq_of_lt (Nat.div_lt_of_lt_mul hprod)

theorem toInt_lane16_vsraw (n : Nat) : (lane16 (vsraw a n) k).toInt = (lane16 a k).toInt / 2 ^ n := by
  rw [lane16_vsraw _ _ hk, BitVec.toInt_sshiftRight, Int.shiftRight_eq_div_pow]
  norm_cast

theorem toNat_lane16_vsrlw (n : Nat) : (lane16 (vsrlw a n) k).toNat = (lane16 a k).toNat / 2 ^ n := by
  rw [lane16_vsrlw _ _ hk, BitVec.toNat_ushiftRight, Nat.shiftRight_eq_div_pow]

theorem toNat_lane16_vsllw (n : Nat) : (lane16 (vsllw a n) k).toNat = (lane16 a k).toNat * 2 ^ n % 65536 := by
  rw [lane16_vsllw _ _ hk, BitVec.toNat_shiftLeft, Nat.shiftLeft_eq]

end

/-- The first operand is complemented (R167). -/
theorem getLsbD_vandn (m v : V128) {j : Nat} (hj : j < 128) :
    (vandn m v).getLsbD j = (!m.getLsbD j && v.getLsbD j) := by
  rw [vandn, BitVec.getLsbD_and, BitVec.getLsbD_not, decide_eq_true hj, Bool.true_and]

/-- Settles O34: each operation in one lane, as a number; the shifts at every count. -/
theorem laneArithmetic : Obligations.LaneArithmetic := by
  intro a b n
  refine ⟨fun k hk => ?_, fun k hk => ⟨?_, ?_, toInt_lane16_vminsw a b hk, toInt_lane16_vmaxsw a b hk,
    toNat_lane16_vmulhuw a b hk, fun _ => ⟨toInt_lane16_vsraw a hk n, toNat_lane16_vsrlw a hk n,
      toNat_lane16_vsllw a hk n⟩⟩, fun j hj => ⟨BitVec.getLsbD_and, getLsbD_vandn a b hj⟩⟩
  · rw [lane8_vaddb _ _ hk, BitVec.toNat_add]
  · rw [lane16_vaddw _ _ hk, BitVec.toNat_add]
  · rw [lane16_vsubw _ _ hk, toNat_half_sub]

/-! ### Lane movement (R157 to R165) -/

/-- Bytes from past the last lane are 0 (R158). -/
theorem lane8_vsrldq_ite (a : V128) (n : Nat) {k : Nat} (hk : k < 16) :
    lane8 (vsrldq a n) k = if k + n < 16 then lane8 a (k + n) else 0#8 := by
  rw [vsrldq, lane8_ofLanes8 _ hk]

section

variable (f g : Nat → Byte) {k : Nat} (hk : k < 8)
include hk

/-- Both unpacks interleave two sequences of bytes (R159, R160): the even lanes are the first, the odd the second. -/
theorem lane8_interleaved_even :
    lane8 (ofLanes8 fun j => if j % 2 = 0 then f (j / 2) else g (j / 2)) (2 * k) = f k := by
  rw [lane8_ofLanes8 _ (by omega), if_pos (by omega), show 2 * k / 2 = k by omega]

theorem lane8_interleaved_odd :
    lane8 (ofLanes8 fun j => if j % 2 = 0 then f (j / 2) else g (j / 2)) (2 * k + 1) = g k := by
  rw [lane8_ofLanes8 _ (by omega), if_neg (by omega), show (2 * k + 1) / 2 = k by omega]

end

/-- The saturation is the clamp, which fits a byte (R161). -/
theorem toNat_sat8 (x : Half) : ((sat8 x).toNat : Int) = min 255 (max 0 x.toInt) := by
  rw [sat8, BitVec.toNat_ofInt]
  omega

/-- The two selecting bits as a digit in base 4 (R162). -/
theorem shufSel_eq_digit (imm : Byte) (k : Nat) : shufSel imm k = imm.toNat / 2 ^ (2 * k) % 4 := by
  rw [shufSel, Nat.shiftRight_eq_div_pow]
  exact Nat.and_two_pow_sub_one_eq_mod _ 2

/-- Settles O35: each movement in one lane. -/
theorem laneMovement : Obligations.LaneMovement := by
  intro a b n imm x
  refine ⟨fun k hk => ⟨lane8_vslldq a n hk, lane8_vsrldq_ite a n hk⟩,
    fun k hk => ⟨lane8_interleaved_even (lane8 a) (lane8 b) hk, lane8_interleaved_odd (lane8 a) (lane8 b) hk,
      lane8_interleaved_even (fun j => lane8 a (8 + j)) (fun j => lane8 b (8 + j)) hk,
      lane8_interleaved_odd (fun j => lane8 a (8 + j)) (fun j => lane8 b (8 + j)) hk, ?_, ?_⟩, fun k hk => ?_⟩
  · rw [lane8_vpackuswb _ _ (by omega), if_pos hk, toNat_sat8]
  · rw [lane8_vpackuswb _ _ (by omega), if_neg (by omega), toNat_sat8, show 8 + k - 8 = k by omega]
  · rw [← shufSel_eq_digit]
    refine ⟨lane32_vshufd a imm hk, ?_, ?_, ?_, ?_, lane32_vcvt32 x hk⟩
    · rw [lane16_vshuflw _ _ (by omega), if_pos hk]
    · rw [lane16_vshuflw _ _ (by omega), if_neg (by omega)]
    · rw [lane16_vshufhw _ _ (by omega), if_pos hk]
    · rw [lane16_vshufhw _ _ (by omega), if_neg (by omega), show 4 + k - 4 = k by omega]

end Sys2Proof.Machine
end

section
/-! The SUB and UP blocks (43_simd_sub_up.md R185, R188 to R192, R199, R200): what a block leaves in memory and in the
carries. -/

namespace Sys2Proof.Machine

/-! ### The log-step sum and the carry broadcast (R189 to R191) -/

/-- A step of the schedule adds lane by lane. -/
theorem sllAddb1x_vaddb (x y : V128) (n : Nat) :
    sllAddb1x (vaddb x y) n = vaddb (sllAddb1x x n) (sllAddb1x y n) := ext_lane8 fun k hk => by
  simp only [sllAddb1x, lane8_vaddb _ _ hk, lane8_vslldq _ _ hk]
  by_cases hn : n ≤ k
  · rw [if_pos hn, if_pos hn, if_pos hn, lane8_vaddb _ _ (by omega), add_add_add_comm]
  · rw [if_neg hn, if_neg hn, if_neg hn, BitVec.add_zero, BitVec.add_zero, BitVec.add_zero]

theorem foldl_sllAddb1x_vaddb (shifts : List Nat) (x y : V128) :
    shifts.foldl sllAddb1x (vaddb x y) = vaddb (shifts.foldl sllAddb1x x) (shifts.foldl sllAddb1x y) := by
  induction shifts generalizing x y with
  | nil => rfl
  | cons n shifts ih => rw [List.foldl_cons, sllAddb1x_vaddb, ih, List.foldl_cons, List.foldl_cons]

/-- The carry may be folded in before the log-step sum (R191, realisation (c)). -/
theorem prefixSum_vaddb (b : Bpp) (x c : V128) : prefixSum b (vaddb x c) = vaddb (prefixSum b x) (rep b c) :=
  foldl_sllAddb1x_vaddb (sched b) x c

/-- The carry broadcast has period `bpp` (R191). -/
theorem lane8_rep {b : Bpp} {c : V128} (hc : ∀ j, b.toNat ≤ j → lane8 c j = 0#8) (k : Nat) :
    k < 16 → lane8 (rep b c) k = lane8 c (k % b.toNat) := by
  have hpos := Bpp.toNat_pos b
  induction k using Nat.strong_induction_on with
  | _ k ih =>
    intro hk
    rw [rep, lane8_prefixSum b c hk]
    by_cases hb : b.toNat ≤ k
    · rw [if_pos hb, hc k hb, BitVec.zero_add, Nat.mod_eq_sub_mod hb]
      exact ih (k - b.toNat) (by omega) (by omega)
    · rw [if_neg hb, BitVec.add_zero, Nat.mod_eq_of_lt (by omega)]

/-! ### The shuffles byte by byte (R162 to R164) -/

/-- A byte lane is a byte of a 16-bit lane. -/
theorem lane8_of_lane16 (v : V128) (k : Nat) : lane8 v k = (lane16 v (k / 2)).extractLsb' (8 * (k % 2)) 8 := by
  rcases Nat.mod_two_eq_zero_or_one k with h | h
  · rw [h]
    conv_lhs => rw [show k = 2 * (k / 2) by omega, lane8_even]
    exact BitVec.setWidth_eq_extractLsb' (by decide)
  · rw [h]
    conv_lhs => rw [show k = 2 * (k / 2) + 1 by omega, lane8_odd]

theorem lane8_congr_lane16 {v w : V128} {k m : Nat} (h : lane16 v (k / 2) = lane16 w m) :
    lane8 v k = lane8 w (2 * m + k % 2) := by
  rw [lane8_of_lane16 v, lane8_of_lane16 w, h, show (2 * m + k % 2) / 2 = m by omega,
    show (2 * m + k % 2) % 2 = k % 2 by omega]

theorem lane8_vshufd (a : V128) (imm : Byte) {k : Nat} (hk : k < 16) :
    lane8 (vshufd a imm) k = lane8 a (4 * shufSel imm (k / 4) + k % 4) := by
  rw [lane8_of_lane32, lane32_vshufd _ _ (by omega), lane8_of_lane32 a,
    show (4 * shufSel imm (k / 4) + k % 4) / 4 = shufSel imm (k / 4) by omega,
    show (4 * shufSel imm (k / 4) + k % 4) % 4 = k % 4 by omega]

theorem lane8_vshuflw_low (a : V128) (imm : Byte) {k : Nat} (hk : k < 8) :
    lane8 (vshuflw a imm) k = lane8 a (2 * shufSel imm (k / 2) + k % 2) :=
  lane8_congr_lane16 (by rw [lane16_vshuflw _ _ (by omega), if_pos (by omega)])

theorem lane8_vshufhw_high (a : V128) (imm : Byte) {k : Nat} (hk : 8 ≤ k) (hk16 : k < 16) :
    lane8 (vshufhw a imm) k = lane8 a (2 * (4 + shufSel imm (k / 2 - 4)) + k % 2) :=
  lane8_congr_lane16 (by rw [lane16_vshufhw _ _ (by omega), if_neg (by omega)])

/-- The shuffles replicate the last `bpp` bytes of the previous block with period `bpp` (R191, realisation (b)). -/
theorem lane8_repShuffle {b : Bpp} {prev r : V128} (h : repShuffle b prev = some r) {k : Nat} (hk : k < 16) :
    lane8 r k = lane8 prev (k % b.toNat + (16 - b.toNat)) := by
  have hzero : ∀ j < 4, shufSel 0x00#8 j = 0 := by decide
  have hones : ∀ j < 4, shufSel 0xFF#8 j = 3 := by decide
  have hhigh : ∀ j < 4, shufSel 0xEE#8 j = 2 + j % 2 := by decide
  cases b with
  | b1 =>
    cases h
    have hlow : ∀ j < 2, lane8 (vunpklbw (vsrldq prev 15) (vsrldq prev 15)) j = lane8 prev 15 := fun j hj => by
      rw [lane8_vunpklbw _ _ (by omega), ite_self, lane8_vsrldq _ _ (by omega), Nat.div_eq_of_lt hj]
    rw [lane8_vshufd _ _ hk, hzero _ (by omega), lane8_vshuflw_low _ _ (by omega), hzero _ (by omega),
      hlow _ (by omega)]
    simp only [Bpp.toNat, Nat.mod_one]
  | b2 =>
    cases h
    rw [lane8_vshufd _ _ hk, hones _ (by omega), lane8_vshufhw_high _ _ (by omega) (by omega), hones _ (by omega),
      show 2 * (4 + 3) + (4 * 3 + k % 4) % 2 = k % 2 + (16 - 2) by omega]
    rfl
  | b4 =>
    cases h
    rw [lane8_vshufd _ _ hk, hones _ (by omega), show 4 * 3 + k % 4 = k % 4 + (16 - 4) by omega]
    rfl
  | b8 =>
    cases h
    rw [lane8_vshufd _ _ hk, hhigh _ (by omega), show 4 * (2 + k / 4 % 2) + k % 4 = k % 8 + (16 - 8) by omega]
    rfl
  | b3 | b6 => cases h

/-- The wide carry is the narrow one, lane by lane (R38). -/
theorem toNat_lane16_widenedCarry (c : V128) {j : Nat} (hj : j < 8) :
    (lane16 (vunpklbw c zeroV) j).toNat = (lane8 c j).toNat := by
  rw [lane16_vunpklbw_zero _ hj, toNat_widened]

/-- Settles O39: the seed and the widened carries lane by lane, the period of the broadcast, the shuffles, and the
additivity of the log-step sum. -/
theorem carrySeedAndBroadcast : Obligations.CarrySeedAndBroadcast := by
  refine ⟨fun b s hb => ⟨fun j hj => ?seed, fun j => toNat_lane16_widenedCarry _, rfl⟩,
    fun b s j => toNat_lane16_widenedCarry _, fun b x c hc => ⟨lane8_rep hc, fun prev r hprev hr => ?shuffle,
      prefixSum_vaddb b x c⟩⟩
  case seed => rw [State.seedCarry_c, lane8_seedC hb hj]; rfl
  case shuffle =>
    refine ext_lane8 fun k hk => ?_
    have hmod := Nat.mod_lt k (Bpp.toNat_pos b)
    have hle := Bpp.toNat_le b
    rw [lane8_rep hc k hk, lane8_repShuffle hr hk, hprev, lane8_vsrldq _ _ (by omega)]

/-! ### The SUB 16-byte block (R188) -/

/-- The log-step sum as the sum of a column of lanes (R189). -/
theorem toNat_lane8_prefixSum (b : Bpp) (x : V128) {k : Nat} (hk : k < 16) :
    (lane8 (prefixSum b x) k).toNat =
      ((List.range (k / b.toNat + 1)).map fun j => (lane8 x (k - j * b.toNat)).toNat).sum % 256 := by
  refine column_sum_of_recurrence (n := 16) (x := fun k => (lane8 x k).toNat)
    (y := fun k => (lane8 (prefixSum b x) k).toNat) (Bpp.toNat_pos b) (fun i hi hn => ?_) (fun i hi hn => ?_) k hk
  · have := (lane8 x i).isLt
    simp only [lane8_prefixSum b x hn, if_neg (show ¬b.toNat ≤ i by omega), BitVec.add_zero]
    omega
  · simp only [lane8_prefixSum b x hn, if_pos hi, BitVec.toNat_add]

theorem read_subBlock16 (b : Bpp) {s : State} (hm : s.mem.wf) {k : Nat} (hk : k < 16) :
    (subBlock16 b s).mem.read (s.p + s.i.toNat + k) =
      lane8 (subOut b (vld16a s.mem (s.p + s.i.toNat)) s.c) k := by
  rw [subBlock16_mem, Memory.read_writeBytes hm, if_pos (by omega), Nat.add_sub_cancel_left]

/-- A SUB block writes memory, the carries and I alone. -/
theorem subBlock16_frame (b : Bpp) (s : State) : subBlock16 b s =
    { s with
      mem := (subBlock16 b s).mem, c := (subBlock16 b s).c, cw := (subBlock16 b s).cw
      i := BitVec.ofNat 32 (s.i.toNat + 16) } := by
  simp only [subBlock16, State.setCarry, State.bumpIndex]

/-- Settles O38: the block is the log-step sum of its raw bytes plus the carry broadcast. -/
theorem subBlockFunction : Obligations.SubBlockFunction := by
  intro b s hm hc
  have hle := Bpp.toNat_le b
  refine ⟨fun k hk => ?sums, fun j hj => ?carry, fun x hx => ?frame, subBlock16_frame b s⟩
  case sums =>
    have hraw : ∀ j, (lane8 (vld16a s.mem (s.p + s.i.toNat)) (k - j * b.toNat)) =
        s.payload (s.i.toNat + (k - j * b.toNat)) := fun j => by
      rw [lane8_vld16a _ _ (by omega), State.payload, Nat.add_assoc]
    rw [read_subBlock16 b hm hk, subOut, lane8_vaddb _ _ hk, BitVec.toNat_add, toNat_lane8_prefixSum b _ hk,
      lane8_rep hc k hk, Nat.mod_add_mod]
    simp only [hraw]
  case carry =>
    rw [subBlock16_c, lane8_vsrldq _ _ hj, Nat.add_comm j]
    by_cases hb : j < b.toNat
    · rw [if_pos hb, read_subBlock16 b hm (by omega)]
    · rw [if_neg hb, lane8_of_ge _ (by omega)]
      rfl
  case frame => rw [subBlock16_mem, Memory.read_writeBytes_outside _ hx]

/-! ### The UP blocks (R199, R200) -/

/-- A step that keeps the row and the working registers but I changes memory and I alone. -/
theorem SameRow.eq_of_keepsWorking {s t : State} (h : SameRow s t) (hk : KeepsWorking s t) :
    t = { s with mem := t.mem, i := t.i } := by
  obtain ⟨hv, ⟨hc, hcw⟩, ⟨hpz, huz⟩, ht0⟩ := hk
  cases t
  rw [State.mk.injEq]
  exact ⟨h.addrW, h.holes, h.buf, h.h, h.bpp, h.bpl, h.ksel, h.written, h.status, h.fcause, h.frow, h.fbyte, h.y, h.p,
    h.u, h.ft, rfl, hv, hc, hcw, hpz, huz, ht0, rfl, h.inputs, h.readData, h.fresh⟩

theorem upBlock64_i (s : State) : (upBlock64 s).i = BitVec.ofNat 32 (s.i.toNat + 64) := by
  rw [upBlock64, State.bumpIndex_i, upStore16_i, upStore16_i, upStore16_i, upStore16_i]

/-- `t` is in the row of `s`, its memory that of `s` with the byte above added to each of `k` payload bytes from I. -/
structure AboveAdded (k : Nat) (s t : State) : Prop where
  same : SameRow s t
  memWf : t.mem.wf
  added : ∀ j < k, (t.mem.read (s.p + s.i.toNat + j)).toNat =
    ((s.payload (s.i.toNat + j)).toNat + (s.above (s.i.toNat + j)).toNat) % 256
  outside : ∀ x, ¬(s.p + s.i.toNat ≤ x ∧ x < s.p + s.i.toNat + k) → t.mem.read x = s.mem.read x

section

variable {k size : Nat} {s t r : State}

theorem AboveAdded.start (hm : s.mem.wf) : AboveAdded 0 s s :=
  ⟨SameRow.refl s, hm, fun _ hj => absurd hj (Nat.not_lt_zero _), fun _ _ => rfl⟩

theorem AboveAdded.congr (h : AboveAdded k s t) (hs : SameRow t r) (hm : r.mem = t.mem) : AboveAdded k s r :=
  ⟨h.same.trans hs, by rw [hm]; exact h.memWf, by rw [hm]; exact h.added, by rw [hm]; exact h.outside⟩

/-- The previous row reads as before: it lies below the payload (R66). -/
theorem AboveAdded.above (h : AboveAdded k s t) (ha : s.y = 0#32 ∨ s.u + s.n ≤ s.p) {i : Nat} (hi : i < s.n) :
    t.above i = s.above i := by
  rw [State.above, State.above, h.same.y, h.same.u]
  split
  · rfl
  · rename_i hy
    have := ha.resolve_left hy
    rw [h.outside _ (by omega)]

/-- A store of `size` more such sums. -/
theorem AboveAdded.store {out : Nat → Byte} (h : AboveAdded k s t) (ha : s.y = 0#32 ∨ s.u + s.n ≤ s.p)
    (hn : s.i.toNat + k + size ≤ s.n) (hsame : SameRow t r)
    (hmem : r.mem = t.mem.writeBytes (t.p + (s.i.toNat + k)) out size)
    (hout : ∀ j < size, out j = t.payload (s.i.toNat + k + j) + t.above (s.i.toNat + k + j)) :
    AboveAdded (k + size) s r := by
  have hread : ∀ x, r.mem.read x = if s.p + (s.i.toNat + k) ≤ x ∧ x < s.p + (s.i.toNat + k) + size then
      out (x - (s.p + (s.i.toNat + k))) else t.mem.read x := fun x => by
    rw [hmem, h.same.p, Memory.read_writeBytes h.memWf]
  refine ⟨h.same.trans hsame, by rw [hmem]; exact Memory.wf_writeBytes h.memWf _ _ _, fun j hj => ?_, fun x hx => ?_⟩
  · rw [hread]
    by_cases hk : j < k
    · rw [if_neg (by omega), h.added j hk]
    · obtain ⟨m, rfl⟩ : ∃ m, j = k + m := ⟨j - k, by omega⟩
      rw [if_pos (by omega), show s.p + s.i.toNat + (k + m) - (s.p + (s.i.toNat + k)) = m by omega,
        hout m (by omega), h.above ha (by omega), State.payload, h.same.p, h.outside _ (by omega), BitVec.toNat_add,
        State.payload, Nat.add_assoc s.i.toNat k m]
  · rw [hread, if_neg (by omega), h.outside x (by omega)]

theorem AboveAdded.upStore16 {m : Nat} (h : AboveAdded (16 * m) s t) (ha : s.y = 0#32 ∨ s.u + s.n ≤ s.p)
    (hn : s.i.toNat + 16 * m + 16 ≤ s.n) (hi : t.i = s.i) : AboveAdded (16 * (m + 1)) s (upStore16 m t) :=
  h.store ha hn (sameRow_upStore16 m t) (by rw [upStore16_mem, hi]) fun j hj => by
    rw [lane8_vaddb _ _ hj, lane8_vld16a _ _ hj, lane8_uvec16 hj, State.payload, Nat.add_assoc t.p]

theorem aboveAdded_upBlock8 (hm : s.mem.wf) (ha : s.y = 0#32 ∨ s.u + s.n ≤ s.p) (hn : s.i.toNat + 8 ≤ s.n) :
    AboveAdded 8 s (upBlock8 s) := by
  rw [← Nat.zero_add 8]
  refine (AboveAdded.start hm).store ha hn (sameRow_upBlock8 s) (upBlock8_mem s) fun j hj => ?_
  rw [lane8_vaddb _ _ (by omega), lane8_vld8 _ _ (by omega), if_pos hj, lane8_uvec8 hj, State.payload,
    Nat.add_assoc s.p, Nat.add_zero]

theorem aboveAdded_upBlock64 (hm : s.mem.wf) (ha : s.y = 0#32 ∨ s.u + s.n ≤ s.p) (hn : s.i.toNat + 64 ≤ s.n) :
    AboveAdded 64 s (upBlock64 s) := by
  have h1 := (AboveAdded.start hm).upStore16 (m := 0) ha (by omega) rfl
  have h2 := h1.upStore16 (m := 1) ha (by omega) (by rw [upStore16_i])
  have h3 := h2.upStore16 (m := 2) ha (by omega) (by rw [upStore16_i, upStore16_i])
  have h4 := h3.upStore16 (m := 3) ha (by omega) (by rw [upStore16_i, upStore16_i, upStore16_i])
  exact h4.congr (sameRow_bumpIndex _ 64) (State.bumpIndex_mem _ 64)

end

/-- Settles O40: the sums of each store, and the row above below the payload, which no store reaches. -/
theorem upBlockFunctions : Obligations.UpBlockFunctions := by
  refine fun s hm ha => ⟨fun hn => ?_, fun hn => ?_⟩
  · have h := aboveAdded_upBlock64 hm ha hn
    have heq := h.same.eq_of_keepsWorking (upBlock64_working s)
    rw [upBlock64_i] at heq
    exact ⟨h.added, h.outside, heq⟩
  · have h := aboveAdded_upBlock8 hm ha hn
    exact ⟨h.added, h.outside, rfl⟩

end Sys2Proof.Machine
end

section
/-! The alignment of the SIMD kernel's blocks, and its rows against the base rows (43_simd_sub_up.md R181 to R184, R186,
R192; R133). -/

namespace Sys2Proof.Machine

/-! ### The alignment head (R181, R182) -/

theorem aligned_alignDiff (a : Nat) : (a + alignDiff a 16) % 16 = 0 := by
  rw [alignDiff]
  omega

theorem alignDiff_least {a d : Nat} (h : (a + d) % 16 = 0) : alignDiff a 16 ≤ d := by
  rw [alignDiff]
  omega

/-- Settles O45: below 16, the distance to the next multiple is determined by the residue. -/
theorem alignDiffReachesMultiple : Obligations.AlignDiffReachesMultiple := fun a =>
  ⟨aligned_alignDiff a, Nat.le_of_lt_succ (Nat.mod_lt _ (by decide)), fun _ => alignDiff_least,
    fun h => Nat.le_zero.1 (alignDiff_least h)⟩

theorem sameRow_scalar (f : Filter) (bpp lo hi : Nat) (s : State) : SameRow s (scalar f bpp lo hi s) :=
  forUp_induct (P := fun _ t => SameRow s t) (SameRow.refl s) fun _ _ t ht => ht.trans (sameRow_setPayload t _ _)

/-- A row of the SIMD kernel enters its body only aligned to 16 and with bytes left (R181, R183). -/
theorem simdRow_congr_body (f : Filter) (b : Bpp) {body body' : State → State} (s : State)
    (h : ∀ t : State, t.AlignedTo 16 → t.i.toNat < t.n → body t = body' t) :
    simdRow f b body s = simdRow f b body' s := by
  simp only [simdRow]
  set i0 := min s.n (b.toNat + alignDiff (s.p + b.toNat) 16) with hi0
  set s1 := scalar f b.toNat b.toNat i0 (scalar f b.toNat 0 b.toNat s) with hs1
  by_cases hlt : i0 < s.n
  · have hsame : SameRow s s1 := (sameRow_scalar _ _ _ _ _).trans (sameRow_scalar _ _ _ _ _)
    have hindex : (BitVec.ofNat 32 i0).toNat = i0 := by
      have := s.n_lt
      rw [BitVec.toNat_ofNat, Nat.mod_eq_of_lt (by omega)]
    have haligned : (s1.p + (BitVec.ofNat 32 i0).toNat) % 16 = 0 := by
      rw [hindex, hsame.p, show i0 = b.toNat + alignDiff (s.p + b.toNat) 16 by omega, ← Nat.add_assoc]
      exact aligned_alignDiff _
    have hleft : (BitVec.ofNat 32 i0).toNat < s1.n := by rwa [hindex, hsame.n_eq]
    rw [if_pos hlt, if_pos hlt, h { s1 with i := BitVec.ofNat 32 i0 } haligned hleft]
  · rw [if_neg hlt, if_neg hlt]

/-! ### Loops of aligned blocks (R183, R184) -/

section

variable {size m : Nat} {block block' : State → State} (h : PayloadBlock size block) (hm : m ∣ size) {s : State}
  (hs : s.AlignedTo m)
include h hm hs

/-- Blocks of a multiple of `m` bytes keep the alignment to `m`. -/
theorem PayloadBlock.repeatN_aligned {count : Nat} (hn : s.i.toNat + size * count ≤ s.n) :
    (Machine.repeatN block count s).AlignedTo m := by
  obtain ⟨hwrites, hi⟩ := h.repeatN count s hn
  rw [State.AlignedTo, hwrites.same.p, hi, ← Nat.add_assoc]
  exact Nat.mod_eq_zero_of_dvd (Nat.dvd_add (Nat.dvd_of_mod_eq_zero hs) (hm.mul_right count))

/-- Blocks that agree where they are entered aligned and within the payload repeat alike. -/
theorem PayloadBlock.repeatN_congr (hc : ∀ t : State, t.AlignedTo m → t.i.toNat + size ≤ t.n → block t = block' t)
    {count : Nat} (hn : s.i.toNat + size * count ≤ s.n) :
    Machine.repeatN block count s = Machine.repeatN block' count s := by
  induction count with
  | zero => rfl
  | succ count ih =>
    rw [Nat.mul_succ] at hn
    obtain ⟨hwrites, hi⟩ := h.repeatN count s (by omega)
    rw [Machine.repeatN, Machine.repeatN, ← ih (by omega)]
    exact hc _ (h.repeatN_aligned hm hs (by omega)) (by rw [hi, hwrites.same.n_eq]; omega)

theorem PayloadBlock.blocks_aligned : (Machine.blocks size block s).AlignedTo m := by
  by_cases hi : s.i.toNat ≤ s.n
  · have := Nat.mul_div_le (s.n - s.i.toNat) size
    exact h.repeatN_aligned hm hs (by omega)
  · rwa [Machine.blocks, Nat.sub_eq_zero_of_le (by omega), Nat.zero_div]

theorem PayloadBlock.blocks_congr (hc : ∀ t : State, t.AlignedTo m → t.i.toNat + size ≤ t.n → block t = block' t) :
    Machine.blocks size block s = Machine.blocks size block' s := by
  by_cases hi : s.i.toNat ≤ s.n
  · have := Nat.mul_div_le (s.n - s.i.toNat) size
    exact h.repeatN_congr hm hs hc (by omega)
  · rw [Machine.blocks, Machine.blocks, Nat.sub_eq_zero_of_le (by omega), Nat.zero_div]
    rfl

/-- Whatever stands for the block at a misaligned entry, the loop is the same. -/
theorem PayloadBlock.blocks_alignedOnly (other : State → State) :
    Machine.blocks size block s = Machine.blocks size (alignedOnly m block other) s :=
  h.blocks_congr hm hs fun _ ht _ => (if_pos ht).symm

end

/-- The four parts of a 64-byte SUB block are entered aligned (R192). -/
theorem subBlock64_alignedOnly (b : Bpp) (other : State → State) {s : State} (hs : s.AlignedTo 16)
    (hn : s.i.toNat + 64 ≤ s.n) : subBlock64 b s = repeatN (alignedOnly 16 (subBlock16 b) other) 4 s :=
  (payloadBlock_subBlock16 b).repeatN_congr (dvd_refl 16) hs (fun _ ht _ => (if_pos ht).symm) hn

/-- Settles O46: the alignment head puts I on a multiple of 16, and blocks of 16 and 64 bytes keep it there, blocks of 8
on a multiple of 8. -/
theorem bodyEnteredAligned : Obligations.BodyEnteredAligned := by
  refine ⟨fun f b body other s => simdRow_congr_body f b s fun t ha hn => (if_pos ⟨ha, hn⟩).symm,
    fun b other s hs => ?_⟩
  have hs8 : s.AlignedTo 8 := by
    rw [State.AlignedTo] at hs ⊢
    omega
  have hseed : ∀ b', (s.seedCarry b').AlignedTo 16 := fun _ => hs
  have hseed8 : (s.seedCarry .b3).AlignedTo 8 := hs8
  have hwalk : { s.seedCarry .b1 with t0 := (s.payload (s.i.toNat - 1)).setWidth 32 }.AlignedTo 8 := hs8
  refine ⟨?sub, ?up, ?avg1, ?avg16, ?paeth8, ?paeth16⟩
  case sub =>
    have h64 := payloadBlock_subBlock64 b
    rw [subBody, ← h64.blocks_congr (m := 16) (by decide) (hseed b) fun t => subBlock64_alignedOnly b other,
      ← (payloadBlock_subBlock16 b).blocks_alignedOnly (dvd_refl 16) (h64.blocks_aligned (by decide) (hseed b)) other]
  case up =>
    have hmid := payloadBlock_upBlock64.blocks_aligned (m := 8) (by decide) hs8
    rw [upBody, ← payloadBlock_upBlock64.blocks_alignedOnly (by decide) hs other,
      ← payloadBlock_upBlock8.blocks_alignedOnly (dvd_refl 8) hmid other]
  case avg1 =>
    rw [avgBody1, ← payloadBlock_avgTurn8.blocks_alignedOnly (dvd_refl 8) hwalk other]
  case avg16 => rw [avgBody16, ← (payloadBlock_avgBlock16 b).blocks_alignedOnly (dvd_refl 16) (hseed b) other]
  case paeth8 => rw [paethBody8, ← payloadBlock_paethBlock8.blocks_alignedOnly (dvd_refl 8) hseed8 other]
  case paeth16 => rw [paethBody16, ← (payloadBlock_paethBlock16 b).blocks_alignedOnly (dvd_refl 16) (hseed b) other]

/-! ### A row of the SIMD kernel and its base row (R133, R186) -/

theorem SameRow.fitAddr {s t : State} (h : SameRow s t) (site : FreeSite) (a : Nat) :
    fitAddr t site a = fitAddr s site a := by
  rw [Machine.fitAddr, Machine.fitAddr, h.addrW, h.fresh]

/-- Where the cursor and the status go depends on what a row's body keeps alone. -/
theorem SameRow.advance_cursor {s t : State} (h : SameRow s t) :
    t.advance.status = s.advance.status ∧ t.advance.y = s.advance.y ∧ t.advance.p = s.advance.p ∧
      t.advance.u = s.advance.u := by
  simp only [State.advance_status, State.advance_y, State.advance_p, State.advance_u, h.fitAddr, h.status, h.y, h.h, h.p,
    h.bpl, and_self]

/-- Settles O56: both bodies reconstruct the same row, and a reconstructed row is unique. -/
theorem vectorRowEqualsBaseRow : Obligations.VectorRowEqualsBaseRow := by
  intro f b s hr hmode
  obtain ⟨hpos, _⟩ := State.geometry_n hr.geometry
  have hspecial := special_progress hr (State.mode_bpp hmode).1
  rw [(State.mode_bpp hmode).1] at hspecial
  have hbase := base_progress hr
  obtain ⟨hstatus, hy, hp, hu⟩ := hspecial.same.advance_cursor
  obtain ⟨hstatus', hy', hp', hu'⟩ := hbase.same.advance_cursor
  refine ⟨_, _, (exec_special f b s).trans (runSpecial_ready hr hmode _), (exec_base f s).trans (runRow_ready hr _),
    ?_, hstatus.trans hstatus'.symm, hy.trans hy'.symm, hp.trans hp'.symm, hu.trans hu'.symm⟩
  rw [State.advance_mem, State.advance_mem, hspecial.mem_unique hpos hbase]

end Sys2Proof.Machine
end

section
/-! The AVG blocks (44_simd_avg.md R212, R215, R216): what the walk of eight bytes and the stages of sixteen leave in
memory, in T0 and in the carries. -/

namespace Sys2Proof.Machine

/-! ### The walk at one byte per pixel (R212) -/

/-- The lanes of T hold twice the raw byte plus the byte above. -/
theorem toNat_lane16_doubled_add_above (s : State) {k : Nat} (hk : k < 8) :
    (lane16 (vaddw (vaddw (vunpklbw (vld8 s.mem (s.p + s.i.toNat)) zeroV)
        (vunpklbw (vld8 s.mem (s.p + s.i.toNat)) zeroV)) (vunpklbw (s.uvec8 s.i.toNat) zeroV)) k).toNat =
      2 * (s.payload (s.i.toNat + k)).toNat + (s.above (s.i.toNat + k)).toNat := by
  have := (s.payload (s.i.toNat + k)).isLt
  have := (s.above (s.i.toNat + k)).isLt
  rw [lane16_vaddw _ _ hk, lane16_vaddw _ _ hk, lane16_vunpklbw_zero _ hk, lane16_vunpklbw_zero _ hk,
    lane8_vld8 _ _ (by omega), if_pos hk, lane8_uvec8 hk, Nat.add_assoc, ← State.payload, BitVec.toNat_add,
    BitVec.toNat_add, toNat_widened, toNat_widened]
  omega

/-- Halving after adding twice the raw byte adds the floor mean to the raw byte (R210). -/
theorem halved_eq_sumMod256_avg (t0 x above : Nat) :
    ((t0 + (2 * x + above)) >>> 1) &&& 0xFF = sumMod256 x (avg t0 above) := by
  rw [and_255, sumMod256_eq, avg_eq_div, Nat.shiftRight_one]
  omega

/-- The byte that payload byte `I + k` of `s` adds its mean with: T0 at first, then the byte before it, as it stands in
`t`. -/
def walkLeft (s t : State) (k : Nat) : Nat :=
  if k = 0 then s.t0.toNat else (t.mem.read (s.p + s.i.toNat + (k - 1))).toNat

/-- The walk from `s` has written `j` bytes, and is now at `t`. -/
structure WalkedTo (s : State) (j : Nat) (t : State) : Prop where
  memWf : t.mem.wf
  bytes : ∀ k < j, (t.mem.read (s.p + s.i.toNat + k)).toNat =
    sumMod256 (s.payload (s.i.toNat + k)).toNat (avg (walkLeft s t k) (s.above (s.i.toNat + k)).toNat)
  running : t.t0.toNat = walkLeft s t j
  outside : ∀ x, ¬(s.p + s.i.toNat ≤ x ∧ x < s.p + s.i.toNat + j) → t.mem.read x = s.mem.read x
  p_eq : t.p = s.p

/-- One step of the walk writes the next byte, which is then the left neighbour. -/
theorem WalkedTo.step {s t : State} {j : Nat} {v : V128} (h : WalkedTo s j t)
    (hv : (lane16 v j).toNat = 2 * (s.payload (s.i.toNat + j)).toNat + (s.above (s.i.toNat + j)).toNat) :
    WalkedTo s (j + 1) (avgWalk v s.i.toNat j t) := by
  set e := sumMod256 (s.payload (s.i.toNat + j)).toNat (avg (walkLeft s t j) (s.above (s.i.toNat + j)).toNat) with he
  have hlt : e < 256 := sumMod256_lt _ _
  have hstep : avgWalk v s.i.toNat j t = { t.setPayload (s.i.toNat + j) e with t0 := BitVec.ofNat 32 e } := by
    rw [avgWalk, hv, halved_eq_sumMod256_avg, h.running]
  have hmem : (avgWalk v s.i.toNat j t).mem = t.mem.write (s.p + s.i.toNat + j) (BitVec.ofNat 8 e) := by
    rw [hstep, State.setPayload_mem, h.p_eq, Nat.add_assoc]
  have hsame : ((avgWalk v s.i.toNat j t).mem.read (s.p + s.i.toNat + j)).toNat = e := by
    rw [hmem, Memory.read_write_same h.memWf, BitVec.toNat_ofNat, Nat.mod_eq_of_lt hlt]
  have hother : ∀ x ≠ s.p + s.i.toNat + j, (avgWalk v s.i.toNat j t).mem.read x = t.mem.read x := fun x hx => by
    rw [hmem, Memory.read_write_ne _ hx]
  have hleft : ∀ k ≤ j, walkLeft s (avgWalk v s.i.toNat j t) k = walkLeft s t k := fun k hk => by
    rw [walkLeft, walkLeft]
    split
    · rfl
    · rw [hother _ (by omega)]
  refine ⟨by rw [hmem]; exact Memory.wf_write h.memWf _ _, fun k hk => ?bytes, ?running, fun x hx => ?outside,
    by rw [hstep]; exact h.p_eq⟩
  case bytes =>
    rw [hleft k (by omega)]
    obtain rfl | hkj : k = j ∨ k < j := by omega
    · exact hsame
    · rw [hother _ (by omega), h.bytes k hkj]
  case running =>
    rw [walkLeft, if_neg (by omega), Nat.add_sub_cancel, hsame, hstep, BitVec.toNat_ofNat, Nat.mod_eq_of_lt (by omega)]
  case outside => rw [hother x (by omega), h.outside x (by omega)]

theorem avgBlock8_walkedTo {s : State} (hm : s.mem.wf) : WalkedTo s 8 (avgBlock8 s) := by
  rw [avgBlock8]
  refine forUp_induct (P := WalkedTo s) ⟨hm, fun k hk => absurd hk (Nat.not_lt_zero k), rfl, fun _ _ => rfl, rfl⟩
    fun j hj t ht => ?_
  rw [Nat.zero_add]
  exact ht.step (toNat_lane16_doubled_add_above s hj)

/-- The 8-byte block writes memory, T0 and I alone, as each step of its walk does. -/
theorem avgBlock8_frame (s : State) : avgBlock8 s =
    { s with mem := (avgBlock8 s).mem, t0 := (avgBlock8 s).t0, i := BitVec.ofNat 32 (s.i.toNat + 8) } := by
  have hi : (avgBlock8 s).i = BitVec.ofNat 32 (s.i.toNat + 8) := rfl
  obtain ⟨m, w, i, h⟩ : ∃ m w i, avgBlock8 s = { s with mem := m, t0 := w, i := i } := by
    refine forUp_induct (P := fun _ t => ∃ m w i, t = { s with mem := m, t0 := w, i := i }) ⟨_, _, _, rfl⟩ ?_
    rintro j _ _ ⟨_, _, _, rfl⟩
    exact ⟨_, _, _, rfl⟩
  rw [← hi, h]

theorem State.seedCarry_frame (b : Bpp) (s : State) :
    s.seedCarry b = { s with c := (s.seedCarry b).c, cw := (s.seedCarry b).cw } := rfl

theorem avgTurn8_frame (s : State) :
    avgTurn8 s = { avgBlock8 s with c := (avgTurn8 s).c, cw := (avgTurn8 s).cw } :=
  State.seedCarry_frame .b1 (avgBlock8 s)

/-- After a turn the carries hold the last byte of its block (R38; log 28). -/
theorem avgTurn8_carry {s : State} (hn : s.i.toNat + 8 ≤ s.n) :
    (∀ j < 16, lane8 (avgTurn8 s).c j = if j = 0 then (avgBlock8 s).mem.read (s.p + s.i.toNat + 7) else 0) ∧
      ∀ j < 8, (lane16 (avgTurn8 s).cw j).toNat = (lane8 (avgTurn8 s).c j).toNat := by
  have hi : (avgBlock8 s).i.toNat = s.i.toNat + 8 := toNat_index_add hn
  obtain ⟨hc, hcw, _⟩ := carrySeedAndBroadcast.1 .b1 (avgBlock8 s) (by rw [hi, Bpp.toNat]; omega)
  refine ⟨fun j hj => ?_, hcw⟩
  rw [avgTurn8, hc j hj, hi, (writesPayload_avgBlock8 hn).same.p, Bpp.toNat]
  by_cases h0 : j = 0
  · rw [if_pos (by omega), if_pos h0, show s.p + (s.i.toNat + 8 - 1 + j) = s.p + s.i.toNat + 7 by omega]
  · rw [if_neg (by omega), if_neg h0]

/-- Settles O41: the walk from T0 byte by byte, and the carry seed behind the block. -/
theorem avgWalkFunction : Obligations.AvgWalkFunction := by
  intro s hm _
  have h := avgBlock8_walkedTo hm
  exact ⟨h.bytes, h.running.trans (if_neg (by decide)), h.outside, avgBlock8_frame s, avgTurn8_frame s,
    avgTurn8_carry⟩

/-! ### The stages of a block on lanes of byte range (R215, R216) -/

/-- The wide carry holds bytes in its low `bpp` lanes and 0 above them (R38). -/
structure WideCarry (b : Bpp) (cw : V128) : Prop where
  lt : ∀ j, (lane16 cw j).toNat < 256
  zero : ∀ j, b.toNat ≤ j → lane16 cw j = 0#16

section

variable {f : Filter} {b : Bpp} {cw xb bb cb : V128} {stage : V128 × V128 → V128 × V128}
  (hst : ReconstructsLanes f xb bb cb stage) (hcw : WideCarry b cw)
include hst hcw

/-- After `m` stages all lanes are bytes, and the lanes covered are reconstructed, each from its left neighbour. -/
theorem wide_stages_recon (m : Nat) :
    (∀ k < 16, (wide (stages b cw stage m) k).toNat < 256) ∧
    ∀ k < 16, k < m * b.toNat → (wide (stages b cw stage m) k).toNat =
      recon f (lane8 xb k).toNat
        (if k < b.toNat then (lane16 cw k).toNat else (wide (stages b cw stage m) (k - b.toNat)).toNat)
        (lane8 bb k).toNat (lane8 cb k).toNat :=
  stages_recNat (F := fun k x => recon f (lane8 xb k).toNat x (lane8 bb k).toNat (lane8 cb k).toNat) hcw.zero hcw.lt
    (fun k _ => recon_lt f (lane8 xb k).isLt _ _ _) hst m

/-- The bytes that the stages cover: each is reconstructed from its left neighbour, the first `bpp` from the carry. -/
theorem toNat_lane8_pack_stages {m k : Nat} (hk : k < 16) (hm : k < m * b.toNat) :
    (lane8 (vpackuswb (stages b cw stage m).1 (stages b cw stage m).2) k).toNat =
      recon f (lane8 xb k).toNat
        (if k < b.toNat then (lane16 cw k).toNat
          else (lane8 (vpackuswb (stages b cw stage m).1 (stages b cw stage m).2) (k - b.toNat)).toNat)
        (lane8 bb k).toNat (lane8 cb k).toNat := by
  obtain ⟨hbyte, hrecon⟩ := wide_stages_recon hst hcw m
  rw [lane8_pack hbyte hk, lane8_pack hbyte (by omega), hrecon k hk hm]

end

/-- The last `bpp` lanes of a pair of byte range, moved down, are the last `bpp` bytes it packs to (R216). -/
theorem toNat_lane16_lastLanes {b : Bpp} {o : V128 × V128} (h : ∀ k < 16, (wide o k).toNat < 256) {j : Nat}
    (hj : j < 8) : (lane16 (vsrldq o.2 (16 - 2 * b.toNat)) j).toNat =
      if j < b.toNat then (lane8 (vpackuswb o.1 o.2) (16 - b.toNat + j)).toNat else 0 := by
  have hle := Bpp.toNat_le b
  rw [show 16 - 2 * b.toNat = 2 * (8 - b.toNat) by omega, lane16_vsrldq_even _ _ hj]
  split
  · rw [lane8_pack h (by omega), show 16 - b.toNat + j = 8 + (j + (8 - b.toNat)) by omega, wide_high]
  · rw [lane16_of_ge _ (by omega)]
    rfl

/-- The narrow form of a wide carry whose lanes are bytes `q` below `n` and 0 from there on (R38). -/
theorem lane8_packCarry_of_bytes {cw : V128} {n : Nat} {q : Nat → Byte} (hn : n ≤ 8)
    (h : ∀ j < 8, (lane16 cw j).toNat = if j < n then (q j).toNat else 0) {j : Nat} (hj : j < 16) :
    lane8 (vpackuswb cw zeroV) j = if j < n then q j else 0#8 := by
  have hlt : ∀ j < 8, (lane16 cw j).toNat < 256 := fun j hj => by
    have := (q j).isLt
    rw [h j hj]
    split <;> omega
  rw [lane8_packCarry hlt hj]
  by_cases h8 : j < 8
  · apply BitVec.eq_of_toNat_eq
    rw [BitVec.toNat_setWidth, Nat.mod_eq_of_lt (hlt j h8), h j h8, apply_ite BitVec.toNat]
    rfl
  · rw [lane16_of_ge _ (by omega), if_neg (by omega)]
    rfl

/-! ### The 16-byte block at 4, 6, 8 bytes per pixel (R215) -/

/-- What a 16-byte block over a register pair does: it reconstructs its bytes from the carry, and the carry becomes its
last `bpp` bytes, in both forms (R216, R239; log 28). -/
structure PairBlockFunction (f : Filter) (b : Bpp) (s t : State) : Prop where
  bytes : ∀ k < 16, (t.mem.read (s.p + s.i.toNat + k)).toNat = recon f (s.payload (s.i.toNat + k)).toNat
    (if k < b.toNat then (lane16 s.cw k).toNat else (t.mem.read (s.p + s.i.toNat + (k - b.toNat))).toNat)
    (s.above (s.i.toNat + k)).toNat (s.above (s.i.toNat - b.toNat + k)).toNat
  cw : ∀ j < 8, (lane16 t.cw j).toNat =
    if j < b.toNat then (t.mem.read (s.p + s.i.toNat + (16 - b.toNat + j))).toNat else 0
  c : ∀ j < 16, lane8 t.c j =
    if j < b.toNat then t.mem.read (s.p + s.i.toNat + (16 - b.toNat + j)) else 0#8
  outside : ∀ x, ¬(s.p + s.i.toNat ≤ x ∧ x < s.p + s.i.toNat + 16) → t.mem.read x = s.mem.read x

/-- A block that stores its packed pair and leaves the last lanes in CW, and packed in C, does that. -/
theorem pairBlockFunction_of_store {f : Filter} {b : Bpp} {s t : State} {g : V128 → V128 → V128 → V128 → V128}
    (hg : LanesReconstruct f g) (hm : s.mem.wf) (hs : WideCarry b s.cw)
    (hmem : t.mem = s.mem.writeBytes (s.p + s.i.toNat)
      (lane8 (vpackuswb (blockPair b g s).1 (blockPair b g s).2)) 16)
    (hcw : t.cw = vsrldq (blockPair b g s).2 (16 - 2 * b.toNat)) (hc : t.c = vpackuswb t.cw zeroV) :
    PairBlockFunction f b s t := by
  have hle := Bpp.toNat_le b
  have hst := hg.laneStage (vld16a s.mem (s.p + s.i.toNat)) (s.uvec16 s.i.toNat) (s.uvec16 (s.i.toNat - b.toNat))
  have hbyte : ∀ k < 16, (wide (blockPair b g s) k).toNat < 256 := (wide_stages_recon hst hs _).1
  have hread : ∀ k < 16, t.mem.read (s.p + s.i.toNat + k) =
      lane8 (vpackuswb (blockPair b g s).1 (blockPair b g s).2) k := fun k hk => by
    rw [hmem, Memory.read_writeBytes hm, if_pos (by omega), Nat.add_sub_cancel_left]
  have hwide : ∀ j < 8, (lane16 t.cw j).toNat =
      if j < b.toNat then (t.mem.read (s.p + s.i.toNat + (16 - b.toNat + j))).toNat else 0 := fun j hj => by
    rw [hcw, toNat_lane16_lastLanes hbyte hj]
    split
    · rw [hread _ (by omega)]
    · rfl
  refine ⟨fun k hk => ?bytes, hwide, fun j hj => by rw [hc, lane8_packCarry_of_bytes hle hwide hj],
    fun x hx => ?outside⟩
  case bytes =>
    have hcover := stageCount_covers b
    rw [hread k hk, hread (k - b.toNat) (by omega), blockPair, toNat_lane8_pack_stages hst hs hk (by omega),
      lane8_vld16a _ _ hk, lane8_uvec16 hk, lane8_uvec16 hk, State.payload, Nat.add_assoc]
  case outside => rw [hmem, Memory.read_writeBytes_outside _ hx]

/-- A 16-byte AVG block writes memory, the carries and I alone. -/
theorem avgBlock16_frame (b : Bpp) (s : State) : avgBlock16 b s =
    { s with
      mem := (avgBlock16 b s).mem, c := (avgBlock16 b s).c, cw := (avgBlock16 b s).cw
      i := BitVec.ofNat 32 (s.i.toNat + 16) } := rfl

/-- Settles O42: the stages reconstruct the block from the carry, whichever form of a stage the width takes. -/
theorem avgBlockFunction : Obligations.AvgBlockFunction := by
  intro b s _ hm hs
  have hcarry : WideCarry b s.cw := ⟨fun j => Nat.lt_succ_of_le (hs j).1, fun j => (hs j).2⟩
  obtain ⟨hbytes, hcw, hc, houtside⟩ := pairBlockFunction_of_store (avgLanes_reconstruct b) hm hcarry
    (avgBlock16_mem b s) (avgBlock16_cw b s) (avgBlock16_c b s)
  exact ⟨hbytes, hcw, hc, houtside, avgBlock16_frame b s⟩

end Sys2Proof.Machine
end

section
/-! The PAETH predictor in the lanes and the PAETH blocks (45_simd_paeth.md R230, R234, R235, R239): what the blocks of
sixteen and of eight bytes leave in memory and in the carries. -/

namespace Sys2Proof.Machine

/-! ### The lane predictor (R230) -/

/-- On bytes the two forms of the predictor agree (R106). -/
theorem paethRef_eq_paethOpt {a b c : Nat} (ha : a < 256) (hb : b < 256) (hc : c < 256) :
    paethRef a b c = paethOpt a b c :=
  (paethOptEqualsPaethRef a b c (by omega) (by omega) (by omega)).1.symm

theorem paethRef_lt {a b c n : Nat} (ha : a < n) (hb : b < n) (hc : c < n) : paethRef a b c < n := by
  rw [paethRef_eq_paethSelect]
  exact paethSelect_lt ha hb hc

/-- Settles O37: a lane of bytes is the canonical predictor, which is the branch-free one and one of its arguments. -/
theorem paethLanesArePredictors : Obligations.PaethLanesArePredictors := by
  intro a b c k hk ha hb hc
  have ha' := Nat.lt_succ_of_le ha
  have hb' := Nat.lt_succ_of_le hb
  have hc' := Nat.lt_succ_of_le hc
  have hlane := toNat_lane16_paeth16 hk ha' hb' hc'
  exact ⟨hlane.trans (paethRef_eq_paethOpt ha' hb' hc'), hlane ▸ Nat.le_of_lt_succ (paethRef_lt ha' hb' hc')⟩

/-! ### The 16-byte block at 4, 6, 8 bytes per pixel (R234) -/

/-- The left neighbour of a byte of a block, from the carry or from the block, is a byte. -/
theorem WideCarry.left_lt {b : Bpp} {cw : V128} (h : WideCarry b cw) (k : Nat) (x : Byte) :
    (if k < b.toNat then (lane16 cw k).toNat else x.toNat) < 256 := by
  split
  · exact h.lt k
  · exact x.isLt

/-- `RECON` of PAETH on bytes adds the branch-free predictor. -/
theorem recon_paeth_eq_paethOpt (x : Nat) {a : Nat} (ha : a < 256) (above aboveLeft : Byte) :
    recon .paeth x a above.toNat aboveLeft.toNat = sumMod256 x (paethOpt a above.toNat aboveLeft.toNat) :=
  congrArg (sumMod256 x) (paethRef_eq_paethOpt ha above.isLt aboveLeft.isLt)

/-- A 16-byte PAETH block writes memory, the carries and I alone. -/
theorem paethBlock16_frame (b : Bpp) (s : State) : paethBlock16 b s =
    { s with
      mem := (paethBlock16 b s).mem, c := (paethBlock16 b s).c, cw := (paethBlock16 b s).cw
      i := BitVec.ofNat 32 (s.i.toNat + 16) } := rfl

/-- Settles O43: the stages reconstruct the block from the carry, the byte above-left `bpp` before the byte above. -/
theorem paethBlockFunction : Obligations.PaethBlockFunction := by
  intro b s _ hm hi hs
  have hcarry : WideCarry b s.cw := ⟨fun j => Nat.lt_succ_of_le (hs j).1, fun j => (hs j).2⟩
  obtain ⟨hbytes, hcw, hc, houtside⟩ := pairBlockFunction_of_store paethLanes_reconstruct hm hcarry
    (paethBlock16_mem b s) (paethBlock16_cw b s) (paethBlock16_c b s)
  refine ⟨fun k hk => ?_, hcw, hc, houtside, paethBlock16_frame b s⟩
  rw [hbytes k hk, Nat.sub_add_comm hi]
  exact recon_paeth_eq_paethOpt _ (hcarry.left_lt k _) _ _

/-! ### The 8-byte block at three bytes per pixel (R235) -/

/-- The register pair whose low half is the single register of the 8-byte block: three stages cover its bytes. -/
def triplePair (s : State) : V128 × V128 :=
  stages .b3 s.cw
    (laneStage paethLanes (vld8 s.mem (s.p + s.i.toNat)) (s.uvec8 s.i.toNat) (s.uvec8 (s.i.toNat - 3))) 3

theorem paethBlock8_mem_eq_triplePair (s : State) : (paethBlock8 s).mem =
    s.mem.writeBytes (s.p + s.i.toNat) (lane8 (vpackuswb (triplePair s).1 (triplePair s).1)) 8 := by
  rw [paethBlock8_mem, paethOut3_eq_stages, triplePair]

theorem paethBlock8_cw_eq_triplePair (s : State) : (paethBlock8 s).cw = vsrldq (triplePair s).1 10 := by
  rw [paethBlock8_cw, paethOut3_eq_stages, triplePair]

/-- The bytes stored are those that the pair packs to. -/
theorem read_paethBlock8 {s : State} (hm : s.mem.wf) {k : Nat} (hk : k < 8) :
    (paethBlock8 s).mem.read (s.p + s.i.toNat + k) = lane8 (vpackuswb (triplePair s).1 (triplePair s).2) k := by
  rw [paethBlock8_mem_eq_triplePair, Memory.read_writeBytes hm, if_pos (by omega), Nat.add_sub_cancel_left]
  exact lane8_vpackuswb_low hk

/-- An 8-byte PAETH block writes memory, the carries and I alone. -/
theorem paethBlock8_frame (s : State) : paethBlock8 s =
    { s with
      mem := (paethBlock8 s).mem, c := (paethBlock8 s).c, cw := (paethBlock8 s).cw
      i := BitVec.ofNat 32 (s.i.toNat + 8) } := rfl

section

variable {s : State} (hm : s.mem.wf) (hs : WideCarry .b3 s.cw)
include hm hs

/-- Each byte of the block is reconstructed, the first three from the carry. -/
theorem toNat_read_paethBlock8 {k : Nat} (hk : k < 8) :
    ((paethBlock8 s).mem.read (s.p + s.i.toNat + k)).toNat = recon .paeth (s.payload (s.i.toNat + k)).toNat
      (if k < 3 then (lane16 s.cw k).toNat else ((paethBlock8 s).mem.read (s.p + s.i.toNat + (k - 3))).toNat)
      (s.above (s.i.toNat + k)).toNat (s.above (s.i.toNat - 3 + k)).toNat := by
  have hst := paethLanes_reconstruct.laneStage (vld8 s.mem (s.p + s.i.toNat)) (s.uvec8 s.i.toNat)
    (s.uvec8 (s.i.toNat - 3))
  have hcovered : k < 3 * Bpp.b3.toNat := Nat.lt_of_lt_of_le hk (by decide)
  rw [read_paethBlock8 hm hk, read_paethBlock8 hm (by omega), triplePair,
    toNat_lane8_pack_stages hst hs (by omega) hcovered, lane8_vld8 _ _ (by omega), if_pos hk, lane8_uvec8 hk,
    lane8_uvec8 hk, State.payload, Nat.add_assoc]
  rfl

/-- The wide carry becomes bytes 5, 6, 7 of the block. -/
theorem toNat_lane16_paethBlock8_cw : ∀ j < 8, (lane16 (paethBlock8 s).cw j).toNat =
    if j < 3 then ((paethBlock8 s).mem.read (s.p + s.i.toNat + (5 + j))).toNat else 0 := by
  intro j hj
  have hbyte : ∀ k < 16, (wide (triplePair s) k).toNat < 256 :=
    (wide_stages_recon (paethLanes_reconstruct.laneStage _ _ _) hs 3).1
  rw [paethBlock8_cw_eq_triplePair, lane16_vsrldq_even _ 5 hj]
  split
  · rw [read_paethBlock8 hm (by omega), lane8_pack hbyte (by omega), wide_low (by omega), Nat.add_comm]
  · rw [lane16_of_ge _ (by omega)]
    rfl

end

/-- Settles O44: three stages reconstruct the block in the low register, whose lanes 5, 6, 7 become the carry. -/
theorem paethTripleBlockFunction : Obligations.PaethTripleBlockFunction := by
  intro s hm hi hs
  have hcarry : WideCarry .b3 s.cw := ⟨fun j => Nat.lt_succ_of_le (hs j).1, fun j => (hs j).2⟩
  have hcw := toNat_lane16_paethBlock8_cw hm hcarry
  refine ⟨fun k hk => ?bytes, hcw, fun j hj => ?c, fun x hx => ?outside, paethBlock8_frame s⟩
  case bytes =>
    rw [toNat_read_paethBlock8 hm hcarry hk, Nat.sub_add_comm hi]
    exact recon_paeth_eq_paethOpt _ (hcarry.left_lt k _) _ _
  case c => rw [paethBlock8_c, lane8_packCarry_of_bytes (by decide) hcw hj]; rfl
  case outside => rw [paethBlock8_mem_eq_triplePair, Memory.read_writeBytes_outside _ hx]

end Sys2Proof.Machine
end

section
/-! Whole invocations (46_invocation.md R255, R256, R258; 41_scalar_filters.md R127): each engine step takes the cursor one
row on or stops the engine, and leaves the rows passed reconstructed. -/

namespace Sys2Proof.Machine

/-- The next row's index does not wrap: the current one is below H. -/
theorem State.Running.toNat_succ_y {s : State} (h : s.Running) : (s.y + 1#32).toNat = s.y.toNat + 1 := by
  have hrow := h.row
  have hlt := s.h.isLt
  rw [BitVec.toNat_add, BitVec.toNat_ofNat, Nat.mod_eq_of_lt (by omega)]

/-! ### The end of an invocation (R256) -/

/-- An engine step of a running invocation goes on to the next row or stops the engine. -/
theorem EngineStepTo.next_row_or_stopped {s t : State} (hi : s.Inv) (hb : s.status = .busy) (h : EngineStepTo s t) :
    (t.status = .busy ∧ t.y.toNat = s.y.toNat + 1) ∨ t.status = .done ∨ t.status = .fault := by
  obtain ⟨r, hr, rfl⟩ | ⟨_, rfl⟩ := engineStep_busy_writes hb h.step
  · have hsame : SameRow s.fetch r := hr.same
    by_cases hend : r.y + 1#32 = r.h
    · exact .inr (.inl (by rw [State.advance_status, if_pos hend]))
    · refine .inl ⟨?_, ?_⟩
      · rw [State.advance_status, if_neg hend, hsame.status]
        exact hb
      · rw [State.advance_y, hsame.y]
        exact (hi.running hb).toNat_succ_y
  · exact .inr (.inr rfl)

/-- A running invocation stops within as many engine steps as rows are left. -/
theorem exists_run_to_stop (n : Nat) : ∀ s : State, s.Inv → s.status = .busy → s.h.toNat - s.y.toNat = n →
    OnlyPollsWithin n s.inputs → ∃ k ≤ n, ∃ t, RunsEngineSteps k s t ∧ (t.status = .done ∨ t.status = .fault) := by
  induction n with
  | zero =>
    intro s hi hb hleft _
    have := (hi.running hb).row
    omega
  | succ n ih =>
    intro s hi hb hleft ho
    obtain ⟨r, t, hr, ht, hrun, hpolls⟩ := run_polled_step ho fun r hr => (hr.inv hi).exists_engineStepTo
    have hri := hr.inv hi
    obtain ⟨_, _, _, rfl⟩ := hr
    obtain ⟨hbusy, hy⟩ | hstop := ht.next_row_or_stopped hri hb
    · obtain ⟨_, _, _, hh, _⟩ := ht.kept
      have hleft' : t.h.toNat - t.y.toNat = n := by
        rw [hh, hy]
        show s.h.toNat - (s.y.toNat + 1) = n
        omega
      obtain ⟨k, hk, q, hq, hstop⟩ := ih t (hri.engineStep ht.step) hbusy hleft' hpolls
      exact ⟨1 + k, by omega, q, hrun.trans hq, hstop⟩
    · exact ⟨1, by omega, t, hrun, hstop⟩

/-- Settles O24: each engine step leaves one row less, and there is no row after the last. -/
theorem invocationEnds : Obligations.InvocationEnds := by
  intro s hi hb ho
  obtain ⟨k, hk, t, ⟨j, hj, hl⟩, hstop⟩ := exists_run_to_stop _ s hi hb rfl ho
  exact ⟨j, t, hj, by omega, hstop⟩

/-! ### The rows passed (R127, R255) -/

/-- What lies behind the first `rows` rows of a buffer is none of their payload. -/
theorem not_inPayload_of_le {buf bpl rows a : Nat} (ha : buf + rows * bpl ≤ a) : ¬InPayload buf bpl rows a := by
  rintro ⟨y, hy, _, hlt⟩
  have : (y + 1) * bpl ≤ rows * bpl := Nat.mul_le_mul_right bpl hy
  omega

theorem InPayload.mono {buf bpl rows rows' a : Nat} (h : InPayload buf bpl rows a) (hle : rows ≤ rows') :
    InPayload buf bpl rows' a := by
  obtain ⟨y, hy, hin⟩ := h
  exact ⟨y, Nat.lt_of_lt_of_le hy hle, hin⟩

/-- Whether a row is done depends on the result up to that row's end alone. -/
theorem RowDone.congr {bpp buf bpl y : Nat} {m m' m'' : Memory} (h : RowDone bpp buf bpl m m' y)
    (he : ∀ a < buf + y * bpl + bpl, m''.read a = m'.read a) : RowDone bpp buf bpl m m'' y := by
  obtain ⟨f, hf, hdone⟩ := h
  have hcurrent : ∀ i < bpl - 1, pixelAt m'' buf bpl y i = pixelAt m' buf bpl y i := fun i hi =>
    he _ (by omega)
  have habove : ∀ i < bpl - 1, pixelAt m'' buf bpl (y - 1) i = pixelAt m' buf bpl (y - 1) i := fun i hi => by
    have := Nat.mul_le_mul_right bpl (Nat.sub_le y 1)
    exact he _ (by omega)
  refine ⟨f, hf, fun i hi => ?_⟩
  rw [hcurrent i hi, hdone i hi, hcurrent (i - bpp) (by omega), habove i hi, habove (i - bpp) (by omega)]

/-- The first `k` rows of the invocation that began in `s` are reconstructed in `t`, which stands at row `k`, or in DONE
after the last; no other byte of memory has changed. -/
structure RowsPassed (k : Nat) (s t : State) : Prop where
  y : t.y.toNat = k
  status : t.status = if k = s.h.toNat then .done else .busy
  rows : ∀ y < k, RowDone s.bpp.toNat s.buf s.bpl.toNat s.mem t.mem y
  outside : ∀ a, ¬InPayload s.buf s.bpl.toNat k a → t.mem.read a = s.mem.read a

theorem RowsPassed.start {s : State} (hi : s.Inv) (hb : s.status = .busy) (hy : s.y = 0) : RowsPassed 0 s s where
  y := by rw [hy]; rfl
  status := by
    have := (hi.running hb).row
    rw [hb, if_neg (by omega)]
  rows y hlt := absurd hlt (Nat.not_lt_zero y)
  outside _ _ := rfl

theorem RowsPassed.polled {k : Nat} {s t r : State} (h : RowsPassed k s t) (hr : Polled t r) : RowsPassed k s r := by
  obtain ⟨_, _, _, rfl⟩ := hr
  exact ⟨h.y, h.status, h.rows, h.outside⟩

section

variable {k : Nat} {s t : State} (h : RowsPassed k s t)
include h

theorem RowsPassed.busy (hk : k < s.h.toNat) : t.status = .busy := by rw [h.status, if_neg (by omega)]

/-- The rows to come are as they were. -/
theorem RowsPassed.read_ahead {a : Nat} (ha : s.buf + k * s.bpl.toNat ≤ a) : t.mem.read a = s.mem.read a :=
  h.outside a (not_inPayload_of_le ha)

variable (hkept : ParametersKept s t) (hrun : t.Running)
include hkept hrun

theorem RowsPassed.cursor : t.p = s.buf + k * s.bpl.toNat + 1 ∧ t.n = s.bpl.toNat - 1 := by
  obtain ⟨_, _, hbuf, _, _, hbpl, _⟩ := hkept
  exact ⟨by rw [hrun.cursor, h.y, hbuf, hbpl], by rw [State.n, hbpl]⟩

theorem RowsPassed.filterByte : t.mem.read (t.p - 1) = filterAt s.mem s.buf s.bpl.toNat k := by
  rw [(h.cursor hkept hrun).1, Nat.add_sub_cancel]
  exact h.read_ahead (Nat.le_refl _)

theorem RowsPassed.payload (i : Nat) : t.payload i = pixelAt s.mem s.buf s.bpl.toNat k i := by
  rw [State.payload, (h.cursor hkept hrun).1]
  exact h.read_ahead (by omega)

/-- The bytes above row `k` are those of row `k - 1`, and 0 above row 0 (R84). -/
theorem RowsPassed.above (i : Nat) :
    (t.above i).toNat = if k = 0 then 0 else (pixelAt t.mem s.buf s.bpl.toNat (k - 1) i).toNat := by
  obtain ⟨_, _, hbuf, _, _, hbpl, _⟩ := hkept
  by_cases hy : t.y = 0#32
  · have hk : k = 0 := by rw [← h.y, hy]; rfl
    rw [State.above_first hy, if_pos hk]
    rfl
  · have hk : k ≠ 0 := fun hk => hy (BitVec.eq_of_toNat_eq (h.y.trans hk))
    rw [State.above_later hy, hrun.above hy, if_neg hk, h.y, hbuf, hbpl, pixelAt]

/-- The row reconstructed at the cursor is row `k` of the image. -/
theorem RowsPassed.rowDone {f : Filter} {r : State} (hf : Filter.ofByte? (t.mem.read (t.p - 1)) = some f)
    (hr : Progress f t.bpp.toNat t.n t.fetch r) : RowDone s.bpp.toNat s.buf s.bpl.toNat s.mem r.mem k := by
  obtain ⟨hp, hn⟩ := h.cursor hkept hrun
  have ⟨_, _, _, _, hbpp, _⟩ := hkept
  have hcurrent : ∀ i, pixelAt r.mem s.buf s.bpl.toNat k i = r.mem.read (t.p + i) := fun i => by rw [pixelAt, hp]
  have habove : ∀ i < t.n, (t.above i).toNat =
      if k = 0 then 0 else (pixelAt r.mem s.buf s.bpl.toNat (k - 1) i).toNat := fun i hi => by
    rw [h.above hkept hrun]
    by_cases hk : k = 0
    · rw [if_pos hk, if_pos hk]
    · have hrow := rows_le s.bpl.toNat (Nat.sub_lt (Nat.pos_of_ne_zero hk) Nat.one_pos)
      rw [if_neg hk, if_neg hk, pixelAt, pixelAt, hr.outside]
      · rfl
      · show ¬(t.p ≤ _ ∧ _)
        omega
  refine ⟨f, by rw [← h.filterByte hkept hrun, hf], fun i hi => ?_⟩
  rw [← hn] at hi
  have hdone := hr.done i hi
  rw [show t.fetch.payload i = _ from h.payload hkept hrun i, show (t.fetch.above i).toNat = _ from habove i hi,
    show (t.fetch.above (i - t.bpp.toNat)).toNat = _ from habove _ (by omega), hbpp] at hdone
  rw [hcurrent, hcurrent, ite_and, ite_not]
  exact hdone

/-- The reconstructed row joins the rows passed when the cursor advances (R131, R132). -/
theorem RowsPassed.row {f : Filter} {r : State} (hf : Filter.ofByte? (t.mem.read (t.p - 1)) = some f)
    (hr : Progress f t.bpp.toNat t.n t.fetch r) : RowsPassed (k + 1) s r.advance := by
  have ⟨_, _, _, hh, _⟩ := hkept
  obtain ⟨hp, hn⟩ := h.cursor hkept hrun
  have hbpl := hrun.bpl_eq
  have hy : (r.y + 1#32).toNat = k + 1 := by rw [hr.same.y, ← h.y]; exact hrun.toNat_succ_y
  refine ⟨hy, ?status, fun y hlt => ?rows, fun a ha => ?outside⟩
  case status =>
    have hend : r.y + 1#32 = r.h ↔ k + 1 = s.h.toNat := by
      rw [← BitVec.toNat_inj, hy, hr.same.h, show t.fetch.h = s.h from hh]
    rw [State.advance_status, hr.same.status, show t.fetch.status = .busy from hrun.busy]
    exact if_congr hend rfl rfl
  case rows =>
    obtain hlt | rfl := Nat.lt_succ_iff_lt_or_eq.1 hlt
    · have hrows := rows_le s.bpl.toNat hlt
      exact (h.rows y hlt).congr fun a ha => hr.outside a (by show ¬(t.p ≤ a ∧ _); omega)
    · exact h.rowDone (r := r) hkept hrun hf hr
  case outside =>
    have hrow : ¬(t.p ≤ a ∧ a < t.p + t.n) := fun hin =>
      ha ⟨k, Nat.lt_succ_self k, by rw [Nat.succ_mul]; omega⟩
    exact (hr.outside a hrow).trans (h.outside a fun hin => ha (hin.mono (Nat.le_succ k)))

end

/-- An engine step at a row of a defined filter byte passes that row. -/
theorem RowsPassed.next {k : Nat} {s t q : State} (h : RowsPassed k s t) (hkept : ParametersKept s t) (hi : t.Inv)
    (hk : k < s.h.toNat) (hft : (filterAt s.mem s.buf s.bpl.toNat k).toNat < 5) (hq : EngineStepTo t q) :
    RowsPassed (k + 1) s q := by
  have hrun := hi.running (h.busy hk)
  obtain ⟨m, hm, ⟨f, hf, hready, hstep⟩ | ⟨h5, _⟩⟩ := engineStep_running hi hrun.busy
  · have hr := bodyOf_progress (i := Instr.select m f) (by rwa [Instr.filter_select])
      (runsIn_select (s := t.fetch) hm f)
    rw [Instr.filter_select] at hr
    rw [hq.step] at hstep
    injection hstep with hstep
    rw [hstep]
    exact h.row hkept hrun hf hr
  · rw [h.filterByte hkept hrun] at h5
    omega

/-- While the filter bytes are defined, `k` engine steps pass `k` rows. -/
theorem rowsPassed_after {n : Nat} {s : State} (hi : s.Inv) (hb : s.status = .busy) (hy : s.y = 0)
    (ho : OnlyPollsWithin n s.inputs) : ∀ k ≤ n, k ≤ s.h.toNat →
    (∀ y < k, (filterAt s.mem s.buf s.bpl.toNat y).toNat < 5) → ∃ t, OnTheWay n k s t ∧ RowsPassed k s t := by
  intro k
  induction k with
  | zero =>
    intro _ _ _
    exact ⟨s, ⟨⟨0, rfl, rfl⟩, hi, ⟨rfl, rfl, rfl, rfl, rfl, rfl, rfl, rfl⟩, ho⟩, .start hi hb hy⟩
  | succ k ih =>
    intro hk hrows hft
    obtain ⟨t, ht, hpassed⟩ := ih (by omega) (by omega) fun y hy => hft y (by omega)
    obtain ⟨r, q, hr, hq, hway⟩ := ht.next hk
    exact ⟨q, hway, (hpassed.polled hr).next (ht.kept.trans hr.parametersKept) (hr.inv ht.inv) hrows
      (hft k (Nat.lt_succ_self k)) hq⟩

/-- Settles O25: after H engine steps every row is passed. -/
theorem invocationReconstructsImage : Obligations.InvocationReconstructsImage := by
  intro s hi hb ho hy hft
  obtain ⟨t, ht, hpassed⟩ := rowsPassed_after hi hb hy ho _ (Nat.le_refl _) (Nat.le_refl _) hft
  obtain ⟨j, hj, hl⟩ := ht.run
  obtain ⟨_, _, hbuf, hh, hbpp, hbpl, hksel, _⟩ := ht.kept
  exact ⟨j, t, hj, hl, by rw [hpassed.status, if_pos rfl], hpassed.rows, hpassed.outside, hbuf, hh, hbpp, hbpl, hksel⟩

end Sys2Proof.Machine
end

section
/-! START (46_invocation.md R251, R252; R33), and the order of host and engine (R258; log 8). -/

namespace Sys2Proof

/-- P1's values of BPP are those that name a number of bytes per pixel. -/
theorem Bpp.isNone_ofNat?_iff {k : Nat} :
    (Bpp.ofNat? k).isNone = true ↔ ¬(k = 1 ∨ k = 2 ∨ k = 3 ∨ k = 4 ∨ k = 6 ∨ k = 8) := by
  rw [← Option.not_isSome, Bool.not_eq_true', ← Bool.not_eq_true, not_iff_not]
  constructor
  · intro h
    obtain ⟨b, hb⟩ := Option.isSome_iff_exists.1 h
    rw [← Bpp.ofNat?_eq_some hb]
    cases b <;> decide
  · rintro (rfl | rfl | rfl | rfl | rfl | rfl) <;> rfl

/-- P6's values of KSEL are those that name a kernel. -/
theorem Kernel.isNone_ofBits?_iff : ∀ {k : BitVec 2}, (Kernel.ofBits? k).isNone = true ↔ ¬(k = 0 ∨ k = 1 ∨ k = 2) := by
  decide

end Sys2Proof

namespace Sys2Proof.Machine

/-! ### The preconditions (R252) -/

/-- The order in which START names a precondition that fails (log 13). -/
def startOrder : List Precondition := [.p7, .p1, .p2, .p3, .p4, .p5, .p6]

theorem mem_startOrder (q : Precondition) : q ∈ startOrder := by cases q <;> decide

/-- The model's test for the failure of each precondition. -/
def State.fails (s : State) : Precondition → Bool
  | .p1 => (Bpp.ofNat? s.bpp.toNat).isNone
  | .p2 => !bplOk s.bpp.toNat s.bpl.toNat
  | .p3 => decide (s.h.toNat = 0)
  | .p4 => !clearOf s.holes s.buf (s.h.toNat * s.bpl.toNat)
  | .p5 => decide (2 ^ s.addrW < s.buf + s.h.toNat * s.bpl.toNat)
  | .p6 => (Kernel.ofBits? s.ksel).isNone
  | .p7 => !s.written.all

theorem find?_cons_eq_ite {α : Type} (p : α → Bool) (a : α) (l : List α) :
    (a :: l).find? p = if p a = true then some a else l.find? p := by
  rw [List.find?_cons]
  cases p a <;> rfl

/-- START violates the first precondition, in the order of log 13, whose test answers. -/
theorem State.startViolation_eq_find? (s : State) : s.startViolation = startOrder.find? s.fails := by
  simp only [startOrder, find?_cons_eq_ite, List.find?_nil, State.fails, decide_eq_true_iff]
  rw [State.startViolation, Invocation.violation]
  cases s.written.all <;> rfl

theorem Written.all_iff {w : Written} : w.all = true ↔ w = ⟨true, true, true, true, true⟩ := by
  obtain ⟨buf, h, bpp, bpl, ksel⟩ := w
  simp [Written.all, and_assoc]

theorem not_eq_true_iff_not {b : Bool} {p : Prop} (h : b = true ↔ p) : (!b) = true ↔ ¬p := by
  rw [Bool.not_eq_true', ← Bool.not_eq_true, h]

/-- A test answers where the row of R252's table does not hold. -/
theorem State.fails_iff (s : State) (q : Precondition) : s.fails q = true ↔ ¬s.meets q := by
  cases q with
  | p1 => exact Bpp.isNone_ofNat?_iff
  | p2 => exact not_eq_true_iff_not bplOk_iff
  | p3 => exact decide_eq_true_iff.trans (Nat.lt_one_iff.symm.trans Nat.not_le.symm)
  | p4 => exact not_eq_true_iff_not clearOf_iff
  | p5 => exact decide_eq_true_iff.trans Nat.not_le.symm
  | p6 => exact Kernel.isNone_ofBits?_iff
  | p7 => exact not_eq_true_iff_not Written.all_iff

/-- In a list without duplicates, `q` is the first element with a property when it has it and none before it does. -/
theorem find?_append_cons_eq_some_iff {α : Type} {p : α → Bool} {pre post : List α} {q : α}
    (hnodup : (pre ++ q :: post).Nodup) :
    (pre ++ q :: post).find? p = some q ↔ (∀ r ∈ pre, ¬p r = true) ∧ p q = true := by
  obtain ⟨_, hcons, hdisjoint⟩ := List.nodup_append'.1 hnodup
  have hpre : q ∉ pre := fun h => hdisjoint h List.mem_cons_self
  have hpost : q ∉ post := (List.nodup_cons.1 hcons).1
  rw [List.find?_eq_some_iff_append]
  constructor
  · rintro ⟨hq, as, bs, he, has⟩
    obtain ⟨rfl, _, _⟩ := (List.append_cons_inj_of_notMem hpre hpost).1 he
    exact ⟨by simpa using has, hq⟩
  · rintro ⟨has, hq⟩
    exact ⟨hq, pre, post, rfl, by simpa using has⟩

/-! ### START (R251, R33) -/

theorem hostMove_start {s : State} (hs : s.status ≠ .busy) : hostMove (.writeReg .ctrl 1) s = s.start := by
  rw [hostMove_writeReg_ctrl hs, if_neg (by decide), if_pos rfl]

theorem State.start_eq_next {s : State} (h : s.startViolation = none) : s.start = .next s.started := by
  rw [State.start, h]

theorem State.start_refused_iff {s : State} {q : Precondition} :
    s.start = .refused (.precondition q) ↔ s.startViolation = some q := by
  rw [State.start]
  cases s.startViolation <;> simp

/-- Settles O11: the buffer has more than one byte (P2, P3, P5), so that P can hold BUF + 1. -/
theorem startBeginsInvocation : Obligations.StartBeginsInvocation := by
  intro s hs hv
  have hrun := running_started hv
  have hp : s.started.p = s.buf + 1 := by
    rw [hrun.cursor, State.started_buf, State.started_y, BitVec.toNat_ofNat, Nat.zero_mod, Nat.zero_mul]
  refine ⟨s.started, by rw [hostMove_start hs, State.start_eq_next hv], ?_, hrun⟩
  rw [← hp]
  simp [State.started]

/-- Settles O12: START names the first precondition whose test answers, and each test is the table's row. -/
theorem startRefusedExactlyOnViolation : Obligations.StartRefusedExactlyOnViolation := by
  intro s hs
  simp only [hostMove_start hs, State.start_refused_iff, State.startViolation_eq_find?]
  refine ⟨?refused, fun pre q post horder => ?named⟩
  case refused =>
    rw [← Option.isSome_iff_exists, List.find?_isSome]
    exact ⟨fun ⟨q, _, hq⟩ => ⟨q, (s.fails_iff q).1 hq⟩,
      fun ⟨q, hq⟩ => ⟨q, mem_startOrder q, (s.fails_iff q).2 hq⟩⟩
  case named =>
    have hnodup : startOrder.Nodup := by decide
    rw [startOrder, horder] at hnodup ⊢
    simp only [find?_append_cons_eq_some_iff hnodup, State.fails_iff, not_not]

/-- Settles O10: the due move is the step. -/
theorem dueHostMoveLands : Obligations.DueHostMoveLands := fun _ _ _ h => step_due h

end Sys2Proof.Machine
end

section
/-! The FORMAT fault (60_exceptions.md R270, R271, R274 to R276): its entry, where the engine stops, and what an
invocation leaves that meets a reserved filter byte. -/

namespace Sys2Proof.Machine

/-- The step at a reserved filter byte is fault entry, with the byte in FT. -/
theorem engineStep_reserved {s : State} {m : Mode} (hb : s.status = .busy) (hm : s.mode = some m)
    (hf : s.fetchFault = none) (h5 : 5 ≤ (s.mem.read (s.p - 1)).toNat) :
    engineStep s = .next s.fetch.raiseFormat := by
  rw [engineStep_busy hb hm hf, runFetched_reserved h5]

/-- A running invocation selects a mode and its filter byte can be read, so a reserved one is fault entry. -/
theorem State.Running.engineStep_reserved {s : State} (h : s.Running) (h5 : 5 ≤ (s.mem.read (s.p - 1)).toNat) :
    engineStep s = .next s.fetch.raiseFormat := by
  obtain ⟨_, hm⟩ := h.mode_eq_some
  exact Machine.engineStep_reserved h.busy hm h.fetchFault_none h5

/-- Behind `k` rows passed, an engine step at a reserved filter byte is fault entry. -/
theorem RowsPassed.reserved {k : Nat} {s t q : State} (h : RowsPassed k s t) (hkept : ParametersKept s t) (hi : t.Inv)
    (hk : k < s.h.toNat) (h5 : 5 ≤ (filterAt s.mem s.buf s.bpl.toNat k).toNat) (hq : EngineStepTo t q) :
    q = t.fetch.raiseFormat ∧ t.mem.read (t.p - 1) = filterAt s.mem s.buf s.bpl.toNat k := by
  have hrun := hi.running (h.busy hk)
  have hbyte := h.filterByte hkept hrun
  have hstep := hrun.engineStep_reserved (by rwa [hbyte])
  rw [hq.step] at hstep
  exact ⟨Host.Outcome.next.inj hstep, hbyte⟩

/-- Settles O26: `r` engine steps pass the rows before row `r`, and the next one enters the fault, which writes no byte
and which the engine does not leave. -/
theorem formatFaultIsPrecise : Obligations.FormatFaultIsPrecise := by
  intro s r hi hb ho hy hr hft h5
  obtain ⟨t, ht, hpassed⟩ := rowsPassed_after hi hb hy ho r (Nat.le_succ r) (Nat.le_of_lt hr) hft
  obtain ⟨p, q, hp, hq, hway⟩ := ht.next (Nat.lt_succ_self r)
  have hpassed := hpassed.polled hp
  obtain ⟨rfl, hbyte⟩ := hpassed.reserved (ht.kept.trans hp.parametersKept) (hp.inv ht.inv) hr h5 hq
  obtain ⟨j, hj, hl⟩ := hway.run
  obtain ⟨_, _, hbuf, hh, hbpp, hbpl, hksel, _⟩ := hway.kept
  exact ⟨j, _, hj, hl, rfl, rfl, hpassed.y, hbyte, hpassed.rows, hpassed.outside, hbuf, hh, hbpp, hbpl, hksel,
    stoppedEngineKeepsState _ (by simp)⟩

/-- Settles O7: the engine's step is fault entry, and no engine step leaves FAULT. -/
theorem reservedByteTakesFormatFault : Obligations.ReservedByteTakesFormatFault := by
  intro s m hb hnone hm hf h5
  have hstep := (step_noMoveDue hnone).trans (engineStep_reserved (s := s.tick) hb hm hf h5)
  exact ⟨_, hstep, rfl, stoppedEngineKeepsState _ (by simp)⟩

end Sys2Proof.Machine
end

section
/-! Reset (70_reset_and_hazards.md R290 to R292; R43): from any state, and what it leaves of the buffer of an invocation
that it ends. -/

namespace Sys2Proof.Machine

/-- Reset touches no memory unless an invocation is running (R43). -/
theorem State.memAfterReset_stopped {s : State} (hs : s.status ≠ .busy) : s.memAfterReset = s.mem := if_neg hs

theorem State.memAfterReset_busy {s : State} (hs : s.status = .busy) :
    s.memAfterReset = scramblePayload s.buf s.bpl.toNat s.fresh s.mem (s.h.toNat * s.bpl.toNat) := if_pos hs

/-- Settles O16: reset answers IDLE with no parameter register written, so that START is refused by P7. -/
theorem resetFromAnyState : Obligations.ResetFromAnyState := by
  intro s
  refine ⟨s.resetMove, rfl, s.resetMove_status, s.resetMove_written, s.resetMove_addrW, s.resetMove_holes,
    s.resetMove_inputs, s.resetMove_readData, fun hs => ?memory, ?start⟩
  case memory => rw [State.resetMove_mem, State.memAfterReset_stopped hs]
  case start => exact hostMove_start_unwritten (by simp) (by rw [State.resetMove_written]; rfl)

/-- A byte of the buffer whose offset is no multiple of the row length is a payload byte. -/
theorem inPayload_of_offset {buf bpl rows a : Nat} (hlow : buf ≤ a) (hhigh : a < buf + rows * bpl)
    (hoffset : (a - buf) % bpl ≠ 0) : InPayload buf bpl rows a := by
  have hdiv := Nat.div_add_mod' (a - buf) bpl
  have hpos : 0 < bpl := Nat.pos_of_ne_zero fun h => by rw [h, Nat.mul_zero] at hhigh; omega
  have hmod := Nat.mod_lt (a - buf) hpos
  refine ⟨(a - buf) / bpl, (Nat.div_lt_iff_lt_mul hpos).2 (by omega), by omega, ?_⟩
  rw [Nat.succ_mul]
  omega

/-- A filter byte is no payload byte: it stands below its own row's payload and behind that of every row before (R63). -/
theorem not_inPayload_filter (buf bpl rows y : Nat) : ¬InPayload buf bpl rows (buf + y * bpl) := by
  rintro ⟨k, _, hlow, hhigh⟩
  have hky : k < y := Nat.lt_of_mul_lt_mul_right (a := bpl) (by omega)
  have hyk : y < k + 1 := Nat.lt_of_mul_lt_mul_right (a := bpl) (by omega)
  omega

/-- A reset during BUSY writes payload bytes alone (R292). -/
theorem State.read_memAfterReset {s : State} (hmem : s.mem.wf) (hs : s.status = .busy) {a : Nat}
    (ha : ¬InPayload s.buf s.bpl.toNat s.h.toNat a) : s.memAfterReset.read a = s.mem.read a := by
  rw [State.memAfterReset_busy hs, (read_scramblePayload hmem _ _ _ _ a).2, if_neg]
  rintro ⟨hlow, hhigh, hoffset⟩
  exact ha (inPayload_of_offset hlow hhigh hoffset)

/-- Settles O17: the bytes that a reset during BUSY keeps have the filter bytes among them. -/
theorem busyResetKeepsFilterBytes : Obligations.BusyResetKeepsFilterBytes := by
  intro s hi hs
  have houtside : ∀ a, ¬InPayload s.buf s.bpl.toNat s.h.toNat a → s.resetMove.mem.read a = s.mem.read a :=
    fun a ha => by rw [State.resetMove_mem, State.read_memAfterReset hi.memWf hs ha]
  exact ⟨s.resetMove, rfl, fun y _ => houtside _ (not_inPayload_filter _ _ _ y), houtside⟩

end Sys2Proof.Machine
end
